-- ==== Sys2Proof/Word.lean ====
section
/-!
DEFINITION. The machine's word types (spec 10_state.md R10, R11; 20_memory.md R31; 00_scope.md R3: XLEN = 32, NREG = 16).
-/

namespace Sys2Proof

/-- A 32-bit word: a general register, the program counter, an address, an instruction word (R11, R13, R31, R50). -/
abbrev Word := BitVec 32

/-- A byte of memory (R31). -/
abbrev Byte := BitVec 8

/-- A general register's number: field value `i` selects `r<i>` (R10). -/
abbrev Reg := Fin 16

end Sys2Proof
end

