-- ==== Sys2Proof/Machine/Params.lean ====
section
/-!
DEFINITION. The decided implementation parameters of 00_scope.md R3, each with the spec's default (log entry 17). XLEN, NREG,
MISALIGNED, STACK_DOWN and DIV_SIGNED are built into the types and meanings: the spec gives rules for their defaults only.
-/

namespace Sys2Proof.Machine

/-- `SP`: the register used implicitly as the stack pointer (R3, 10_state.md R12, decision D7). -/
def spReg : Reg := 15

/-- `PC_BIAS`: added to an instruction's own address for the branch base and the value `pushpc` pushes (R3, R13, decision D6). -/
def pcBias : Word := 4#32

/-- `BIG_ENDIAN`: the byte order of data and of instruction fetch (R3, 20_memory.md R33, decision D2). -/
def bigEndian : Bool := false

/-- `FLAG_POS` of Z in the flags word (R3, R17, decision D27). -/
def flagPosZ : Nat := 3
/-- `FLAG_POS` of N in the flags word (R3, R17, decision D27). -/
def flagPosN : Nat := 2
/-- `FLAG_POS` of V in the flags word (R3, R17, decision D27). -/
def flagPosV : Nat := 1
/-- `FLAG_POS` of C in the flags word (R3, R17, decision D27). -/
def flagPosC : Nat := 0

end Sys2Proof.Machine
end

