-- ==== Sys2Proof/Syntax.lean ====
section
/-!
DEFINITION. The abstract syntax of MINA 1: one constructor of `Instr` per row of spec/opcode_table.json (30_encoding.md R53).
-/

namespace Sys2Proof

/-- The sixteen condition codes of 30_encoding.md R62, in the order of their code 0h to Fh. -/
inductive Cond where
  | al      -- 0h, Always
  | eq      -- 1h, Z=1
  | ne      -- 2h, Z=0
  | hs      -- 3h, C=1
  | lo      -- 4h, C=0
  | mi      -- 5h, N=1
  | pl      -- 6h, N=0
  | vs      -- 7h, V=1
  | vc      -- 8h, V=0
  | hi      -- 9h, C=1 and Z=0
  | ls      -- Ah, C=0 or Z=1
  | ge      -- Bh, N=V
  | lt      -- Ch, N≠V
  | gt      -- Dh, Z=0 and N=V
  | le      -- Eh, Z=1 or N≠V
  | allSet  -- Fh (`_as`), Z=N=V=C=1
  deriving DecidableEq, Repr

/-- The offset of a single load or store (30_encoding.md R59, 43_load.md R130): the register SRC2 when I=0, the unsigned
8-bit immediate when I=1. -/
inductive Offset where
  | reg (src2 : Reg)
  | imm (imm8 : BitVec 8)
  deriving DecidableEq, Repr

/-- The operands of a single-register load or store (43_load.md R130). `data` is the field DEST when the offset is a register
(I=0) and DES2 when it is an immediate (I=1). -/
structure Single where
  /-- SRC1, the base register -/
  base   : Reg
  /-- the register loaded or stored -/
  data   : Reg
  offset : Offset
  /-- U, "add offset to base" -/
  up     : Bool
  /-- P, "pre-increment base" -/
  pre    : Bool
  /-- W, "write back new base" -/
  wb     : Bool
  deriving DecidableEq, Repr

/-- The operands of `loadm` and `storm` (43_load.md R133, 30_encoding.md R60). -/
structure Multi where
  /-- SRC1, the base register -/
  base : Reg
  /-- the DES2 field, which must repeat SRC1 (R133) -/
  des2 : Reg
  /-- the register list; bit `i` selects `r<i>`, or `r<i+8>` when `high` -/
  list : BitVec 8
  /-- H, "access r8-r15" -/
  high : Bool
  up   : Bool
  pre  : Bool
  wb   : Bool
  deriving DecidableEq, Repr

/-- The 51 instructions (00_scope.md R2). `c` is the condition code; `x` holds the don't-care Config bits (R67: bits 15-13 in
group 0h and in `rbra`, `rcall`, bit 15 in group 1h), kept only so that an exception records the fetched word exactly (R210; log
entry 15); `f`, `o`, `sg` are the Config bits F, O and S (R56). -/
inductive Instr where
  -- group 0h, logical (40_logical.md)
  | and    (c : Cond) (x : BitVec 3) (f : Bool) (src1 src2 dest : Reg)
  | or     (c : Cond) (x : BitVec 3) (f : Bool) (src1 src2 dest : Reg)
  | xor    (c : Cond) (x : BitVec 3) (f : Bool) (src1 src2 dest : Reg)
  | nand   (c : Cond) (x : BitVec 3) (f : Bool) (src1 src2 dest : Reg)
  | not    (c : Cond) (x : BitVec 3) (f : Bool) (src1 dest : Reg)
  | nor    (c : Cond) (x : BitVec 3) (f : Bool) (src1 src2 dest : Reg)
  | xnor   (c : Cond) (x : BitVec 3) (f : Bool) (src1 src2 dest : Reg)
  | cntlz  (c : Cond) (x : BitVec 3) (f : Bool) (src1 dest : Reg)
  | cntlo  (c : Cond) (x : BitVec 3) (f : Bool) (src1 dest : Reg)
  | popcnt (c : Cond) (x : BitVec 3) (f : Bool) (src1 dest : Reg)
  -- group 1h, arithmetic (41_arithmetic.md)
  | add    (c : Cond) (x o f : Bool) (src1 src2 dest : Reg)
  | sub    (c : Cond) (x o f : Bool) (src1 src2 dest : Reg)
  | addc   (c : Cond) (x o f : Bool) (src1 src2 dest : Reg)
  | subc   (c : Cond) (x o f : Bool) (src1 src2 dest : Reg)
  | neg    (c : Cond) (x o f : Bool) (src1 dest : Reg)
  | comp   (c : Cond) (x o : Bool) (src1 src2 : Reg)
  | mult   (c : Cond) (x f : Bool) (src1 src2 dest : Reg)
  | div    (c : Cond) (x f : Bool) (src1 src2 dest : Reg)
  | rem    (c : Cond) (x f : Bool) (src1 src2 dest : Reg)
  | lmul   (c : Cond) (x sg f : Bool) (des2 src1 src2 dest : Reg)
  -- group 2h, control flow (42_control_flow.md); `off` is SRC2 when the bit O is 1
  | rbra   (c : Cond) (x : BitVec 3) (src1 : Reg) (off : Option Reg)
  | rcall  (c : Cond) (x : BitVec 3) (src1 : Reg) (off : Option Reg)
  | ret    (c : Cond)
  -- group 3h, load (43_load.md)
  | load   (c : Cond) (a : Single)
  | loadm  (c : Cond) (m : Multi)
  | loadb  (c : Cond) (a : Single)
  | loadh  (c : Cond) (a : Single)
  | pop    (c : Cond) (dest : Reg)
  | loadbe (c : Cond) (a : Single)
  | popf   (c : Cond)
  | loadhe (c : Cond) (a : Single)
  -- group 4h, store (44_store.md); the cell DEST names the register pushed
  | stor   (c : Cond) (a : Single)
  | storm  (c : Cond) (m : Multi)
  | storb  (c : Cond) (a : Single)
  | storh  (c : Cond) (a : Single)
  | push   (c : Cond) (dest : Reg)
  | pushpc (c : Cond)
  | pushf  (c : Cond)
  -- group 6h, CPU control (45_cpu_control.md)
  | stop    (c : Cond)
  | wait    (c : Cond)
  | switchm (c : Cond)
  -- group 7h, immediate (46_immediate.md)
  | movimm  (c : Cond) (des2 : Reg) (imm : BitVec 16)
  | movuimm (c : Cond) (des2 : Reg) (imm : BitVec 16)
  | andimm  (c : Cond) (des2 : Reg) (imm : BitVec 16)
  | orimm   (c : Cond) (des2 : Reg) (imm : BitVec 16)
  | xorimm  (c : Cond) (des2 : Reg) (imm : BitVec 16)
  | addimm  (c : Cond) (des2 : Reg) (imm : BitVec 16)
  | subimm  (c : Cond) (des2 : Reg) (imm : BitVec 16)
  | compimm (c : Cond) (des2 : Reg) (imm : BitVec 16)
  -- groups 8h and 9h (47_branch_call.md)
  | bra  (c : Cond) (off24 : BitVec 24)
  | call (c : Cond) (off24 : BitVec 24)
  deriving DecidableEq, Repr

/-- The condition code of an instruction (30_encoding.md R62: present in every format). -/
def Instr.cond : Instr → Cond
  | .and c _ _ _ _ _ | .or c _ _ _ _ _ | .xor c _ _ _ _ _ | .nand c _ _ _ _ _ | .not c _ _ _ _ => c
  | .nor c _ _ _ _ _ | .xnor c _ _ _ _ _ | .cntlz c _ _ _ _ | .cntlo c _ _ _ _ | .popcnt c _ _ _ _ => c
  | .add c _ _ _ _ _ _ | .sub c _ _ _ _ _ _ | .addc c _ _ _ _ _ _ | .subc c _ _ _ _ _ _ => c
  | .neg c _ _ _ _ _ | .comp c _ _ _ _ | .mult c _ _ _ _ _ | .div c _ _ _ _ _ | .rem c _ _ _ _ _ => c
  | .lmul c _ _ _ _ _ _ _ | .rbra c _ _ _ | .rcall c _ _ _ | .ret c => c
  | .load c _ | .loadm c _ | .loadb c _ | .loadh c _ | .pop c _ | .loadbe c _ | .popf c | .loadhe c _ => c
  | .stor c _ | .storm c _ | .storb c _ | .storh c _ | .push c _ | .pushpc c | .pushf c => c
  | .stop c | .wait c | .switchm c => c
  | .movimm c _ _ | .movuimm c _ _ | .andimm c _ _ | .orimm c _ _ => c
  | .xorimm c _ _ | .addimm c _ _ | .subimm c _ _ | .compimm c _ _ => c
  | .bra c _ | .call c _ => c

/-- Why the decoder gives a word no instruction (30_encoding.md R54, steps 2 and 3). -/
inductive Reject where
  /-- group 5h or Ah-Fh, or an opcode listed "invalid": the machine raises `IllegalInstruction` (R64, R65) -/
  | illegal
  /-- a should-be-zero field is not zero (R66) -/
  | sbz
  /-- a Config bit "not available" for the instruction is 1 (R68) -/
  | configNotAvailable
  /-- fewer than four bytes were given: only `decodeBytes` on a short list answers this; the machine never does (R50) -/
  | truncated
  deriving DecidableEq, Repr

end Sys2Proof
end

