-- ==== Sys2Proof/Machine/RegisterSet.lean ====
section
/-!
DEFINITION. What the operands of a multiple transfer and of a single load name: the register set (30_encoding.md R60, 43_load.md
R133) and the collision of a load with its written-back base (R132).
-/

namespace Sys2Proof

/-- A load whose data register is its written-back base (43_load.md R132). -/
def Single.collides (a : Single) : Bool := a.wb && a.data == a.base

/-- The register that bit `i` of the list stands for: `r<i + 8H>` (30_encoding.md R60). -/
def Multi.regAt (m : Multi) (i : Nat) : Reg := Fin.ofNat 16 (if m.high then i + 8 else i)

/-- The registers of the list in ascending number (43_load.md R133). -/
def Multi.regs (m : Multi) : List Reg :=
  ((List.range 8).filter fun i => m.list.getLsbD i).map m.regAt

/-- The base register is in the register set (43_load.md R133). -/
def Multi.baseInList (m : Multi) : Bool := m.regs.contains m.base

/-- `loadm`/`storm` operands with a meaning: DES2 repeats SRC1, and W=1 only with the base outside the list (R133). -/
def Multi.wellFormed (m : Multi) : Bool := m.des2 == m.base && !(m.wb && m.baseInList)

end Sys2Proof
end

