-- ==== Sys2Proof/WellFormed.lean ====
section
/-!
DEFINITION. Which instructions have operands the spec gives a meaning to. Every term of `Instr` has an encoding; an ill-formed one
is a combination the spec refuses when it executes: LmulSameDest (41_arithmetic.md R111), LoadBaseCollision (43_load.md R132),
MultiDes2 and MultiBaseInList (R133), PopSP (R138).
-/

namespace Sys2Proof

/-- The instruction's operands are a combination the spec gives a meaning to. -/
def Instr.wellFormed : Instr → Bool
  | .and _ _ _ _ _ _ | .or _ _ _ _ _ _ | .xor _ _ _ _ _ _ | .nand _ _ _ _ _ _ | .not _ _ _ _ _ => true
  | .nor _ _ _ _ _ _ | .xnor _ _ _ _ _ _ | .cntlz _ _ _ _ _ | .cntlo _ _ _ _ _ | .popcnt _ _ _ _ _ => true
  | .add _ _ _ _ _ _ _ | .sub _ _ _ _ _ _ _ | .addc _ _ _ _ _ _ _ | .subc _ _ _ _ _ _ _ => true
  | .neg _ _ _ _ _ _ | .comp _ _ _ _ _ | .mult _ _ _ _ _ _ | .div _ _ _ _ _ _ | .rem _ _ _ _ _ _ => true
  | .lmul _ _ _ _ des2 _ _ dest => des2 != dest
  | .rbra _ _ _ _ | .rcall _ _ _ _ | .ret _ => true
  | .load _ a | .loadb _ a | .loadh _ a | .loadbe _ a | .loadhe _ a => !a.collides
  | .loadm _ m | .storm _ m => m.wellFormed
  | .pop _ dest => dest != Machine.spReg
  | .popf _ => true
  | .stor _ _ | .storb _ _ | .storh _ _ | .push _ _ | .pushpc _ | .pushf _ => true
  | .stop _ | .wait _ | .switchm _ => true
  | .movimm _ _ _ | .movuimm _ _ _ | .andimm _ _ _ | .orimm _ _ _ => true
  | .xorimm _ _ _ | .addimm _ _ _ | .subimm _ _ _ | .compimm _ _ _ => true
  | .bra _ _ | .call _ _ => true

end Sys2Proof
end

