-- ==== Sys2Proof/Decode.lean ====
section
/-!
DEFINITION. The decoder of 30_encoding.md R54, total on any word, rejecting by name, and after it the encoder written from the same
formats (R51, R52). Field positions: R51; opcode numbers: R53; Config bits: R56; should-be-zero fields: R66; bits not available: R68.
-/

namespace Sys2Proof

/-! ### Fields of a word (R51) -/

/-- The 4-bit cell of `w` whose lowest bit is `lo`. -/
def nibble (w : Word) (lo : Nat) : BitVec 4 := w.extractLsb' lo 4

/-- Bit `i` of `w`. -/
def bitAt (w : Word) (i : Nat) : Bool := w.getLsbD i

/-- The register named by the 4-bit cell of `w` whose lowest bit is `lo` (R10). -/
def regField (w : Word) (lo : Nat) : Reg := (nibble w lo).toFin

def condField (w : Word) : BitVec 4 := nibble w 28
def groupField (w : Word) : BitVec 4 := nibble w 24
def opcodeField (w : Word) : BitVec 4 := nibble w 20
def des2Field (w : Word) : Reg := regField w 16
def src1Field (w : Word) : Reg := regField w 8
def src2Field (w : Word) : Reg := regField w 4
def destField (w : Word) : Reg := regField w 0
/-- The don't-care Config bits 15-13 of groups 0h and 2h (R67). -/
def x3Field (w : Word) : BitVec 3 := w.extractLsb' 13 3
/-- `imm8`, and the register list of `loadm`/`storm` (R59, R60). -/
def imm8Field (w : Word) : BitVec 8 := w.extractLsb' 0 8
/-- `imm16` (R58). -/
def imm16Field (w : Word) : BitVec 16 := w.extractLsb' 0 16
/-- `off24` (R61). -/
def off24Field (w : Word) : BitVec 24 := w.extractLsb' 0 24

/-- The condition code of a 4-bit field (R62). -/
def Cond.ofBits (b : BitVec 4) : Cond :=
  match b.toNat with
  | 0 => .al | 1 => .eq | 2 => .ne | 3 => .hs | 4 => .lo | 5 => .mi | 6 => .pl | 7 => .vs
  | 8 => .vc | 9 => .hi | 10 => .ls | 11 => .ge | 12 => .lt | 13 => .gt | 14 => .le | _ => .allSet

/-- The 4-bit code of a condition (R62). -/
def Cond.bits : Cond → BitVec 4
  | .al => 0 | .eq => 1 | .ne => 2 | .hs => 3 | .lo => 4 | .mi => 5 | .pl => 6 | .vs => 7
  | .vc => 8 | .hi => 9 | .ls => 10 | .ge => 11 | .lt => 12 | .gt => 13 | .le => 14 | .allSet => 15

/-- The condition code of a word. -/
def condOf (w : Word) : Cond := Cond.ofBits (condField w)

/-! ### Decoding -/

/-- R54 step 3: a should-be-zero field that is not zero, then a Config bit not available that is 1, refuse the word (the order of
the two is a DESIGN CHOICE, log entry 12). -/
def legal (sbzClear configClear : Bool) (i : Instr) : Except Reject Instr :=
  if !sbzClear then .error .sbz else if !configClear then .error .configNotAvailable else .ok i

/-- Group 0h (40_logical.md; default format). -/
def decodeLogical (w : Word) : Except Reject Instr :=
  let c := condOf w
  let x := x3Field w
  let f := bitAt w 12
  let a := src1Field w
  let b := src2Field w
  let d := destField w
  let sbz3 := nibble w 16 == 0
  let sbz2 := nibble w 16 == 0 && nibble w 4 == 0
  match (opcodeField w).toNat with
  | 0 => legal sbz3 true (.and c x f a b d)
  | 1 => legal sbz3 true (.or c x f a b d)
  | 2 => legal sbz3 true (.xor c x f a b d)
  | 3 => legal sbz3 true (.nand c x f a b d)
  | 4 => legal sbz2 true (.not c x f a d)
  | 5 => legal sbz3 true (.nor c x f a b d)
  | 6 => legal sbz3 true (.xnor c x f a b d)
  | 7 => legal sbz2 true (.cntlz c x f a d)
  | 8 => legal sbz2 true (.cntlo c x f a d)
  | 9 => legal sbz2 true (.popcnt c x f a d)
  | _ => .error .illegal

/-- Group 1h (41_arithmetic.md; default format, `lmul` the long multiplication format). -/
def decodeArithmetic (w : Word) : Except Reject Instr :=
  let c := condOf w
  let x := bitAt w 15
  let sg := bitAt w 14
  let o := bitAt w 13
  let f := bitAt w 12
  let a := src1Field w
  let b := src2Field w
  let d := destField w
  let sbz := nibble w 16 == 0
  match (opcodeField w).toNat with
  | 0 => legal sbz (!sg) (.add c x o f a b d)
  | 1 => legal sbz (!sg) (.sub c x o f a b d)
  | 2 => legal sbz (!sg) (.addc c x o f a b d)
  | 3 => legal sbz (!sg) (.subc c x o f a b d)
  | 4 => legal (sbz && nibble w 4 == 0) (!sg) (.neg c x o f a d)
  | 5 => legal (sbz && nibble w 0 == 0) (!sg && !f) (.comp c x o a b)
  | 6 => legal sbz (!sg && !o) (.mult c x f a b d)
  | 7 => legal sbz (!sg && !o) (.div c x f a b d)
  | 8 => legal sbz (!sg && !o) (.rem c x f a b d)
  | 9 => legal true (!o) (.lmul c x sg f (des2Field w) a b d)
  | _ => .error .illegal

/-- `RET_OPCODE`: the opcode of `ret` in group 2h (00_scope.md R3; 90_conflicts.md C2). -/
def retOpcode : Nat := 2

/-- The offset register of `rbra` and `rcall`: SRC2 when the Config bit O (bit 12) is 1 (R56, 42_control_flow.md R120). -/
def cfOffset (w : Word) : Option Reg := if bitAt w 12 then some (src2Field w) else none

/-- Group 2h (42_control_flow.md; register branch/call and return from subroutine formats). -/
def decodeControl (w : Word) : Except Reject Instr :=
  let c := condOf w
  let sbz := nibble w 16 == 0 && nibble w 0 == 0 && (bitAt w 12 || nibble w 4 == 0)
  let n := (opcodeField w).toNat
  if n = 0 then legal sbz true (.rbra c (x3Field w) (src1Field w) (cfOffset w))
  else if n = 1 then legal sbz true (.rcall c (x3Field w) (src1Field w) (cfOffset w))
  else if n = retOpcode then
    legal (nibble w 16 == 0 && x3Field w == 0 && w.extractLsb' 0 12 == 0) (!bitAt w 12) (.ret c)
  else .error .illegal

/-- The operands of a single load or store (43_load.md R130, 30_encoding.md R59). -/
def singleField (w : Word) : Single :=
  let i := bitAt w 15
  { base := src1Field w
    data := if i then des2Field w else destField w
    offset := if i then .imm (imm8Field w) else .reg (src2Field w)
    up := bitAt w 14
    pre := bitAt w 13
    wb := bitAt w 12 }

/-- Bits 19-16 should be zero in a single load or store with I=0 (R66). -/
def singleSbz (w : Word) : Bool := bitAt w 15 || nibble w 16 == 0

/-- The operands of `loadm` and `storm` (43_load.md R133, 30_encoding.md R60). -/
def multiField (w : Word) : Multi :=
  { base := src1Field w
    des2 := des2Field w
    list := imm8Field w
    high := bitAt w 15
    up := bitAt w 14
    pre := bitAt w 13
    wb := bitAt w 12 }

/-- Bits 19-16 and 11-4 of the stack forms are zero (R66). -/
def stackSbz (w : Word) : Bool := nibble w 16 == 0 && w.extractLsb' 4 8 == 0

/-- Bits 15-12 of the stack forms are "not available" (R68). -/
def stackConfig (w : Word) : Bool := nibble w 12 == 0

/-- Group 3h (43_load.md). -/
def decodeLoad (w : Word) : Except Reject Instr :=
  let c := condOf w
  match (opcodeField w).toNat with
  | 0 => legal (singleSbz w) true (.load c (singleField w))
  | 1 => legal true true (.loadm c (multiField w))
  | 2 => legal (singleSbz w) true (.loadb c (singleField w))
  | 3 => legal (singleSbz w) true (.loadh c (singleField w))
  | 4 => legal (stackSbz w) (stackConfig w) (.pop c (destField w))
  | 5 => legal (singleSbz w) true (.loadbe c (singleField w))
  | 6 => legal (stackSbz w && nibble w 0 == 0) (stackConfig w) (.popf c)
  | 7 => legal (singleSbz w) true (.loadhe c (singleField w))
  | _ => .error .illegal

/-- Group 4h (44_store.md). -/
def decodeStore (w : Word) : Except Reject Instr :=
  let c := condOf w
  match (opcodeField w).toNat with
  | 0 => legal (singleSbz w) true (.stor c (singleField w))
  | 1 => legal true true (.storm c (multiField w))
  | 2 => legal (singleSbz w) true (.storb c (singleField w))
  | 3 => legal (singleSbz w) true (.storh c (singleField w))
  | 4 => legal (stackSbz w) (stackConfig w) (.push c (destField w))
  | 5 => legal (stackSbz w && nibble w 0 == 0) (stackConfig w) (.pushpc c)
  | 6 => legal (stackSbz w && nibble w 0 == 0) (stackConfig w) (.pushf c)
  | _ => .error .illegal

/-- Group 6h (45_cpu_control.md): bits 19-0 should be zero. -/
def decodeCpuControl (w : Word) : Except Reject Instr :=
  let c := condOf w
  let sbz := w.extractLsb' 0 20 == 0
  match (opcodeField w).toNat with
  | 0 => legal sbz true (.stop c)
  | 1 => legal sbz true (.wait c)
  | 2 => legal sbz true (.switchm c)
  | _ => .error .illegal

/-- Group 7h (46_immediate.md): DES2 and imm16, no should-be-zero field. -/
def decodeImmediate (w : Word) : Except Reject Instr :=
  let c := condOf w
  let d := des2Field w
  let n := imm16Field w
  match (opcodeField w).toNat with
  | 0 => .ok (.movimm c d n)
  | 1 => .ok (.movuimm c d n)
  | 2 => .ok (.andimm c d n)
  | 3 => .ok (.orimm c d n)
  | 4 => .ok (.xorimm c d n)
  | 5 => .ok (.addimm c d n)
  | 6 => .ok (.subimm c d n)
  | 7 => .ok (.compimm c d n)
  | _ => .error .illegal

/-- Decoding of a word (R54 steps 1 to 3): the group selects the format (R53); groups 5h and Ah-Fh are illegal (R65). -/
def decodeWord (w : Word) : Except Reject Instr :=
  match (groupField w).toNat with
  | 0 => decodeLogical w
  | 1 => decodeArithmetic w
  | 2 => decodeControl w
  | 3 => decodeLoad w
  | 4 => decodeStore w
  | 6 => decodeCpuControl w
  | 7 => decodeImmediate w
  | 8 => .ok (.bra (condOf w) (off24Field w))
  | 9 => .ok (.call (condOf w) (off24Field w))
  | _ => .error .illegal

/-! ### Bytes of a word (20_memory.md R33) -/

/-- The value of some bytes, the first the least significant (R33). -/
def littleValue : List Byte → Word
  | [] => 0#32
  | b :: bs => b.zeroExtend 32 ||| (littleValue bs <<< 8)

/-- The `n` low bytes of a word, the least significant first (R33). -/
def littleBytes : Nat → Word → List Byte
  | 0, _ => []
  | n + 1, v => v.truncate 8 :: littleBytes n (v >>> 8)

/-- The value of the bytes of one access, the lowest address first, in the machine's byte order (R33, `BIG_ENDIAN`). -/
def bytesValue (bs : List Byte) : Word := littleValue (if Machine.bigEndian then bs.reverse else bs)

/-- The bytes of one access of `n` bytes, the lowest address first, in the machine's byte order (R33, `BIG_ENDIAN`). -/
def valueBytes (n : Nat) (v : Word) : List Byte :=
  if Machine.bigEndian then (littleBytes n v).reverse else littleBytes n v

/-- Decoding from a list of bytes, the lowest address first: one word of four bytes and the rest (R50, R33). -/
def decodeBytes : List Byte → Except Reject (Instr × List Byte)
  | b0 :: b1 :: b2 :: b3 :: rest => (decodeWord (bytesValue [b0, b1, b2, b3])).map fun i => (i, rest)
  | _ => .error .truncated

/-- The instruction the decoder reads from a row's word, numbered as spec/opcode_table.json numbers its bits. -/
def decodeTableWord (nbits w : Nat) : Option Instr :=
  match decodeBytes (valueBytes 4 (BitVec.ofNat 32 (w % 2 ^ nbits))) with
  | .ok (i, _) => some i
  | .error _ => none

/-! ### Encoding -/

/-- The 4-bit cell of a register number. -/
def Reg.bits (r : Reg) : BitVec 4 := BitVec.ofFin r

/-- A Config cell, most significant bit first (R56). -/
def config (b3 b2 b1 b0 : Bool) : BitVec 4 := BitVec.ofBool b3 ++ BitVec.ofBool b2 ++ BitVec.ofBool b1 ++ BitVec.ofBool b0

/-- A Config cell of three don't-care bits and one bit (groups 0h and 2h, R56). -/
def configX (x : BitVec 3) (b : Bool) : BitVec 4 := x ++ BitVec.ofBool b

/-- The default format (R52), cells from bit 31 down. -/
def asmDefault (c : Cond) (group opcode des2 cfg src1 src2 dest : BitVec 4) : Word :=
  c.bits ++ group ++ opcode ++ des2 ++ cfg ++ src1 ++ src2 ++ dest

/-- The immediate group format (R52). -/
def asmImm (c : Cond) (opcode : BitVec 4) (des2 : Reg) (imm : BitVec 16) : Word :=
  c.bits ++ 7#4 ++ opcode ++ des2.bits ++ imm

/-- The branch/call format (R52). -/
def asmBranch (c : Cond) (group : BitVec 4) (off : BitVec 24) : Word := c.bits ++ group ++ off

/-- A single load or store: register offset in the default format, immediate offset with DES2 and imm8 (R59, 90_conflicts.md C3). -/
def asmSingle (c : Cond) (group opcode : BitVec 4) (a : Single) : Word :=
  match a.offset with
  | .reg r => asmDefault c group opcode 0 (config false a.up a.pre a.wb) a.base.bits r.bits a.data.bits
  | .imm v => asmDefault c group opcode a.data.bits (config true a.up a.pre a.wb) a.base.bits (v.extractLsb' 4 4) (v.extractLsb' 0 4)

/-- `loadm` and `storm`: DES2 and the register list (R60). -/
def asmMulti (c : Cond) (group : BitVec 4) (m : Multi) : Word :=
  asmDefault c group 1 m.des2.bits (config m.high m.up m.pre m.wb) m.base.bits (m.list.extractLsb' 4 4) (m.list.extractLsb' 0 4)

/-- `rbra` and `rcall`: the Config bit O and the SRC2 cell (R56, R120). -/
def asmRegBranch (c : Cond) (opcode : BitVec 4) (x : BitVec 3) (src1 : Reg) (off : Option Reg) : Word :=
  match off with
  | none => asmDefault c 2 opcode 0 (configX x false) src1.bits 0 0
  | some r => asmDefault c 2 opcode 0 (configX x true) src1.bits r.bits 0

/-- The word of an instruction (30_encoding.md R51 to R61). -/
def encode : Instr → Word
  | .and c x f a b d => asmDefault c 0 0 0 (configX x f) a.bits b.bits d.bits
  | .or c x f a b d => asmDefault c 0 1 0 (configX x f) a.bits b.bits d.bits
  | .xor c x f a b d => asmDefault c 0 2 0 (configX x f) a.bits b.bits d.bits
  | .nand c x f a b d => asmDefault c 0 3 0 (configX x f) a.bits b.bits d.bits
  | .not c x f a d => asmDefault c 0 4 0 (configX x f) a.bits 0 d.bits
  | .nor c x f a b d => asmDefault c 0 5 0 (configX x f) a.bits b.bits d.bits
  | .xnor c x f a b d => asmDefault c 0 6 0 (configX x f) a.bits b.bits d.bits
  | .cntlz c x f a d => asmDefault c 0 7 0 (configX x f) a.bits 0 d.bits
  | .cntlo c x f a d => asmDefault c 0 8 0 (configX x f) a.bits 0 d.bits
  | .popcnt c x f a d => asmDefault c 0 9 0 (configX x f) a.bits 0 d.bits
  | .add c x o f a b d => asmDefault c 1 0 0 (config x false o f) a.bits b.bits d.bits
  | .sub c x o f a b d => asmDefault c 1 1 0 (config x false o f) a.bits b.bits d.bits
  | .addc c x o f a b d => asmDefault c 1 2 0 (config x false o f) a.bits b.bits d.bits
  | .subc c x o f a b d => asmDefault c 1 3 0 (config x false o f) a.bits b.bits d.bits
  | .neg c x o f a d => asmDefault c 1 4 0 (config x false o f) a.bits 0 d.bits
  | .comp c x o a b => asmDefault c 1 5 0 (config x false o false) a.bits b.bits 0
  | .mult c x f a b d => asmDefault c 1 6 0 (config x false false f) a.bits b.bits d.bits
  | .div c x f a b d => asmDefault c 1 7 0 (config x false false f) a.bits b.bits d.bits
  | .rem c x f a b d => asmDefault c 1 8 0 (config x false false f) a.bits b.bits d.bits
  | .lmul c x sg f h a b d => asmDefault c 1 9 h.bits (config x sg false f) a.bits b.bits d.bits
  | .rbra c x a off => asmRegBranch c 0 x a off
  | .rcall c x a off => asmRegBranch c 1 x a off
  | .ret c => asmDefault c 2 (BitVec.ofNat 4 retOpcode) 0 0 0 0 0
  | .load c a => asmSingle c 3 0 a
  | .loadm c m => asmMulti c 3 m
  | .loadb c a => asmSingle c 3 2 a
  | .loadh c a => asmSingle c 3 3 a
  | .pop c d => asmDefault c 3 4 0 0 0 0 d.bits
  | .loadbe c a => asmSingle c 3 5 a
  | .popf c => asmDefault c 3 6 0 0 0 0 0
  | .loadhe c a => asmSingle c 3 7 a
  | .stor c a => asmSingle c 4 0 a
  | .storm c m => asmMulti c 4 m
  | .storb c a => asmSingle c 4 2 a
  | .storh c a => asmSingle c 4 3 a
  | .push c d => asmDefault c 4 4 0 0 0 0 d.bits
  | .pushpc c => asmDefault c 4 5 0 0 0 0 0
  | .pushf c => asmDefault c 4 6 0 0 0 0 0
  | .stop c => asmDefault c 6 0 0 0 0 0 0
  | .wait c => asmDefault c 6 1 0 0 0 0 0
  | .switchm c => asmDefault c 6 2 0 0 0 0 0
  | .movimm c d n => asmImm c 0 d n
  | .movuimm c d n => asmImm c 1 d n
  | .andimm c d n => asmImm c 2 d n
  | .orimm c d n => asmImm c 3 d n
  | .xorimm c d n => asmImm c 4 d n
  | .addimm c d n => asmImm c 5 d n
  | .subimm c d n => asmImm c 6 d n
  | .compimm c d n => asmImm c 7 d n
  | .bra c v => asmBranch c 8 v
  | .call c v => asmBranch c 9 v

end Sys2Proof
end

