-- ==== Sys2Proof/Config.lean ====
section
/-!
DEFINITION. What the platform fixes once for a machine (00_scope.md R3, the OPEN parameters). `Mapped` is held in State as plain
data (field `unmapped`); `TRAP_ENTRY` and `INTERRUPT_ENTRY` are the terminal outcomes of 60_exceptions.md R211 and R221.
-/

namespace Sys2Proof

/-- `RESET_PC`, the pc after reset (R22, R240): open, a multiple of 4. DESIGN CHOICE 0, the value the spec's test vectors
use (log entry 3); unsafe for a claim about a run from reset. -/
def Config.resetPc : Word := 0#32

/-- `IrqPending`, the interrupt input (10_state.md R20; 60_exceptions.md R220): a free value. `irqPending k` is what the `k`-th
sample of the input by a waiting CPU reads. Nothing constrains it (log entry 6). -/
opaque Config.irqPending : Nat → Bool

end Sys2Proof
end

