-- ==== Sys2Proof/Machine/State.lean ====
section
/-!
DEFINITION. The state of the one agent, the CPU, and of the memory it addresses (10_state.md), as plain data; the reasons a step can
stop (60_exceptions.md R210, R211, R221; 00_scope.md section 5.3); and the state after reset (R22, R240).
-/

namespace Sys2Proof.Machine

/-- The four flags (10_state.md R15). The Flags Register "holds nothing but the four flags" (R17). -/
structure Flags where
  z : Bool
  n : Bool
  v : Bool
  c : Bool
  deriving DecidableEq, Repr

/-- The two modes (10_state.md R18). -/
inductive Mode where
  | supervisor
  | user
  deriving DecidableEq, Repr

/-- The three run states (10_state.md R19). -/
inductive RunState where
  | running
  | waiting
  | stopped
  deriving DecidableEq, Repr

/-- The kind of an access, as `Mapped` sees it (20_memory.md R39). -/
inductive AccessKind where
  | fetch
  | read
  | write
  deriving DecidableEq, Repr

/-- The size of an access (20_memory.md R31, R32). -/
inductive Size where
  | byte
  | half
  | word
  deriving DecidableEq, Repr

/-- Some accesses the platform does not accept: those of the given size, kind and mode (`none` meaning any) that touch a byte at an
address from `first` to `last`. A list of these writes out any `Mapped(addr, n, kind)` of 20_memory.md R39, which may depend on the
mode (R40). -/
structure Region where
  first : Nat
  last  : Nat
  size  : Option Size
  kind  : Option AccessKind
  mode  : Option Mode
  deriving DecidableEq, Repr

/-- Memory: the bytes that have a value, addresses strictly rising and below 2^32 (20_memory.md R30). An address not listed has no
value: nothing was loaded there and nothing has written it (10_state.md R22, 70_reset_and_hazards.md R241). -/
abbrev Memory := List Host.Cell

/-- The state of the machine (10_state.md). -/
structure State where
  /-- r0 to r15 (R10, R11, R12) -/
  x : Vector Word 16
  /-- the program counter (R13) -/
  pc : Word
  /-- Z, N, V, C (R15) -/
  flags : Flags
  /-- the mode (R18) -/
  mode : Mode
  /-- the run state (R19) -/
  run : RunState
  /-- memory (20_memory.md R30) -/
  mem : Memory
  /-- the platform's `Mapped` (20_memory.md R39), the accesses NOT accepted; no step changes it (log entry 5) -/
  unmapped : List Region
  /-- how many times a waiting CPU has sampled the interrupt input: the model's own counter for the free value
  `Config.irqPending` (log entry 6) -/
  irqPolls : Nat
  deriving DecidableEq, Repr

/-- The synchronous exceptions and what each records (60_exceptions.md R210). -/
inductive Exception where
  /-- O=1 and the signed result overflows (R101, R212): records the instruction word -/
  | overflow (w : Word)
  /-- a group or an opcode that selects no instruction (R64, R65): records the instruction word -/
  | illegalInstruction (w : Word)
  /-- `stop`, `wait`, `switchm` in User mode (R170): records the instruction word -/
  | privilegeViolation (w : Word)
  /-- `div`, `rem` by 0 (R109, R110): records the instruction word -/
  | divideByZero (w : Word)
  /-- an address that is no multiple of the access size (R35): records the address -/
  | addressMisaligned (a : Word)
  /-- a target of `rbra`, `rcall`, `ret` that is no multiple of 4 (R120): records the target -/
  | instructionAddressMisaligned (t : Word)
  /-- an access the platform does not accept (R38): records the address and the kind -/
  | accessFault (a : Word) (k : AccessKind)
  deriving DecidableEq, Repr

/-- The ends of a run that the machine itself reports (70_reset_and_hazards.md R246). -/
inductive Fault where
  /-- `Trapped(exception, info, state)`: an instruction or a fetch raised `e` in the state `s` before it (60_exceptions.md R211,
  R213). Raised by `State.raise` only. Safe: where control goes next is the open TRAP_ENTRY, and the model goes nowhere. -/
  | trapped (e : Exception) (s : State)
  /-- `Interrupted(state)`: the interrupt input was asserted while waiting, and the CPU runs again in `s`, its interrupt about to be
  taken by the open INTERRUPT_ENTRY (R221). Raised by `State.pollInterrupt` only. Safe. -/
  | interrupted (s : State)
  deriving DecidableEq, Repr

/-- The cases this spec declines to define (`refuse(reason)`, 00_scope.md section 5.3). The state of R246's `Refused(reason, state)` is
the step's own argument. -/
inductive Refusal where
  /-- the arm of `exec` has no meaning for this instruction yet; safe -/
  | notModelled (mnemonic : String)
  /-- the fetched word has a should-be-zero field that is not zero (R66): raised by the step; safe -/
  | sbz (w : Word)
  /-- the fetched word has a Config bit that is not available (R68): raised by the step; safe -/
  | configNotAvailable (w : Word)
  /-- `lmul` with DES2 = DEST (R111); safe -/
  | lmulSameDest
  /-- a single load with W=1 whose data register is its base (R132); safe -/
  | loadBaseCollision
  /-- `pop` of the stack pointer (R138); safe -/
  | popSP
  /-- `loadm`, `storm` whose DES2 differs from SRC1 (R133); safe -/
  | multiDes2
  /-- `loadm`, `storm` with W=1 and the base register in the list (R133); safe -/
  | multiBaseInList
  /-- a fetch or a load of the byte at `a`, which nothing has written (R241): raised by `State.readMem`; safe -/
  | unwrittenRead (a : Word)
  deriving DecidableEq, Repr

/-- Why an instruction does not complete: it raises an exception, or the spec refuses it (00_scope.md section 5.3). -/
inductive Stop where
  | raise (e : Exception)
  | refuse (r : Refusal)
  deriving DecidableEq, Repr

/-- The machine after reset on a platform that has loaded `mem` and does not accept the accesses of `unmapped` (R22, R240). The
registers and the flags are unspecified there: DESIGN CHOICE all zero (log entries 1 and 2), unsafe. -/
def State.resetOn (mem : Memory) (unmapped : List Region) : State :=
  { x := Vector.replicate 16 0#32
    pc := Config.resetPc
    flags := { z := false, n := false, v := false, c := false }
    mode := .supervisor
    run := .running
    mem := mem
    unmapped := unmapped
    irqPolls := 0 }

/-- The machine after reset, nothing loaded and every access accepted (R22, R240; log entries 3, 4, 5). -/
def State.reset : State := State.resetOn [] []

/-- The outcome of a step or of an instruction. -/
abbrev Outcome := Host.Outcome State Fault Refusal

end Sys2Proof.Machine
end

