-- ==== Sys2Proof/Machine/Flags.lean ====
section
/-!
DEFINITION. Every flag computation of the spec: the condition codes (30_encoding.md R62), the flags of a logical result (40_logical.md
R80), of a sum (41_arithmetic.md R100), of a 64-bit product (R111), and the memory image of the flags register (10_state.md R17).
-/

namespace Sys2Proof.Machine

/-- `CondHolds` (R62). -/
def Flags.condHolds (fl : Flags) : Cond → Bool
  | .al => true
  | .eq => fl.z
  | .ne => !fl.z
  | .hs => fl.c
  | .lo => !fl.c
  | .mi => fl.n
  | .pl => !fl.n
  | .vs => fl.v
  | .vc => !fl.v
  | .hi => fl.c && !fl.z
  | .ls => !fl.c || fl.z
  | .ge => fl.n == fl.v
  | .lt => fl.n != fl.v
  | .gt => !fl.z && fl.n == fl.v
  | .le => fl.z || fl.n != fl.v
  | .allSet => fl.z && fl.n && fl.v && fl.c

/-- Z and N of a 32-bit result, V and C unchanged (R80, R108, R109, R110). -/
def Flags.withZN (fl : Flags) (r : Word) : Flags := { fl with z := r == 0#32, n := r.msb }

/-- Z and N of the 64-bit product of `lmul`, V and C unchanged (R111). -/
def Flags.withZN64 (fl : Flags) (p : BitVec 64) : Flags := { fl with z := p == 0#64, n := p.msb }

/-- `AddWithCarry` (R100): the 32-bit result and the four flags, through the exact unsigned and signed sums. -/
def addWithCarry (a b : Word) (cin : Bool) : Word × Flags :=
  let usum : Nat := a.toNat + b.toNat + cin.toNat
  let ssum : Int := a.toInt + b.toInt + (cin.toNat : Int)
  let r : Word := BitVec.ofNat 32 usum
  (r, { z := r == 0#32, n := r.msb, v := decide (ssum ≠ r.toInt), c := decide (2 ^ 32 ≤ usum) })

/-- The bit at position `k` of a word, all others zero. -/
def bitWord (b : Bool) (k : Nat) : Word := if b then 1#32 <<< k else 0#32

/-- `FlagsWord`, what `pushf` pushes (R17, R158). -/
def Flags.toWord (fl : Flags) : Word :=
  bitWord fl.z flagPosZ ||| bitWord fl.n flagPosN ||| bitWord fl.v flagPosV ||| bitWord fl.c flagPosC

/-- What `popf` reads from a word: four bits, the rest ignored (R17, R140). -/
def Flags.ofWord (w : Word) : Flags :=
  { z := bitAt w flagPosZ, n := bitAt w flagPosN, v := bitAt w flagPosV, c := bitAt w flagPosC }

end Sys2Proof.Machine
end

