-- ==== Sys2Proof/Machine/Ops.lean ====
section
/-!
DEFINITION. The named operations the meanings are written over: one byte of memory, an access with its checks (20_memory.md), the
registers (10_state.md), the stack (R131, R151), taking an exception (60_exceptions.md R210 to R213), running under a condition
(30_encoding.md R63), the fetch (R36) and the waiting state (R221).
-/

namespace Sys2Proof.Machine

/-! ### One byte of memory -/

/-- The byte at an address, if it has a value (R41). -/
def Memory.read (m : Memory) (a : Nat) : Option Byte :=
  match m with
  | [] => none
  | (k, b) :: rest => if k = a then some b else if a < k then none else Memory.read rest a

/-- Storing a byte, the addresses kept strictly rising (R41). -/
def Memory.write (m : Memory) (a : Nat) (b : Byte) : Memory :=
  match m with
  | [] => [(a, b)]
  | (k, c) :: rest =>
    if a < k then (a, b) :: (k, c) :: rest
    else if a = k then (a, b) :: rest
    else (k, c) :: Memory.write rest a b

/-- The addresses of a list of cells rise strictly from above `low`, and stay in the address space. -/
def Memory.risingFrom (low : Nat) : Memory → Bool
  | [] => true
  | (k, _) :: rest => decide (low ≤ k) && decide (k < 2 ^ 32) && Memory.risingFrom (k + 1) rest

/-- The canonical form: addresses strictly rising and below 2^32 (R30). No byte is listed for an address without a value. -/
def Memory.wf (m : Memory) : Bool := Memory.risingFrom 0 m

/-- The addresses of `n` bytes from `a`, modulo 2^32 (R46). -/
def byteAddrs (a : Word) : Nat → List Word
  | 0 => []
  | n + 1 => a :: byteAddrs (a + 1#32) n

/-- Reading the bytes at some addresses; the first without a value refuses (R241). -/
def Memory.readAll (m : Memory) : List Word → Except Stop (List Byte)
  | [] => .ok []
  | a :: rest =>
    match m.read a.toNat with
    | none => .error (.refuse (.unwrittenRead a))
    | some b => (Memory.readAll m rest).map (b :: ·)

/-- Storing bytes from address `a` up, modulo 2^32 (R33, R46). -/
def Memory.writeAll (m : Memory) (a : Word) : List Byte → Memory
  | [] => m
  | b :: rest => Memory.writeAll (m.write a.toNat b) (a + 1#32) rest

/-! ### An access and its checks -/

/-- How many bytes an access moves (R31). -/
def Size.bytes : Size → Nat
  | .byte => 1
  | .half => 2
  | .word => 4

/-- The region refuses an access of this size and kind at `a` in this mode. -/
def Region.denies (r : Region) (a : Word) (n : Size) (k : AccessKind) (md : Mode) : Bool :=
  decide (a.toNat ≤ r.last) && decide (r.first < a.toNat + n.bytes) &&
    (r.size == none || r.size == some n) && (r.kind == none || r.kind == some k) && (r.mode == none || r.mode == some md)

/-- `Mapped(addr, n, kind)`: the platform accepts the access (R38, R39, R40). -/
def State.mapped (s : State) (k : AccessKind) (a : Word) (n : Size) : Bool :=
  !s.unmapped.any fun r => r.denies a n k s.mode

/-- An address is a multiple of the access size (R35). -/
def Size.aligned (n : Size) (a : Word) : Bool := a.toNat % n.bytes == 0

/-- The checks of one access, in the order of 60_exceptions.md R214: alignment (R35), then the platform (R38). -/
def State.checkAccess (s : State) (k : AccessKind) (a : Word) (n : Size) : Except Stop Unit :=
  if !n.aligned a then .error (.raise (.addressMisaligned a))
  else if !s.mapped k a n then .error (.raise (.accessFault a k))
  else .ok ()

/-- `MemRead(addr, n)`, its value zero-extended to a word (00_scope.md section 5.3; R33, R35, R38, R241). -/
def State.readMem (s : State) (k : AccessKind) (a : Word) (n : Size) : Except Stop Word :=
  match s.checkAccess k a n with
  | .error e => .error e
  | .ok () => (s.mem.readAll (byteAddrs a n.bytes)).map bytesValue

/-- The bytes of `v` stored at `a`, with no check (R33). -/
def State.storeBytes (s : State) (a : Word) (n : Size) (v : Word) : State :=
  { s with mem := s.mem.writeAll a (valueBytes n.bytes v) }

/-- `MemWrite(addr, n, v)` (00_scope.md section 5.3; R33, R35, R38). -/
def State.writeMem (s : State) (a : Word) (n : Size) (v : Word) : Except Stop State :=
  match s.checkAccess .write a n with
  | .error e => .error e
  | .ok () => .ok (s.storeBytes a n v)

/-! ### Registers, flags and the pc -/

/-- `x[r]` (R10). All sixteen are ordinary (R12). -/
def State.reg (s : State) (r : Reg) : Word := s.x[r.val]'r.isLt

/-- `x[r] <- v` (R10). -/
def State.setReg (s : State) (r : Reg) (v : Word) : State := { s with x := s.x.set r.val v r.isLt }

/-- Writing registers one after another. -/
def State.setRegs (s : State) : List (Reg × Word) → State
  | [] => s
  | (r, v) :: rest => (s.setReg r v).setRegs rest

/-- `pc <- t`. -/
def State.setPc (s : State) (t : Word) : State := { s with pc := t }

/-- `pc <- pc + 4` (R14). -/
def State.advance (s : State) : State := s.setPc (s.pc + 4#32)

/-- `flags <- fl`. -/
def State.setFlags (s : State) (fl : Flags) : State := { s with flags := fl }

/-- Flags written only when the bit F is 1 (R80, R101). -/
def State.setFlagsIf (s : State) (f : Bool) (fl : Flags) : State := if f then s.setFlags fl else s

/-- `CondHolds` of the state's flags (R62). -/
def State.condHolds (s : State) (c : Cond) : Bool := s.flags.condHolds c

/-! ### Exceptions and conditions -/

/-- TAKING AN EXCEPTION (60_exceptions.md R211, R213): the run ends as `Trapped` with the state before the instruction; nothing is
saved, no mode changes and control goes nowhere, since TRAP_ENTRY is open (log entry 8). There is no return from it (R224). -/
def State.raise (s : State) (e : Exception) : Outcome := .fault (.trapped e s)

/-- The outcome of an instruction that started in `s`: it completes, raises (R213: with `s` unchanged) or is refused. -/
def State.finish (s : State) : Except Stop State → Outcome
  | .ok t => .next t
  | .error (.raise e) => s.raise e
  | .error (.refuse r) => .refused r

/-- Execution under a condition (R63, R54 steps 4 and 5): when it does not hold the instruction only moves the pc on. -/
def State.perform (s : State) (c : Cond) (body : Except Stop State) : Outcome :=
  if s.condHolds c then s.finish body else .next s.advance

/-- What the machine does with a word the decoder rejects (R54 steps 2 and 3), whatever its condition field says. A step never
decodes fewer than four bytes, so `truncated` does not arise; it is answered as an illegal word. -/
def State.rejectWord (s : State) (w : Word) : Reject → Outcome
  | .illegal => s.raise (.illegalInstruction w)
  | .sbz => .refused (.sbz w)
  | .configNotAvailable => .refused (.configNotAvailable w)
  | .truncated => s.raise (.illegalInstruction w)

/-! ### The stack -/

/-- `Push(v)` (44_store.md R151). -/
def State.push (s : State) (v : Word) : Except Stop State :=
  let a := s.reg spReg - 4#32
  (s.writeMem a .word v).map fun t => t.setReg spReg a

/-- `Pop()` (43_load.md R131): the value, and the state with the stack pointer moved up. -/
def State.pop (s : State) : Except Stop (Word × State) :=
  let a := s.reg spReg
  (s.readMem .read a .word).map fun v => (v, s.setReg spReg (a + 4#32))

/-! ### The fetch and the waiting state -/

/-- The instruction word at the pc, `MemRead(pc, 4)` as a fetch (R33, R36; R214 step 1). -/
def State.fetch (s : State) : Except Stop Word := s.readMem .fetch s.pc .word

/-- A waiting CPU samples the interrupt input (R221): asserted, it runs again and the interrupt is taken (terminal, the open
INTERRUPT_ENTRY); not asserted, it goes on waiting with everything kept (R227). -/
def State.pollInterrupt (s : State) : Outcome :=
  let t := { s with irqPolls := s.irqPolls + 1 }
  if Config.irqPending s.irqPolls then .fault (.interrupted { t with run := .running }) else .next t

end Sys2Proof.Machine
end

