-- ==== Sys2Proof/Machine/Operands.lean ====
section
/-!
DEFINITION. Every operand form of the spec: the address of a single load or store (43_load.md R130), the block of a multiple transfer
(R133), the immediates (30_encoding.md R58, R61), the branch targets (42_control_flow.md R120, 47_branch_call.md R200), and the
result functions of the logical and arithmetic groups (40_logical.md R81-R90, 41_arithmetic.md R108-R111).
-/

namespace Sys2Proof.Machine

/-! ### Single loads and stores (R130) -/

/-- `off`: SRC2's value, or the zero-extended immediate, in bytes (R59, R130). -/
def offsetValue (s : State) : Offset → Word
  | .reg r => s.reg r
  | .imm v => v.zeroExtend 32

/-- `new = base ± off`, modulo 2^32 (R130). -/
def newBase (a : Single) (s : State) : Word :=
  if a.up then s.reg a.base + offsetValue s a.offset else s.reg a.base - offsetValue s a.offset

/-- The address accessed: `new` when P=1, the base when P=0 (R130). -/
def accessAddr (a : Single) (s : State) : Word := if a.pre then newBase a s else s.reg a.base

/-- `if W: x[SRC1] <- new`, `new` computed from the registers before the instruction. -/
def writeBack (wb : Bool) (base : Reg) (new : Word) (t : State) : State := if wb then t.setReg base new else t

/-! ### Multiple transfers (R133) -/

/-- `4n`, the size of the block in bytes. -/
def blockBytes (m : Multi) : Word := BitVec.ofNat 32 (4 * m.regs.length)

/-- `start`, the address of the lowest-numbered register (R133). -/
def blockStart (m : Multi) (s : State) : Word :=
  let base := s.reg m.base
  match m.up, m.pre with
  | true, false => base
  | true, true => base + 4#32
  | false, false => base - blockBytes m + 4#32
  | false, true => base - blockBytes m

/-- `new`, the base after the transfer when W=1 (R133). -/
def blockNew (m : Multi) (s : State) : Word :=
  if m.up then s.reg m.base + blockBytes m else s.reg m.base - blockBytes m

/-- The addresses of `n` words from `a` up, modulo 2^32 (R46). -/
def wordAddrs (a : Word) : Nat → List Word
  | 0 => []
  | n + 1 => a :: wordAddrs (a + 4#32) n

/-- The addresses of the block, one word per register of the list (R133). -/
def blockAddrs (m : Multi) (s : State) : List Word := wordAddrs (blockStart m s) m.regs.length

/-- All the checks of a block, made before its first access (R135, R153, R213): the alignment of `start` once, when any register is
moved (R35), then the platform's answer for each word in ascending order. -/
def checkPlatform (s : State) (k : AccessKind) : List Word → Except Stop Unit
  | [] => .ok ()
  | a :: rest => if s.mapped k a .word then checkPlatform s k rest else .error (.raise (.accessFault a k))

/-- The alignment check of a block, then the platform's. -/
def checkBlock (s : State) (k : AccessKind) : List Word → Except Stop Unit
  | [] => .ok ()
  | a :: rest => if Size.word.aligned a then checkPlatform s k (a :: rest) else .error (.raise (.addressMisaligned a))

/-- Reading the words of a block in ascending order (R135). -/
def readWords (s : State) : List Word → Except Stop (List Word)
  | [] => .ok []
  | a :: rest =>
    match s.mem.readAll (byteAddrs a Size.word.bytes) with
    | .error e => .error e
    | .ok bs => (readWords s rest).map (bytesValue bs :: ·)

/-- Storing words at the addresses of a block in ascending order (R153). -/
def storeWords (s : State) : List (Word × Word) → State
  | [] => s
  | (a, v) :: rest => storeWords (s.storeBytes a .word v) rest

/-- The refusals of a multiple transfer (R133), MultiDes2 first (log entry 12). -/
def checkMulti (m : Multi) : Except Stop Unit :=
  if m.des2 != m.base then .error (.refuse .multiDes2)
  else if m.wb && m.baseInList then .error (.refuse .multiBaseInList)
  else .ok ()

/-! ### Immediates and branch targets -/

/-- `zext_32(imm16)` (R58, R180). -/
def immValue (n : BitVec 16) : Word := n.zeroExtend 32

/-- `imm16 : 0x0000` (R58, R182). -/
def immUpper (n : BitVec 16) : Word := n ++ 0#16

/-- `sext_32(off24 : 0b00)` (R61). -/
def branchOffset (v : BitVec 24) : Word := (v ++ 0#2).signExtend 32

/-- The target of `bra` and `call` (R200). -/
def branchTarget (v : BitVec 24) (s : State) : Word := s.pc + pcBias + branchOffset v

/-- The target of `rbra` and `rcall` (R120). -/
def registerTarget (src1 : Reg) (off : Option Reg) (s : State) : Word :=
  match off with
  | none => s.reg src1
  | some r => s.reg src1 + s.reg r

/-- An instruction address is a multiple of 4, else `InstructionAddressMisaligned` (R120). -/
def checkTarget (t : Word) : Except Stop Unit :=
  if t.toNat % 4 = 0 then .ok () else .error (.raise (.instructionAddressMisaligned t))

/-! ### Results of the logical and arithmetic groups -/

/-- How many of the bits `n-1`, `n-2`, … of `v`, counted downward, equal `b` before the first that does not. -/
def leadingRun (b : Bool) (v : Word) : Nat → Nat
  | 0 => 0
  | n + 1 => if v.getLsbD n == b then leadingRun b v n + 1 else 0

/-- `cntlz` (R88). -/
def countLeadingZeros (v : Word) : Word := BitVec.ofNat 32 (leadingRun false v 32)

/-- `cntlo` (R89). -/
def countLeadingOnes (v : Word) : Word := BitVec.ofNat 32 (leadingRun true v 32)

/-- How many of the bits below `n` of `v` are 1. -/
def onesBelow (v : Word) : Nat → Nat
  | 0 => 0
  | n + 1 => onesBelow v n + (v.getLsbD n).toNat

/-- `popcnt` (R90). -/
def populationCount (v : Word) : Word := BitVec.ofNat 32 (onesBelow v 32)

/-- `mult`: the low 32 bits of the exact product (R108). -/
def multValue (a b : Word) : Word := BitVec.ofNat 32 (a.toNat * b.toNat)

/-- `lmul`: the exact product modulo 2^64, signed when S=1 (R111). -/
def longProduct (sg : Bool) (a b : Word) : BitVec 64 :=
  if sg then BitVec.ofInt 64 (a.toInt * b.toInt) else BitVec.ofNat 64 (a.toNat * b.toNat)

/-- `div`: unsigned, rounded down; the divisor is not 0 (R109). -/
def divValue (a b : Word) : Word := BitVec.ofNat 32 (a.toNat / b.toNat)

/-- `rem`: unsigned; the divisor is not 0 (R110). -/
def remValue (a b : Word) : Word := BitVec.ofNat 32 (a.toNat % b.toNat)

end Sys2Proof.Machine
end

