-- ==== Sys2Proof/Machine/Arithmetic.lean ====
section
/-!
DEFINITION. The arithmetic group, 1h (41_arithmetic.md R100 to R111). An exception records the instruction's word (60_exceptions.md
R210), which is its encoding.
-/

namespace Sys2Proof.Machine

/-- Writing the destination register of an additive instruction; `comp` has none (R101). -/
def writeDest (dest : Option Reg) (r : Word) (s : State) : State :=
  match dest with
  | none => s
  | some d => s.setReg d r

/-- `Additive(a, b, cin, writes_dest)` (R101): `w` is the instruction word, `f` says whether the flags are written (`comp`: always). -/
def additive (w : Word) (o f : Bool) (a b : Word) (cin : Bool) (dest : Option Reg) (s : State) : Except Stop State :=
  let r := addWithCarry a b cin
  if o && r.2.v then .error (.raise (.overflow w))
  else .ok ((writeDest dest r.1 s).setFlagsIf f r.2).advance

/-- R102 -/
def execAdd (c : Cond) (x o f : Bool) (a b d : Reg) (s : State) : Outcome :=
  s.perform c (additive (encode (.add c x o f a b d)) o f (s.reg a) (s.reg b) false (some d) s)

/-- R103 -/
def execSub (c : Cond) (x o f : Bool) (a b d : Reg) (s : State) : Outcome :=
  s.perform c (additive (encode (.sub c x o f a b d)) o f (s.reg a) (~~~s.reg b) true (some d) s)

/-- R104 -/
def execAddc (c : Cond) (x o f : Bool) (a b d : Reg) (s : State) : Outcome :=
  s.perform c (additive (encode (.addc c x o f a b d)) o f (s.reg a) (s.reg b) s.flags.c (some d) s)

/-- R105 -/
def execSubc (c : Cond) (x o f : Bool) (a b d : Reg) (s : State) : Outcome :=
  s.perform c (additive (encode (.subc c x o f a b d)) o f (s.reg a) (~~~s.reg b) s.flags.c (some d) s)

/-- R106 -/
def execNeg (c : Cond) (x o f : Bool) (a d : Reg) (s : State) : Outcome :=
  s.perform c (additive (encode (.neg c x o f a d)) o f 0#32 (~~~s.reg a) true (some d) s)

/-- R107 -/
def execComp (c : Cond) (x o : Bool) (a b : Reg) (s : State) : Outcome :=
  s.perform c (additive (encode (.comp c x o a b)) o true (s.reg a) (~~~s.reg b) true none s)

/-- `x[DEST] <- r; if F: Z <- (r == 0), N <- r[31]`, then the next instruction (R108, R109, R110). -/
def productResult (f : Bool) (dest : Reg) (r : Word) (s : State) : State :=
  ((s.setReg dest r).setFlagsIf f (s.flags.withZN r)).advance

/-- R108 -/
def execMult (c : Cond) (f : Bool) (a b d : Reg) (s : State) : Outcome :=
  s.perform c (.ok (productResult f d (multValue (s.reg a) (s.reg b)) s))

/-- The divisor is not 0, else `DivideByZero` (R109, R110). -/
def checkDivisor (w : Word) (b : Word) : Except Stop Unit :=
  if b = 0#32 then .error (.raise (.divideByZero w)) else .ok ()

/-- R109 -/
def execDiv (c : Cond) (x f : Bool) (a b d : Reg) (s : State) : Outcome :=
  s.perform c ((checkDivisor (encode (.div c x f a b d)) (s.reg b)).map fun _ =>
    productResult f d (divValue (s.reg a) (s.reg b)) s)

/-- R110 -/
def execRem (c : Cond) (x f : Bool) (a b d : Reg) (s : State) : Outcome :=
  s.perform c ((checkDivisor (encode (.rem c x f a b d)) (s.reg b)).map fun _ =>
    productResult f d (remValue (s.reg a) (s.reg b)) s)

/-- The low half to DEST, the high half to DES2, and Z and N of the 64-bit product when F=1 (R111). -/
def longResult (f : Bool) (des2 dest : Reg) (p : BitVec 64) (s : State) : State :=
  (((s.setReg dest (p.extractLsb' 0 32)).setReg des2 (p.extractLsb' 32 32)).setFlagsIf f (s.flags.withZN64 p)).advance

/-- R111 -/
def execLmul (c : Cond) (sg f : Bool) (h a b d : Reg) (s : State) : Outcome :=
  s.perform c (if h = d then .error (.refuse .lmulSameDest)
    else .ok (longResult f h d (longProduct sg (s.reg a) (s.reg b)) s))

end Sys2Proof.Machine
end

