-- ==== Sys2Proof/Machine/ControlFlow.lean ====
section
/-!
DEFINITION. The control flow group, 2h (42_control_flow.md R120 to R123), and `bra` and `call`, groups 8h and 9h (47_branch_call.md
R200 to R202).
-/

namespace Sys2Proof.Machine

/-- R121 -/
def execRbra (c : Cond) (a : Reg) (off : Option Reg) (s : State) : Outcome :=
  s.perform c ((checkTarget (registerTarget a off s)).map fun _ => s.setPc (registerTarget a off s))

/-- `Push(pc + 4); pc <- t`, the target computed before the push (R122, R202). -/
def callTo (t : Word) (s : State) : Except Stop State :=
  (s.push (s.pc + 4#32)).map fun u => u.setPc t

/-- R122 -/
def execRcall (c : Cond) (a : Reg) (off : Option Reg) (s : State) : Outcome :=
  s.perform c ((checkTarget (registerTarget a off s)).bind fun _ => callTo (registerTarget a off s) s)

/-- R123: the popped target is checked after its read succeeded (60_exceptions.md R214 step 9). -/
def execRet (c : Cond) (s : State) : Outcome :=
  s.perform c (s.pop.bind fun p => (checkTarget p.1).map fun _ => p.2.setPc p.1)

/-- R201 -/
def execBra (c : Cond) (off24 : BitVec 24) (s : State) : Outcome :=
  s.perform c (.ok (s.setPc (branchTarget off24 s)))

/-- R202 -/
def execCall (c : Cond) (off24 : BitVec 24) (s : State) : Outcome :=
  s.perform c (callTo (branchTarget off24 s) s)

end Sys2Proof.Machine
end

