-- ==== Sys2Proof/Machine/CpuControl.lean ====
section
/-!
DEFINITION. The CPU control group, 6h (45_cpu_control.md R170 to R173).
-/

namespace Sys2Proof.Machine

/-- `if mode == User: raise PrivilegeViolation(w)`, else the effect (R170). -/
def privileged (w : Word) (s t : State) : Except Stop State :=
  match s.mode with
  | .user => .error (.raise (.privilegeViolation w))
  | .supervisor => .ok t

/-- R171 -/
def execStop (c : Cond) (s : State) : Outcome :=
  s.perform c (privileged (encode (.stop c)) s { s.advance with run := .stopped })

/-- R172 -/
def execWait (c : Cond) (s : State) : Outcome :=
  s.perform c (privileged (encode (.wait c)) s { s.advance with run := .waiting })

/-- R173 -/
def execSwitchm (c : Cond) (s : State) : Outcome :=
  s.perform c (privileged (encode (.switchm c)) s { s.advance with mode := .user })

end Sys2Proof.Machine
end

