-- ==== Sys2Proof/Machine/Immediate.lean ====
section
/-!
DEFINITION. The immediate group, 7h (46_immediate.md R180 to R188).
-/

namespace Sys2Proof.Machine

/-- `x[DES2] <- r`, no flag, then the next instruction (R180). -/
def immResult (d : Reg) (r : Word) (s : State) : State := (s.setReg d r).advance

/-- R181 -/
def execMovimm (c : Cond) (d : Reg) (n : BitVec 16) (s : State) : Outcome :=
  s.perform c (.ok (immResult d (immValue n) s))

/-- R182 -/
def execMovuimm (c : Cond) (d : Reg) (n : BitVec 16) (s : State) : Outcome :=
  s.perform c (.ok (immResult d (immUpper n) s))

/-- R183 -/
def execAndimm (c : Cond) (d : Reg) (n : BitVec 16) (s : State) : Outcome :=
  s.perform c (.ok (immResult d (s.reg d &&& immValue n) s))

/-- R184 -/
def execOrimm (c : Cond) (d : Reg) (n : BitVec 16) (s : State) : Outcome :=
  s.perform c (.ok (immResult d (s.reg d ||| immValue n) s))

/-- R185 -/
def execXorimm (c : Cond) (d : Reg) (n : BitVec 16) (s : State) : Outcome :=
  s.perform c (.ok (immResult d (s.reg d ^^^ immValue n) s))

/-- R186 -/
def execAddimm (c : Cond) (d : Reg) (n : BitVec 16) (s : State) : Outcome :=
  s.perform c (.ok (immResult d (s.reg d + immValue n) s))

/-- R187 -/
def execSubimm (c : Cond) (d : Reg) (n : BitVec 16) (s : State) : Outcome :=
  s.perform c (.ok (immResult d (s.reg d - immValue n) s))

/-- R188: the four flags of `x[DES2] - imm`, no register. -/
def execCompimm (c : Cond) (d : Reg) (n : BitVec 16) (s : State) : Outcome :=
  s.perform c (.ok (s.setFlags (addWithCarry (s.reg d) (~~~immValue n) true).2).advance)

end Sys2Proof.Machine
end

