-- ==== Sys2Proof/Machine/Load.lean ====
section
/-!
DEFINITION. The load group, 3h (43_load.md R130 to R141).
-/

namespace Sys2Proof.Machine

/-- A single-register load (R132): the collision is refused, the access is checked and made, then the data register is written and,
when W=1, the base. `ext` widens the value read (R136, R137, R139, R141). -/
def loadSingle (n : Size) (ext : Word → Word) (a : Single) (s : State) : Except Stop State :=
  if a.collides then .error (.refuse .loadBaseCollision)
  else (s.readMem .read (accessAddr a s) n).map fun v =>
    (writeBack a.wb a.base (newBase a s) (s.setReg a.data (ext v))).advance

/-- `sext_32` of a byte (R139). -/
def sextByte (v : Word) : Word := (v.truncate 8).signExtend 32

/-- `sext_32` of a halfword (R141). -/
def sextHalf (v : Word) : Word := (v.truncate 16).signExtend 32

/-- R134 -/
def execLoad (c : Cond) (a : Single) (s : State) : Outcome := s.perform c (loadSingle .word id a s)

/-- R136: zero-extended. -/
def execLoadb (c : Cond) (a : Single) (s : State) : Outcome := s.perform c (loadSingle .byte id a s)

/-- R137: zero-extended. -/
def execLoadh (c : Cond) (a : Single) (s : State) : Outcome := s.perform c (loadSingle .half id a s)

/-- R139 -/
def execLoadbe (c : Cond) (a : Single) (s : State) : Outcome := s.perform c (loadSingle .byte sextByte a s)

/-- R141 -/
def execLoadhe (c : Cond) (a : Single) (s : State) : Outcome := s.perform c (loadSingle .half sextHalf a s)

/-- `loadm` (R133, R135): the refusals, all the checks, all the reads, then the registers and, when W=1, the base. -/
def loadMulti (m : Multi) (s : State) : Except Stop State :=
  (checkMulti m).bind fun _ =>
  (checkBlock s .read (blockAddrs m s)).bind fun _ =>
  (readWords s (blockAddrs m s)).map fun vs =>
    (writeBack m.wb m.base (blockNew m s) (s.setRegs (m.regs.zip vs))).advance

/-- R135 -/
def execLoadm (c : Cond) (m : Multi) (s : State) : Outcome := s.perform c (loadMulti m s)

/-- R138 -/
def execPop (c : Cond) (d : Reg) (s : State) : Outcome :=
  s.perform c (if d = spReg then .error (.refuse .popSP) else s.pop.map fun p => (p.2.setReg d p.1).advance)

/-- R140 -/
def execPopf (c : Cond) (s : State) : Outcome :=
  s.perform c (s.pop.map fun p => (p.2.setFlags (Flags.ofWord p.1)).advance)

end Sys2Proof.Machine
end

