-- ==== Sys2Proof/Machine/Logical.lean ====
section
/-!
DEFINITION. The logical group, 0h (40_logical.md R80 to R90).
-/

namespace Sys2Proof.Machine

/-- `x[DEST] <- r; if F: LogicFlags(r)`, then the next instruction (R80). -/
def logicalResult (f : Bool) (dest : Reg) (r : Word) (s : State) : State :=
  ((s.setReg dest r).setFlagsIf f (s.flags.withZN r)).advance

/-- R81 -/
def execAnd (c : Cond) (f : Bool) (a b d : Reg) (s : State) : Outcome :=
  s.perform c (.ok (logicalResult f d (s.reg a &&& s.reg b) s))

/-- R82 -/
def execOr (c : Cond) (f : Bool) (a b d : Reg) (s : State) : Outcome :=
  s.perform c (.ok (logicalResult f d (s.reg a ||| s.reg b) s))

/-- R83 -/
def execXor (c : Cond) (f : Bool) (a b d : Reg) (s : State) : Outcome :=
  s.perform c (.ok (logicalResult f d (s.reg a ^^^ s.reg b) s))

/-- R84 -/
def execNand (c : Cond) (f : Bool) (a b d : Reg) (s : State) : Outcome :=
  s.perform c (.ok (logicalResult f d (~~~(s.reg a &&& s.reg b)) s))

/-- R85 -/
def execNot (c : Cond) (f : Bool) (a d : Reg) (s : State) : Outcome :=
  s.perform c (.ok (logicalResult f d (~~~s.reg a) s))

/-- R86 -/
def execNor (c : Cond) (f : Bool) (a b d : Reg) (s : State) : Outcome :=
  s.perform c (.ok (logicalResult f d (~~~(s.reg a ||| s.reg b)) s))

/-- R87 -/
def execXnor (c : Cond) (f : Bool) (a b d : Reg) (s : State) : Outcome :=
  s.perform c (.ok (logicalResult f d (~~~(s.reg a ^^^ s.reg b)) s))

/-- R88 -/
def execCntlz (c : Cond) (f : Bool) (a d : Reg) (s : State) : Outcome :=
  s.perform c (.ok (logicalResult f d (countLeadingZeros (s.reg a)) s))

/-- R89 -/
def execCntlo (c : Cond) (f : Bool) (a d : Reg) (s : State) : Outcome :=
  s.perform c (.ok (logicalResult f d (countLeadingOnes (s.reg a)) s))

/-- R90 -/
def execPopcnt (c : Cond) (f : Bool) (a d : Reg) (s : State) : Outcome :=
  s.perform c (.ok (logicalResult f d (populationCount (s.reg a)) s))

end Sys2Proof.Machine
end

