-- ==== Sys2Proof/Machine/Store.lean ====
section
/-!
DEFINITION. The store group, 4h (44_store.md R150 to R158).
-/

namespace Sys2Proof.Machine

/-- A single-register store (R150): the value is read first, so that a write-back of the data register stores the old value. -/
def storeSingle (n : Size) (a : Single) (s : State) : Except Stop State :=
  (s.writeMem (accessAddr a s) n (s.reg a.data)).map fun t =>
    (writeBack a.wb a.base (newBase a s) t).advance

/-- R152 -/
def execStor (c : Cond) (a : Single) (s : State) : Outcome := s.perform c (storeSingle .word a s)

/-- R154: the low 8 bits of the register. -/
def execStorb (c : Cond) (a : Single) (s : State) : Outcome := s.perform c (storeSingle .byte a s)

/-- R155: the low 16 bits of the register. -/
def execStorh (c : Cond) (a : Single) (s : State) : Outcome := s.perform c (storeSingle .half a s)

/-- `storm` (R133, R153): the refusals, all the checks, all the writes and, when W=1, the base. -/
def storeMulti (m : Multi) (s : State) : Except Stop State :=
  (checkMulti m).bind fun _ =>
  (checkBlock s .write (blockAddrs m s)).map fun _ =>
    (writeBack m.wb m.base (blockNew m s) (storeWords s ((blockAddrs m s).zip (m.regs.map s.reg)))).advance

/-- R153 -/
def execStorm (c : Cond) (m : Multi) (s : State) : Outcome := s.perform c (storeMulti m s)

/-- R156: the value is read before the stack pointer moves. -/
def execPush (c : Cond) (d : Reg) (s : State) : Outcome :=
  s.perform c ((s.push (s.reg d)).map State.advance)

/-- R157 -/
def execPushpc (c : Cond) (s : State) : Outcome :=
  s.perform c ((s.push (s.pc + pcBias)).map State.advance)

/-- R158 -/
def execPushf (c : Cond) (s : State) : Outcome :=
  s.perform c ((s.push s.flags.toWord).map State.advance)

end Sys2Proof.Machine
end

