-- ==== Sys2Proof/Machine/Dispatch.lean ====
section
/-!
DEFINITION. The dispatch: one arm per constructor of `Instr`, each one call of its meaning. Don't-care Config bits that no exception
records do not reach the meanings (30_encoding.md R67).
-/

namespace Sys2Proof.Machine

def exec (i : Instr) (s : State) : Host.Outcome State Fault Refusal :=
  match i with
  -- group 0h (40_logical.md)
  | .and c _ f a b d => Sys2Proof.Machine.execAnd c f a b d s
  | .or c _ f a b d => Sys2Proof.Machine.execOr c f a b d s
  | .xor c _ f a b d => Sys2Proof.Machine.execXor c f a b d s
  | .nand c _ f a b d => Sys2Proof.Machine.execNand c f a b d s
  | .not c _ f a d => Sys2Proof.Machine.execNot c f a d s
  | .nor c _ f a b d => Sys2Proof.Machine.execNor c f a b d s
  | .xnor c _ f a b d => Sys2Proof.Machine.execXnor c f a b d s
  | .cntlz c _ f a d => Sys2Proof.Machine.execCntlz c f a d s
  | .cntlo c _ f a d => Sys2Proof.Machine.execCntlo c f a d s
  | .popcnt c _ f a d => Sys2Proof.Machine.execPopcnt c f a d s
  -- group 1h (41_arithmetic.md)
  | .add c x o f a b d => Sys2Proof.Machine.execAdd c x o f a b d s
  | .sub c x o f a b d => Sys2Proof.Machine.execSub c x o f a b d s
  | .addc c x o f a b d => Sys2Proof.Machine.execAddc c x o f a b d s
  | .subc c x o f a b d => Sys2Proof.Machine.execSubc c x o f a b d s
  | .neg c x o f a d => Sys2Proof.Machine.execNeg c x o f a d s
  | .comp c x o a b => Sys2Proof.Machine.execComp c x o a b s
  | .mult c _ f a b d => Sys2Proof.Machine.execMult c f a b d s
  | .div c x f a b d => Sys2Proof.Machine.execDiv c x f a b d s
  | .rem c x f a b d => Sys2Proof.Machine.execRem c x f a b d s
  | .lmul c _ sg f h a b d => Sys2Proof.Machine.execLmul c sg f h a b d s
  -- group 2h (42_control_flow.md)
  | .rbra c _ a off => Sys2Proof.Machine.execRbra c a off s
  | .rcall c _ a off => Sys2Proof.Machine.execRcall c a off s
  | .ret c => Sys2Proof.Machine.execRet c s
  -- group 3h (43_load.md)
  | .load c a => Sys2Proof.Machine.execLoad c a s
  | .loadm c m => Sys2Proof.Machine.execLoadm c m s
  | .loadb c a => Sys2Proof.Machine.execLoadb c a s
  | .loadh c a => Sys2Proof.Machine.execLoadh c a s
  | .pop c d => Sys2Proof.Machine.execPop c d s
  | .loadbe c a => Sys2Proof.Machine.execLoadbe c a s
  | .popf c => Sys2Proof.Machine.execPopf c s
  | .loadhe c a => Sys2Proof.Machine.execLoadhe c a s
  -- group 4h (44_store.md)
  | .stor c a => Sys2Proof.Machine.execStor c a s
  | .storm c m => Sys2Proof.Machine.execStorm c m s
  | .storb c a => Sys2Proof.Machine.execStorb c a s
  | .storh c a => Sys2Proof.Machine.execStorh c a s
  | .push c d => Sys2Proof.Machine.execPush c d s
  | .pushpc c => Sys2Proof.Machine.execPushpc c s
  | .pushf c => Sys2Proof.Machine.execPushf c s
  -- group 6h (45_cpu_control.md)
  | .stop c => Sys2Proof.Machine.execStop c s
  | .wait c => Sys2Proof.Machine.execWait c s
  | .switchm c => Sys2Proof.Machine.execSwitchm c s
  -- group 7h (46_immediate.md)
  | .movimm c d n => Sys2Proof.Machine.execMovimm c d n s
  | .movuimm c d n => Sys2Proof.Machine.execMovuimm c d n s
  | .andimm c d n => Sys2Proof.Machine.execAndimm c d n s
  | .orimm c d n => Sys2Proof.Machine.execOrimm c d n s
  | .xorimm c d n => Sys2Proof.Machine.execXorimm c d n s
  | .addimm c d n => Sys2Proof.Machine.execAddimm c d n s
  | .subimm c d n => Sys2Proof.Machine.execSubimm c d n s
  | .compimm c d n => Sys2Proof.Machine.execCompimm c d n s
  -- groups 8h and 9h (47_branch_call.md)
  | .bra c off24 => Sys2Proof.Machine.execBra c off24 s
  | .call c off24 => Sys2Proof.Machine.execCall c off24 s

end Sys2Proof.Machine
end

