-- ==== Sys2Proof/Machine/Step.lean ====
section
/-!
DEFINITION. One step of the machine: what the run state says (10_state.md R19), the fetch, the decoding order of 30_encoding.md R54, and
the instruction.
-/

namespace Sys2Proof.Machine

/-- The running CPU: fetch, decode, execute (R54, 60_exceptions.md R214). -/
def State.runInstr (s : State) : Outcome :=
  match s.fetch with
  | .error e => s.finish (.error e)
  | .ok w =>
    match decodeWord w with
    | .error r => s.rejectWord w r
    | .ok i => exec i s

/-- One step. A stopped CPU executes nothing and keeps everything (R171, R227); a waiting one samples its interrupt input (R221); a
running one executes an instruction, and no interrupt is delivered to it (R222). -/
def step (s : State) : Host.Outcome State Fault Refusal :=
  match s.run with
  | .stopped => .next s
  | .waiting => s.pollInterrupt
  | .running => s.runInstr

/-- `s` with the row's word loaded where the next step fetches: four bytes at the pc, the CPU running, and no region left that denies
that fetch (log entries 18 and 20). -/
def State.withFetchWord (s : State) (nbits w : Nat) : State :=
  let t := s.storeBytes s.pc .word (BitVec.ofNat 32 (w % 2 ^ nbits))
  { t with run := .running, unmapped := s.unmapped.filter fun r => !r.denies s.pc .word .fetch s.mode }

end Sys2Proof.Machine
end

