-- ==== Sys2Proof/Safety.lean ====
section
/-!
DEFINITION. The terms the claims use: the machine's invariant, how a run ends (70_reset_and_hazards.md R246), what an instruction leaves
alone, and the bytes a word holds in memory.
-/

namespace Sys2Proof

/-- The fixed bits 27-20 of an instruction's row, the row's "match" in spec/opcode_table.json (30_encoding.md R53). In groups 8h and 9h
only bits 27-24 are fixed. -/
def Instr.rowMatch : Instr → Word
  | .and _ _ _ _ _ _ => 0x00000000#32
  | .or _ _ _ _ _ _ => 0x00100000#32
  | .xor _ _ _ _ _ _ => 0x00200000#32
  | .nand _ _ _ _ _ _ => 0x00300000#32
  | .not _ _ _ _ _ => 0x00400000#32
  | .nor _ _ _ _ _ _ => 0x00500000#32
  | .xnor _ _ _ _ _ _ => 0x00600000#32
  | .cntlz _ _ _ _ _ => 0x00700000#32
  | .cntlo _ _ _ _ _ => 0x00800000#32
  | .popcnt _ _ _ _ _ => 0x00900000#32
  | .add _ _ _ _ _ _ _ => 0x01000000#32
  | .sub _ _ _ _ _ _ _ => 0x01100000#32
  | .addc _ _ _ _ _ _ _ => 0x01200000#32
  | .subc _ _ _ _ _ _ _ => 0x01300000#32
  | .neg _ _ _ _ _ _ => 0x01400000#32
  | .comp _ _ _ _ _ => 0x01500000#32
  | .mult _ _ _ _ _ _ => 0x01600000#32
  | .div _ _ _ _ _ _ => 0x01700000#32
  | .rem _ _ _ _ _ _ => 0x01800000#32
  | .lmul _ _ _ _ _ _ _ _ => 0x01900000#32
  | .rbra _ _ _ _ => 0x02000000#32
  | .rcall _ _ _ _ => 0x02100000#32
  | .ret _ => 0x02200000#32
  | .load _ _ => 0x03000000#32
  | .loadm _ _ => 0x03100000#32
  | .loadb _ _ => 0x03200000#32
  | .loadh _ _ => 0x03300000#32
  | .pop _ _ => 0x03400000#32
  | .loadbe _ _ => 0x03500000#32
  | .popf _ => 0x03600000#32
  | .loadhe _ _ => 0x03700000#32
  | .stor _ _ => 0x04000000#32
  | .storm _ _ => 0x04100000#32
  | .storb _ _ => 0x04200000#32
  | .storh _ _ => 0x04300000#32
  | .push _ _ => 0x04400000#32
  | .pushpc _ => 0x04500000#32
  | .pushf _ => 0x04600000#32
  | .stop _ => 0x06000000#32
  | .wait _ => 0x06100000#32
  | .switchm _ => 0x06200000#32
  | .movimm _ _ _ => 0x07000000#32
  | .movuimm _ _ _ => 0x07100000#32
  | .andimm _ _ _ => 0x07200000#32
  | .orimm _ _ _ => 0x07300000#32
  | .xorimm _ _ _ => 0x07400000#32
  | .addimm _ _ _ => 0x07500000#32
  | .subimm _ _ _ => 0x07600000#32
  | .compimm _ _ _ => 0x07700000#32
  | .bra _ _ => 0x08000000#32
  | .call _ _ => 0x09000000#32

end Sys2Proof

namespace Sys2Proof.Machine

/-- The invariant of the machine: the pc is a multiple of 4 (10_state.md R14) and memory is in canonical form. -/
abbrev State.Inv (s : State) : Prop := s.pc.toNat % 4 = 0 ∧ s.mem.wf = true

/-- The normal end of a run: a `stop` completed (R246). -/
abbrev State.ended (s : State) : Prop := s.run = .stopped

/-- A run of `k` steps that meets no exception, no interrupt and no refusal, ending in `t`: what a safe run is. It carries the premise of
60_exceptions.md R222, that no interrupt is asserted while the machine runs. -/
def SafeRun (k : Nat) (s t : State) : Prop := Host.Core.run core k s = .next t

/-- A run whose outcome is `Stopped(t)` (R246). -/
def EndsStopped (s t : State) : Prop := ∃ k, SafeRun k s t ∧ t.ended

/-- Everything but the registers `rs`, the pc, the flags and memory is as before: the other registers, the mode, the run state and the
platform. -/
def Frame (rs : List Reg) (s t : State) : Prop :=
  (∀ r, r ∉ rs → t.reg r = s.reg r) ∧ t.mode = s.mode ∧ t.run = s.run ∧ t.unmapped = s.unmapped ∧ t.irqPolls = s.irqPolls

/-- Every byte of memory is as before. -/
def MemKept (s t : State) : Prop := ∀ k, t.mem.read k = s.mem.read k

/-- Every byte of memory but the `n` bytes from `a` up is as before. -/
def MemKeptOutside (a : Word) (n : Nat) (s t : State) : Prop :=
  ∀ k, k < a.toNat ∨ a.toNat + n ≤ k → t.mem.read k = s.mem.read k

/-- The `n` bytes from `a` up hold the low `8n` bits of `v`, the least significant byte first (20_memory.md R33). -/
def Holds (m : Memory) (a : Word) (n : Nat) (v : Word) : Prop :=
  ∀ j, j < n → m.read (a.toNat + j) = some (v.extractLsb' (8 * j) 8)

/-- The exceptions of an access of size `n` and kind `k` at `a` that the instruction `i` makes: it traps on a misaligned address, and on
an aligned one that the platform does not accept (20_memory.md R35, R38), with the state before it (60_exceptions.md R213). -/
def AccessTraps (i : Instr) (s : State) (k : AccessKind) (a : Word) (n : Size) : Prop :=
  (a.toNat % n.bytes ≠ 0 → exec i s = .fault (.trapped (.addressMisaligned a) s)) ∧
    (a.toNat % n.bytes = 0 → s.mapped k a n = false → exec i s = .fault (.trapped (.accessFault a k) s))

/-- A byte of the access of size `n` at `a` has no value: the first such refuses the read (70_reset_and_hazards.md R241). -/
def UnwrittenRefused (i : Instr) (s : State) (a : Word) (n : Size) : Prop :=
  ∀ j, j < n.bytes → (∀ l, l < j → s.mem.read (a.toNat + l) ≠ none) → s.mem.read (a.toNat + j) = none →
    exec i s = .refused (.unwrittenRead (a + BitVec.ofNat 32 j))

/-- Z and N written when F=1, V and C unchanged (40_logical.md R80, 41_arithmetic.md R108 to R111). -/
def flagsZN (f : Bool) (fl : Flags) (z n : Bool) : Flags := if f then { z := z, n := n, v := fl.v, c := fl.c } else fl

/-- The load `i` with operands `a` completes in `s` with the value `v`: the data register, the base when W=1, nothing else but the pc. -/
def LoadCompletes (i : Instr) (a : Single) (s : State) (v : Word) : Prop :=
  ∃ t, exec i s = .next t ∧ t.reg a.data = v ∧ (a.wb = true → t.reg a.base = newBase a s) ∧
    Frame (if a.wb then [a.data, a.base] else [a.data]) s t ∧ MemKept s t ∧ t.flags = s.flags ∧ t.pc = s.pc + 4#32

/-- The push-like instruction `i` completes in `s`: the word `v` below the stack pointer, the pointer there, the pc at `p`. -/
def PushCompletes (i : Instr) (s : State) (v p : Word) : Prop :=
  ∃ t, exec i s = .next t ∧ Holds t.mem (s.reg 15 - 4#32) 4 v ∧ MemKeptOutside (s.reg 15 - 4#32) 4 s t ∧
    t.reg 15 = s.reg 15 - 4#32 ∧ Frame [15] s t ∧ t.flags = s.flags ∧ t.pc = p

/-- The address of the `k`-th word of a multiple transfer (43_load.md R133). -/
def blockWord (m : Multi) (s : State) (k : Nat) : Word := blockStart m s + BitVec.ofNat 32 (4 * k)

/-- A multiple transfer's block is aligned, if it moves any register, and the platform accepts each of its words (R35, R38). -/
def BlockAccepted (m : Multi) (s : State) (k : AccessKind) : Prop :=
  (m.regs ≠ [] → (blockStart m s).toNat % 4 = 0) ∧ ∀ j, j < m.regs.length → s.mapped k (blockWord m s j) .word = true

/-- The exceptions of a multiple transfer (R135, R153): a misaligned block, else the first word the platform does not accept. -/
def BlockTraps (i : Instr) (m : Multi) (s : State) (k : AccessKind) : Prop :=
  (m.regs ≠ [] → (blockStart m s).toNat % 4 ≠ 0 → exec i s = .fault (.trapped (.addressMisaligned (blockStart m s)) s)) ∧
    ∀ j, (blockStart m s).toNat % 4 = 0 → j < m.regs.length → (∀ l, l < j → s.mapped k (blockWord m s l) .word = true) →
      s.mapped k (blockWord m s j) .word = false → exec i s = .fault (.trapped (.accessFault (blockWord m s j) k) s)

/-- The instructions that may write a flag (10_state.md R16). -/
def writesFlags : Instr → Bool
  | .and _ _ f _ _ _ | .or _ _ f _ _ _ | .xor _ _ f _ _ _ | .nand _ _ f _ _ _ | .not _ _ f _ _ => f
  | .nor _ _ f _ _ _ | .xnor _ _ f _ _ _ | .cntlz _ _ f _ _ | .cntlo _ _ f _ _ | .popcnt _ _ f _ _ => f
  | .add _ _ _ f _ _ _ | .sub _ _ _ f _ _ _ | .addc _ _ _ f _ _ _ | .subc _ _ _ f _ _ _ | .neg _ _ _ f _ _ => f
  | .comp _ _ _ _ _ => true
  | .mult _ _ f _ _ _ | .div _ _ f _ _ _ | .rem _ _ f _ _ _ | .lmul _ _ _ f _ _ _ _ => f
  | .rbra _ _ _ _ | .rcall _ _ _ _ | .ret _ => false
  | .load _ _ | .loadm _ _ | .loadb _ _ | .loadh _ _ | .pop _ _ | .loadbe _ _ | .loadhe _ _ => false
  | .popf _ => true
  | .stor _ _ | .storm _ _ | .storb _ _ | .storh _ _ | .push _ _ | .pushpc _ | .pushf _ => false
  | .stop _ | .wait _ | .switchm _ => false
  | .movimm _ _ _ | .movuimm _ _ _ | .andimm _ _ _ | .orimm _ _ _ | .xorimm _ _ _ | .addimm _ _ _ | .subimm _ _ _ => false
  | .compimm _ _ _ => true
  | .bra _ _ | .call _ _ => false

/-- The instructions that store to memory (20_memory.md R32). -/
def storesToMemory : Instr → Bool
  | .stor _ _ | .storm _ _ | .storb _ _ | .storh _ _ | .push _ _ | .pushpc _ | .pushf _ | .rcall _ _ _ _ | .call _ _ => true
  | .and _ _ _ _ _ _ | .or _ _ _ _ _ _ | .xor _ _ _ _ _ _ | .nand _ _ _ _ _ _ | .not _ _ _ _ _ => false
  | .nor _ _ _ _ _ _ | .xnor _ _ _ _ _ _ | .cntlz _ _ _ _ _ | .cntlo _ _ _ _ _ | .popcnt _ _ _ _ _ => false
  | .add _ _ _ _ _ _ _ | .sub _ _ _ _ _ _ _ | .addc _ _ _ _ _ _ _ | .subc _ _ _ _ _ _ _ | .neg _ _ _ _ _ _ => false
  | .comp _ _ _ _ _ | .mult _ _ _ _ _ _ | .div _ _ _ _ _ _ | .rem _ _ _ _ _ _ | .lmul _ _ _ _ _ _ _ _ => false
  | .rbra _ _ _ _ | .ret _ => false
  | .load _ _ | .loadm _ _ | .loadb _ _ | .loadh _ _ | .pop _ _ | .loadbe _ _ | .popf _ | .loadhe _ _ => false
  | .stop _ | .wait _ | .switchm _ => false
  | .movimm _ _ _ | .movuimm _ _ _ | .andimm _ _ _ | .orimm _ _ _ | .xorimm _ _ _ | .addimm _ _ _ | .subimm _ _ _ => false
  | .compimm _ _ _ | .bra _ _ => false

/-- The three CPU-control instructions (45_cpu_control.md R170). -/
def cpuControl (i : Instr) : Prop := i = .stop i.cond ∨ i = .wait i.cond ∨ i = .switchm i.cond

/-- An outcome with the mode of every state in it replaced. -/
def withMode (md : Mode) : Outcome → Outcome
  | .next t => .next { t with mode := md }
  | .fault (.trapped e t) => .fault (.trapped e { t with mode := md })
  | .fault (.interrupted t) => .fault (.interrupted { t with mode := md })
  | .refused r => .refused r

/-- The exception with another instruction word recorded; an exception that records an address stays as it is (60_exceptions.md R210). -/
def Exception.withWord (w : Word) : Exception → Exception
  | .overflow _ => .overflow w
  | .illegalInstruction _ => .illegalInstruction w
  | .privilegeViolation _ => .privilegeViolation w
  | .divideByZero _ => .divideByZero w
  | .addressMisaligned a => .addressMisaligned a
  | .instructionAddressMisaligned t => .instructionAddressMisaligned t
  | .accessFault a k => .accessFault a k

/-- The outcome with another instruction word recorded by its exception, if it is one; nothing else differs. -/
def recordWord (w : Word) : Outcome → Outcome
  | .next t => .next t
  | .fault (.trapped e t) => .fault (.trapped (e.withWord w) t)
  | .fault (.interrupted t) => .fault (.interrupted t)
  | .refused r => .refused r

/-- Pushing registers one after another, each with condition `c`. -/
def pushEach (c : Cond) : List Reg → State → Outcome
  | [], s => .next s
  | r :: rs, s =>
    match exec (.push c r) s with
    | .next t => pushEach c rs t
    | .fault e => .fault e
    | .refused e => .refused e

end Sys2Proof.Machine
end

