-- ==== Sys2Proof/Certificates/Slice0/Obligations.lean ====
section
/-!
DEFINITION. The statements for the provers, in the order of OBLIGATIONS.json. Each docstring names the rule of spec/ it formalises. The
word an exception records is the one its instruction encodes to: `EncodeRecoversDecodedWord` says that this is the fetched word.
Nearly every rule of this spec carries a mark of its own choice ("[decision: see 92_eei_decisions.md D<n>]", "[derived: ...]", "[from
general knowledge, not in source]"): a statement that rests on such a rule has basis 'derived' in OBLIGATIONS.json and states the spec, not
the chip. The basis 'stated' is kept for the rules that carry no such mark (R62, R67, R212).
-/

open Sys2Proof Sys2Proof.Machine

/-! ### Encoding and decoding -/

/-- 30_encoding.md R51-R61 and the family files' encodings: decoding the word of any instruction gives it back, with every operand. -/
def Obligations.DecodeOfEncodeIsIdentity : Prop :=
  ∀ i : Instr, decodeWord (encode i) = .ok i

/-- The other direction: a word the decoder accepts is the word its instruction encodes to; no bit of it is dropped. -/
def Obligations.EncodeRecoversDecodedWord : Prop :=
  ∀ (w : Word) (i : Instr), decodeWord w = .ok i → encode i = w

/-- R64, R65: a running CPU that fetches a word of a group or an opcode that selects no instruction raises IllegalInstruction,
whatever the word's other bits. -/
def Obligations.IllegalWordsRaise : Prop :=
  ∀ (s : State) (w : Word), s.run = .running → s.fetch = .ok w →
    (let g := (w.extractLsb' 24 4).toNat
     let p := (w.extractLsb' 20 4).toNat
     g = 5 ∨ 10 ≤ g ∨ (g = 0 ∧ 10 ≤ p) ∨ (g = 1 ∧ 10 ≤ p) ∨ (g = 2 ∧ 3 ≤ p) ∨ (g = 3 ∧ 8 ≤ p) ∨ (g = 4 ∧ 7 ≤ p) ∨
       (g = 6 ∧ 3 ≤ p) ∨ (g = 7 ∧ 8 ≤ p)) →
    step s = .fault (.trapped (.illegalInstruction w) s)

/-- The 49 rows of groups 0h to 7h of spec/opcode_table.json: the fixed bits (the mask of each is 0x0FF00000), the bits that should be
zero (R66), and the Config bits not available (R68). The two together are the row's sbz_mask. Bit 12 of `ret` counts as a Config bit, as
95_test_vectors.md 2.1 has it. -/
def Sys2Proof.opcodeRows : List (Word × Word × Word) :=
  [(0x00000000, 0x000F0000, 0), (0x00100000, 0x000F0000, 0), (0x00200000, 0x000F0000, 0), (0x00300000, 0x000F0000, 0),
   (0x00400000, 0x000F00F0, 0), (0x00500000, 0x000F0000, 0), (0x00600000, 0x000F0000, 0), (0x00700000, 0x000F00F0, 0),
   (0x00800000, 0x000F00F0, 0), (0x00900000, 0x000F00F0, 0)] ++
  [(0x01000000, 0x000F0000, 0x4000), (0x01100000, 0x000F0000, 0x4000), (0x01200000, 0x000F0000, 0x4000),
   (0x01300000, 0x000F0000, 0x4000), (0x01400000, 0x000F00F0, 0x4000), (0x01500000, 0x000F000F, 0x5000),
   (0x01600000, 0x000F0000, 0x6000), (0x01700000, 0x000F0000, 0x6000), (0x01800000, 0x000F0000, 0x6000),
   (0x01900000, 0, 0x2000)] ++
  [(0x02000000, 0x000F000F, 0), (0x02100000, 0x000F000F, 0), (0x02200000, 0x000FEFFF, 0x1000)] ++
  [(0x03000000, 0, 0), (0x03100000, 0, 0), (0x03200000, 0, 0), (0x03300000, 0, 0), (0x03400000, 0x000F0FF0, 0xF000),
   (0x03500000, 0, 0), (0x03600000, 0x000F0FFF, 0xF000), (0x03700000, 0, 0)] ++
  [(0x04000000, 0, 0), (0x04100000, 0, 0), (0x04200000, 0, 0), (0x04300000, 0, 0), (0x04400000, 0x000F0FF0, 0xF000),
   (0x04500000, 0x000F0FFF, 0xF000), (0x04600000, 0x000F0FFF, 0xF000)] ++
  [(0x06000000, 0x000FFFFF, 0), (0x06100000, 0x000FFFFF, 0), (0x06200000, 0x000FFFFF, 0)] ++
  [(0x07000000, 0, 0), (0x07100000, 0, 0), (0x07200000, 0, 0), (0x07300000, 0, 0), (0x07400000, 0, 0), (0x07500000, 0, 0),
   (0x07600000, 0, 0), (0x07700000, 0, 0)]

/-- The conditional should-be-zero fields of R66: SRC2 of `rbra` and `rcall` with O=0, and bits 19-16 of a single load or store with
I=0. -/
def Sys2Proof.conditionalSbz (w : Word) : Word :=
  let g := (w.extractLsb' 24 4).toNat
  let p := (w.extractLsb' 20 4).toNat
  if g = 2 ∧ p ≤ 1 ∧ w.getLsbD 12 = false then 0x000000F0#32
  else if g = 3 ∧ (p = 0 ∨ p = 2 ∨ p = 3 ∨ p = 5 ∨ p = 7) ∧ w.getLsbD 15 = false then 0x000F0000#32
  else if g = 4 ∧ (p = 0 ∨ p = 2 ∨ p = 3) ∧ w.getLsbD 15 = false then 0x000F0000#32
  else 0#32

/-- R53, R66, R68 and spec/opcode_table.json: a word of a row whose reserved bits are all zero decodes to an instruction of that row; a
running CPU that fetches a word of it is stopped by the refusal SBZ when only should-be-zero bits are set, by ConfigNotAvailable when only
Config bits not available are. Where both are set the statement leaves the name of the refusal open: the model's order is its own choice
(log entry 12), as is the reading of 95_test_vectors.md 2.1 that bit 12 of `ret` is a Config bit (R66 counts it too). -/
def Obligations.ReservedBitsRefuse : Prop :=
  ∀ (s : State) (w : Word) (row : Word × Word × Word), row ∈ opcodeRows → w &&& 0x0FF00000#32 = row.1 →
    (let sbz := w &&& (row.2.1 ||| conditionalSbz w)
     let config := w &&& row.2.2
     (sbz = 0#32 → config = 0#32 → ∃ i, decodeWord w = .ok i ∧ i.rowMatch = row.1) ∧
     (s.run = .running → s.fetch = .ok w →
       (sbz ≠ 0#32 → config = 0#32 → step s = .refused (.sbz w)) ∧
       (sbz = 0#32 → config ≠ 0#32 → step s = .refused (.configNotAvailable w)) ∧
       (sbz ≠ 0#32 → config ≠ 0#32 → step s = .refused (.sbz w) ∨ step s = .refused (.configNotAvailable w))))

/-- R67: two words of the logical group, or of `rbra` or `rcall`, that differ in bits 15-13 only, or two words of the arithmetic group that
differ in bit 15 only, are both accepted or both rejected for the same reason; and their instructions do the same in every state: the same
next state, the same refusal, or the same exception with the same state, but for the instruction word that the exception records. -/
def Obligations.DontCareBitsChangeNothing : Prop :=
  ∀ (w w' : Word),
    (let g := (w.extractLsb' 24 4).toNat
     let p := (w.extractLsb' 20 4).toNat
     ((g = 0 ∨ (g = 2 ∧ p ≤ 1)) ∧ w &&& 0xFFFF1FFF#32 = w' &&& 0xFFFF1FFF#32) ∨
       (g = 1 ∧ w &&& 0xFFFF7FFF#32 = w' &&& 0xFFFF7FFF#32)) →
    (∀ r, decodeWord w = .error r → decodeWord w' = .error r) ∧
    (∀ i, decodeWord w = .ok i → ∃ j, decodeWord w' = .ok j ∧ ∀ s, exec j s = recordWord w' (exec i s))

/-- Words written out from the spec's own encodings (95_test_vectors.md section 2 and the worked examples of the rules) with the
instruction each stands for: at least one for each of the 51 rows. -/
def Sys2Proof.sampleWords : List (Word × Instr) :=
  [(0x00001123, .and .al 0#3 true 1 2 3), (0x00100123, .or .al 0#3 false 1 2 3), (0x00200123, .xor .al 0#3 false 1 2 3),
   (0x10201444, .xor .eq 0#3 true 4 4 4), (0x00300123, .nand .al 0#3 false 1 2 3), (0x00400103, .not .al 0#3 false 1 3),
   (0x00500123, .nor .al 0#3 false 1 2 3), (0x00600123, .xnor .al 0#3 false 1 2 3), (0x00700103, .cntlz .al 0#3 false 1 3),
   (0x00800103, .cntlo .al 0#3 false 1 3), (0x00900103, .popcnt .al 0#3 false 1 3)] ++
  [(0x01003123, .add .al false true true 1 2 3), (0x01002123, .add .al false true false 1 2 3), (0x01100123, .sub .al false false false 1 2 3),
   (0x01201123, .addc .al false false true 1 2 3), (0x01300123, .subc .al false false false 1 2 3), (0x01400103, .neg .al false false false 1 3),
   (0x51400101, .neg .mi false false false 1 1), (0x01500120, .comp .al false false 1 2), (0x01600123, .mult .al false false 1 2 3),
   (0x01700123, .div .al false false 1 2 3), (0x0180124B, .rem .al false true 2 4 11), (0x01944123, .lmul .al false true false 4 1 2 3)] ++
  [(0x02000100, .rbra .al 0#3 1 none), (0x02001120, .rbra .al 0#3 1 (some 2)), (0x02100100, .rcall .al 0#3 1 none), (0x12200000, .ret .eq),
   (0xC8FFFFFB, .bra .lt 0xFFFFFB#24), (0x09FFFFCF, .call .al 0xFFFFCF#24)] ++
  [(0x0303E108, .load .al ⟨1, 3, .imm 8#8, true, true, false⟩), (0x0303B104, .load .al ⟨1, 3, .imm 4#8, false, true, true⟩),
   (0x03006123, .load .al ⟨1, 3, .reg 2, true, true, false⟩), (0x0311E105, .loadm .al ⟨1, 1, 5#8, true, true, true, false⟩),
   (0x0323E101, .loadb .al ⟨1, 3, .imm 1#8, true, true, false⟩), (0x0333E102, .loadh .al ⟨1, 3, .imm 2#8, true, true, false⟩),
   (0x03400003, .pop .al 3), (0x03538100, .loadbe .al ⟨1, 3, .imm 0#8, false, false, false⟩), (0x03600000, .popf .al),
   (0x03706123, .loadhe .al ⟨1, 3, .reg 2, true, true, false⟩)] ++
  [(0x0403B104, .stor .al ⟨1, 3, .imm 4#8, false, true, true⟩), (0x0411D103, .storm .al ⟨1, 1, 3#8, true, true, false, true⟩),
   (0x0423E101, .storb .al ⟨1, 3, .imm 1#8, true, true, false⟩), (0x0433E102, .storh .al ⟨1, 3, .imm 2#8, true, true, false⟩),
   (0x04400003, .push .al 3), (0x04500000, .pushpc .al), (0x04600000, .pushf .al)] ++
  [(0x16000000, .stop .eq), (0x06100000, .wait .al), (0x06200000, .switchm .al), (0x07051234, .movimm .al 5 0x1234#16),
   (0x07151234, .movuimm .al 5 0x1234#16), (0x07251234, .andimm .al 5 0x1234#16), (0x07355678, .orimm .al 5 0x5678#16),
   (0x07451234, .xorimm .al 5 0x1234#16), (0x07551234, .addimm .al 5 0x1234#16), (0x07610001, .subimm .al 1 1#16),
   (0x07751234, .compimm .al 5 0x1234#16)]

/-- R53 and the worked examples: each sample word decodes to the instruction it stands for, and every row of the table has one. -/
def Obligations.SampleWordsDecode : Prop :=
  (∀ p ∈ sampleWords, decodeWord p.1 = .ok p.2) ∧
  (∀ row ∈ opcodeRows.map Prod.fst ++ [0x08000000#32, 0x09000000#32], ∃ p ∈ sampleWords, p.2.rowMatch = row)

/-! ### The step -/

/-- R33, R36, R54: when the four bytes at the pc, the lowest address least significant, decode to an instruction, a step of the running
CPU is that instruction's execution, with nothing around it. -/
def Obligations.StepRunsDecodedInstruction : Prop :=
  ∀ (s : State) (b0 b1 b2 b3 : Byte) (i : Instr), s.run = .running → s.pc.toNat % 4 = 0 → s.mapped .fetch s.pc .word = true →
    s.mem.read s.pc.toNat = some b0 → s.mem.read (s.pc.toNat + 1) = some b1 → s.mem.read (s.pc.toNat + 2) = some b2 →
    s.mem.read (s.pc.toNat + 3) = some b3 → decodeWord (b3 ++ b2 ++ b1 ++ b0) = .ok i → step s = exec i s

/-- R38, R214 step 1: a fetch the platform does not accept raises AccessFault instead of executing anything; R241: a fetch of a byte
nothing has written is refused. That the refusal names the first such byte in address order is the model's choice (log entry 4). -/
def Obligations.FetchStops : Prop :=
  ∀ s : State, s.run = .running → s.pc.toNat % 4 = 0 →
    (s.mapped .fetch s.pc .word = false → step s = .fault (.trapped (.accessFault s.pc .fetch) s)) ∧
    (s.mapped .fetch s.pc .word = true → ∀ j, j < 4 → (∀ l, l < j → s.mem.read (s.pc.toNat + l) ≠ none) →
      s.mem.read (s.pc.toNat + j) = none → step s = .refused (.unwrittenRead (s.pc + BitVec.ofNat 32 j)))

/-- R62: the sixteen condition codes, by the number in the word. -/
def Obligations.ConditionCodesTestFlags : Prop :=
  ∀ (w : Word) (fl : Flags), fl.condHolds (condOf w) = true ↔
    (let k := (w.extractLsb' 28 4).toNat
     (k = 0) ∨ (k = 1 ∧ fl.z = true) ∨ (k = 2 ∧ fl.z = false) ∨ (k = 3 ∧ fl.c = true) ∨ (k = 4 ∧ fl.c = false) ∨
     (k = 5 ∧ fl.n = true) ∨ (k = 6 ∧ fl.n = false) ∨ (k = 7 ∧ fl.v = true) ∨ (k = 8 ∧ fl.v = false) ∨
     (k = 9 ∧ fl.c = true ∧ fl.z = false) ∨ (k = 10 ∧ (fl.c = false ∨ fl.z = true)) ∨ (k = 11 ∧ fl.n = fl.v) ∨
     (k = 12 ∧ fl.n ≠ fl.v) ∨ (k = 13 ∧ fl.z = false ∧ fl.n = fl.v) ∨ (k = 14 ∧ (fl.z = true ∨ fl.n ≠ fl.v)) ∨
     (k = 15 ∧ fl.z = true ∧ fl.n = true ∧ fl.v = true ∧ fl.c = true))

/-- R63: an instruction whose condition does not hold only moves the pc on, whatever it is. For operands that are refused when it holds
(`lmul` with DES2 = DEST, a colliding load, `pop r15`, the refusals of `loadm` and `storm`) R54 and R214 differ in wording: that the condition
comes before those refusals is the model's choice (log entry 11). -/
def Obligations.FalseConditionOnlyAdvances : Prop :=
  ∀ (i : Instr) (s : State), s.condHolds i.cond = false → exec i s = .next { s with pc := s.pc + 4#32 }

/-- R171, R227: a stopped CPU executes nothing and keeps everything. The spec has no notion of a step of a stopped CPU: that it is a next
state, the same one, is the model's choice (log entry 7). -/
def Obligations.StoppedExecutesNothing : Prop :=
  ∀ s : State, s.run = .stopped → step s = .next s

/-- R221, R227: a waiting CPU whose interrupt input is asserted leaves the waiting state and is interrupted; while it is not asserted
the CPU goes on waiting with all architectural state kept. The statement holds for every value of the free input; the sample counter is
the model's own (log entry 6), and that a step of a CPU that goes on waiting is a next state is the model's choice (log entry 7). -/
def Obligations.WaitingSamplesInterrupt : Prop :=
  ∀ s : State, s.run = .waiting →
    (Config.irqPending s.irqPolls = true →
      step s = .fault (.interrupted { s with run := .running, irqPolls := s.irqPolls + 1 })) ∧
    (Config.irqPending s.irqPolls = false → ∃ t, step s = .next t ∧ Frame [] s { t with irqPolls := s.irqPolls } ∧
      t.mem = s.mem ∧ t.flags = s.flags ∧ t.pc = s.pc ∧ t.irqPolls = s.irqPolls + 1)

/-- R22, R240: what reset leaves, on a platform that has loaded `mem`: supervisor mode, running, the pc at RESET_PC, a multiple of 4,
memory as loaded. (That RESET_PC is 0 and the registers and flags are 0 is the model's choice, log entries 1 to 3; this says nothing of
it.) -/
def Obligations.ResetState : Prop :=
  ∀ (mem : Memory) (un : List Region), (State.resetOn mem un).mode = .supervisor ∧ (State.resetOn mem un).run = .running ∧
    (State.resetOn mem un).pc = Config.resetPc ∧ Config.resetPc.toNat % 4 = 0 ∧ (State.resetOn mem un).mem = mem ∧
    State.reset = State.resetOn [] []

/-! ### Invariants and whole-machine rules -/

/-- The reset state meets the invariant. -/
def Obligations.ResetMeetsInvariant : Prop := State.reset.Inv

/-- R14 ("`pc` is always a multiple of 4") and the canonical form of memory: every step keeps the invariant. -/
def Obligations.StepKeepsInvariant : Prop :=
  ∀ s t : State, s.Inv → step s = .next t → t.Inv

/-- R213: exceptions are precise. Whatever the step, the state an exception hands over is the state before it, pc included. -/
def Obligations.ExceptionsArePrecise : Prop :=
  ∀ (s u : State) (e : Machine.Exception), step s = .fault (.trapped e u) → u = s

/-- R225: nothing in the instruction set changes User to Supervisor; `switchm` alone changes the mode. -/
def Obligations.ModeChangesOnlyBySwitchm : Prop :=
  ∀ (s t : State), step s = .next t → t.mode = s.mode ∨
    (s.mode = .supervisor ∧ t.mode = .user ∧ ∃ w c, s.fetch = .ok w ∧ decodeWord w = .ok (.switchm c))

/-- R19, R171, R172: a running CPU leaves the running state only by `stop` and `wait`, in supervisor mode; a stopped one never. -/
def Obligations.RunStateChangesOnlyByStopWait : Prop :=
  ∀ (s t : State), step s = .next t → t.run = s.run ∨
    (s.mode = .supervisor ∧ s.run = .running ∧ ∃ w c, s.fetch = .ok w ∧
      ((decodeWord w = .ok (.stop c) ∧ t.run = .stopped) ∨ (decodeWord w = .ok (.wait c) ∧ t.run = .waiting)))

/-- R16: no instruction but a flag-setting one, `comp`, `compimm` and `popf` writes a flag. -/
def Obligations.FlagsWrittenOnlyAsListed : Prop :=
  ∀ (i : Instr) (s t : State), writesFlags i = false → exec i s = .next t → t.flags = s.flags

/-- R30, R32: only the store group, `call` and `rcall` change memory. -/
def Obligations.MemoryWrittenOnlyByStores : Prop :=
  ∀ (i : Instr) (s t : State), storesToMemory i = false → exec i s = .next t → MemKept s t

/-- R39: no step changes the platform's map (log entry 5), nor, while running, the count of interrupt samples. -/
def Obligations.PlatformIsFixed : Prop :=
  ∀ s t : State, step s = .next t → t.unmapped = s.unmapped ∧ (s.run = .running → t.irqPolls = s.irqPolls)

/-- R38: a byte every write to which the platform refuses in the current mode is changed by no step. The list of regions is the model's
form of `Mapped` (log entry 5). -/
def Obligations.ProtectedBytesNeverWritten : Prop :=
  ∀ (s t : State) (r : Region) (k : Nat), r ∈ s.unmapped → r.size = none → (r.kind = none ∨ r.kind = some .write) →
    (r.mode = none ∨ r.mode = some s.mode) → r.first ≤ k → k ≤ r.last → step s = .next t → t.mem.read k = s.mem.read k

/-- R225: on a platform whose map does not depend on the mode, every instruction but the three of CPU control behaves identically in
both modes. -/
def Obligations.ModesBehaveIdentically : Prop :=
  ∀ (i : Instr) (s : State), ¬ cpuControl i → (∀ r ∈ s.unmapped, r.mode = none) →
    exec i { s with mode := .user } = withMode .user (exec i { s with mode := .supervisor })

/-- R111, R132, R133, R138: an instruction whose operands the spec gives no meaning is refused when its condition holds; and those are the
only instructions that are refused for their operands: a well-formed one is refused only for a byte nothing has written (R241). The premise that the condition holds rests on log entry 11 (R54 and
R214 differ in wording): the model's choice. -/
def Obligations.IllFormedOperandsRefused : Prop :=
  ∀ (i : Instr) (s : State), s.condHolds i.cond = true →
    (i.wellFormed = false → exec i s = .refused .lmulSameDest ∨ exec i s = .refused .loadBaseCollision ∨ exec i s = .refused .popSP ∨
      exec i s = .refused .multiDes2 ∨ exec i s = .refused .multiBaseInList) ∧
    (i.wellFormed = true → ∀ r, exec i s = .refused r → ∃ a, r = .unwrittenRead a ∧ s.mem.read a.toNat = none)

/-! ### Logical group -/

/-- R80 to R87: `and`, `or`, `xor`, `nand`, `not`, `nor`, `xnor`: the result, Z and N when F=1, and nothing else but the pc. -/
def Obligations.LogicalResults : Prop :=
  ∀ (s : State) (c : Cond) (x : BitVec 3) (f : Bool) (a b d : Reg) (i : Instr) (r : Word),
    (i, r) ∈ [(Instr.and c x f a b d, s.reg a &&& s.reg b), (.or c x f a b d, s.reg a ||| s.reg b),
      (.xor c x f a b d, s.reg a ^^^ s.reg b), (.nand c x f a b d, ~~~(s.reg a &&& s.reg b)), (.not c x f a d, ~~~(s.reg a)),
      (.nor c x f a b d, ~~~(s.reg a ||| s.reg b)), (.xnor c x f a b d, ~~~(s.reg a ^^^ s.reg b))] →
    s.condHolds c = true →
    ∃ t, exec i s = .next t ∧ t.reg d = r ∧ Frame [d] s t ∧ MemKept s t ∧ t.pc = s.pc + 4#32 ∧
      t.flags = flagsZN f s.flags (decide (r = 0#32)) (r.getLsbD 31)

/-- R88, R89, R90: `cntlz` and `cntlo` count the leading 0 or 1 bits from bit 31 downward, 0 to 32; `popcnt` counts all 1 bits; Z and N of
the count when F=1. -/
def Obligations.CountResults : Prop :=
  ∀ (s : State) (c : Cond) (x : BitVec 3) (f : Bool) (a d : Reg), s.condHolds c = true →
    (∀ (i : Instr) (bit : Bool), (i, bit) ∈ [(Instr.cntlz c x f a d, false), (.cntlo c x f a d, true)] →
      ∃ t, ∃ n : Nat, exec i s = .next t ∧ n ≤ 32 ∧ (∀ k, k < n → (s.reg a).getLsbD (31 - k) = bit) ∧
        (n < 32 → (s.reg a).getLsbD (31 - n) = !bit) ∧ t.reg d = BitVec.ofNat 32 n ∧ Frame [d] s t ∧ MemKept s t ∧
        t.pc = s.pc + 4#32 ∧ t.flags = flagsZN f s.flags (decide (n = 0)) false) ∧
    (∃ t, ∃ n : Nat, exec (.popcnt c x f a d) s = .next t ∧ n = ((List.range 32).filter fun k => (s.reg a).getLsbD k).length ∧
      t.reg d = BitVec.ofNat 32 n ∧ Frame [d] s t ∧ MemKept s t ∧ t.pc = s.pc + 4#32 ∧
      t.flags = flagsZN f s.flags (decide (s.reg a = 0#32)) false)

/-! ### Arithmetic group -/

/-- R100: after a subtraction `AddWithCarry(a, ~b, 1)` the result is the difference, `c` is 1 exactly when there is no borrow and `v`
exactly when the true signed difference does not fit; and the result is the exact sum of the three inputs modulo 2^32. -/
def Obligations.AddWithCarryIsExact : Prop :=
  ∀ (a b : Word) (cin : Bool),
    (addWithCarry a b cin).1.toNat = (a.toNat + b.toNat + cin.toNat) % 2 ^ 32 ∧
    ((addWithCarry a b cin).2.c = true ↔ 2 ^ 32 ≤ a.toNat + b.toNat + cin.toNat) ∧
    ((addWithCarry a b cin).2.v = true ↔
      a.toInt + b.toInt + cin.toNat < -2 ^ 31 ∨ 2 ^ 31 ≤ a.toInt + b.toInt + (cin.toNat : Int)) ∧
    (addWithCarry a (~~~b) true).1 = a - b ∧
    ((addWithCarry a (~~~b) true).2.c = true ↔ b.toNat ≤ a.toNat) ∧
    ((addWithCarry a (~~~b) true).2.v = true ↔ a.toInt - b.toInt < -2 ^ 31 ∨ 2 ^ 31 ≤ a.toInt - b.toInt) ∧
    ((addWithCarry a (~~~b) true).2.z = true ↔ a = b)

/-- R101 to R106, R212: `add`, `sub`, `addc`, `subc`, `neg`, through the exact signed result `e`: the result modulo 2^32, all four flags when
F=1 (`cy` is the carry, the inverted borrow for the subtractions), and with O=1 the trap Overflow instead when `e` does not fit. -/
def Obligations.AdditiveResults : Prop :=
  ∀ (s : State) (c : Cond) (x o f : Bool) (a b d : Reg) (i : Instr) (e : Int) (cy : Bool),
    (i, e, cy) ∈ [(Instr.add c x o f a b d, (s.reg a).toInt + (s.reg b).toInt, decide (2 ^ 32 ≤ (s.reg a).toNat + (s.reg b).toNat)),
      (.sub c x o f a b d, (s.reg a).toInt - (s.reg b).toInt, decide ((s.reg b).toNat ≤ (s.reg a).toNat)),
      (.addc c x o f a b d, (s.reg a).toInt + (s.reg b).toInt + s.flags.c.toNat,
        decide (2 ^ 32 ≤ (s.reg a).toNat + (s.reg b).toNat + s.flags.c.toNat)),
      (.subc c x o f a b d, (s.reg a).toInt - (s.reg b).toInt - (1 - s.flags.c.toNat),
        decide ((s.reg b).toNat + (1 - s.flags.c.toNat) ≤ (s.reg a).toNat)),
      (.neg c x o f a d, -(s.reg a).toInt, decide (s.reg a = 0#32))] →
    s.condHolds c = true →
    (o = false ∨ (BitVec.ofInt 32 e).toInt = e → ∃ t, exec i s = .next t ∧ t.reg d = BitVec.ofInt 32 e ∧ Frame [d] s t ∧
      MemKept s t ∧ t.pc = s.pc + 4#32 ∧
      t.flags = if f then
        ⟨decide (BitVec.ofInt 32 e = 0#32), (BitVec.ofInt 32 e).msb, decide ((BitVec.ofInt 32 e).toInt ≠ e), cy⟩ else s.flags) ∧
    (o = true → (BitVec.ofInt 32 e).toInt ≠ e → exec i s = .fault (.trapped (.overflow (encode i)) s))

/-- R212: only `add`, `sub`, `addc`, `subc`, `neg` and `comp` raise Overflow, and only with O=1; with O=0 they complete, and an overflow shows in
V alone, when F=1 (`comp`: always). -/
def Obligations.OverflowOnlyWithO : Prop :=
  (∀ (i : Instr) (s u : State) (w : Word), exec i s = .fault (.trapped (.overflow w) u) →
    w = encode i ∧ ∃ c x f a b d, i ∈ [Instr.add c x true f a b d, .sub c x true f a b d, .addc c x true f a b d, .subc c x true f a b d,
      .neg c x true f a d, .comp c x true a b]) ∧
  (∀ (s : State) (c : Cond) (x f g : Bool) (a b d : Reg) (i : Instr) (e : Int),
    (i, e, g) ∈ [(Instr.add c x false f a b d, (s.reg a).toInt + (s.reg b).toInt, f),
      (.sub c x false f a b d, (s.reg a).toInt - (s.reg b).toInt, f),
      (.addc c x false f a b d, (s.reg a).toInt + (s.reg b).toInt + s.flags.c.toNat, f),
      (.subc c x false f a b d, (s.reg a).toInt - (s.reg b).toInt - (1 - s.flags.c.toNat), f),
      (.neg c x false f a d, -(s.reg a).toInt, f), (.comp c x false a b, (s.reg a).toInt - (s.reg b).toInt, true)] →
    s.condHolds c = true →
    ∃ t, exec i s = .next t ∧ t.flags.v = if g then decide ((BitVec.ofInt 32 e).toInt ≠ e) else s.flags.v)

/-- R107, R188: `comp` and `compimm` write the four flags of the difference, always, and no register; `comp` with O=1 traps instead when the
signed difference does not fit. -/
def Obligations.CompareResults : Prop :=
  ∀ (s : State) (c : Cond) (x o : Bool) (a b : Reg) (n : BitVec 16) (i : Instr) (p q : Word) (trap : Bool),
    (i, p, q, trap) ∈ [(Instr.comp c x o a b, s.reg a, s.reg b, o), (.compimm c a n, s.reg a, n.zeroExtend 32, false)] →
    s.condHolds c = true →
    (trap = false ∨ (p - q).toInt = p.toInt - q.toInt → ∃ t, exec i s = .next t ∧ Frame [] s t ∧ MemKept s t ∧ t.pc = s.pc + 4#32 ∧
      t.flags = ⟨decide (p = q), (p - q).msb, decide ((p - q).toInt ≠ p.toInt - q.toInt), decide (q.toNat ≤ p.toNat)⟩) ∧
    (trap = true → (p - q).toInt ≠ p.toInt - q.toInt → exec i s = .fault (.trapped (.overflow (encode i)) s))

/-- R107: after `comp rA, rB` or `compimm` the condition suffixes mean what the condition table says of A relative to B, signed and
unsigned. -/
def Obligations.CompareConditionsMeanOrder : Prop :=
  ∀ (s : State) (c : Cond) (x : Bool) (a b : Reg) (n : BitVec 16) (i : Instr) (p q : Word),
    (i, p, q) ∈ [(Instr.comp c x false a b, s.reg a, s.reg b), (.compimm c a n, s.reg a, n.zeroExtend 32)] → s.condHolds c = true →
    ∃ t, exec i s = .next t ∧
      (t.condHolds .eq = true ↔ p = q) ∧ (t.condHolds .ne = true ↔ p ≠ q) ∧
      (t.condHolds .hs = true ↔ q.toNat ≤ p.toNat) ∧ (t.condHolds .lo = true ↔ p.toNat < q.toNat) ∧
      (t.condHolds .hi = true ↔ q.toNat < p.toNat) ∧ (t.condHolds .ls = true ↔ p.toNat ≤ q.toNat) ∧
      (t.condHolds .ge = true ↔ q.toInt ≤ p.toInt) ∧ (t.condHolds .lt = true ↔ p.toInt < q.toInt) ∧
      (t.condHolds .gt = true ↔ q.toInt < p.toInt) ∧ (t.condHolds .le = true ↔ p.toInt ≤ q.toInt)

/-- R104: "A 64-bit add is `add lo {F}` then `addc hi`": two instructions that write other registers than they still read add two 64-bit
numbers. -/
def Obligations.TwoWordAddition : Prop :=
  ∀ (s : State) (x y z : Bool) (lo1 hi1 lo2 hi2 : Reg), lo1 ≠ hi1 → lo1 ≠ hi2 →
    ∃ t u, exec (.add .al x false true lo1 lo2 lo1) s = .next t ∧ exec (.addc .al y false z hi1 hi2 hi1) t = .next u ∧
      u.reg hi1 ++ u.reg lo1 = (s.reg hi1 ++ s.reg lo1 : BitVec 64) + (s.reg hi2 ++ s.reg lo2)

/-- R108: `mult`, the low 32 bits of the product, the same for signed and unsigned operands; Z and N when F=1; never a trap. -/
def Obligations.MultResult : Prop :=
  ∀ (s : State) (c : Cond) (x f : Bool) (a b d : Reg), s.condHolds c = true →
    ∃ t, exec (.mult c x f a b d) s = .next t ∧ (t.reg d).toNat = (s.reg a).toNat * (s.reg b).toNat % 2 ^ 32 ∧
      t.reg d = BitVec.ofInt 32 ((s.reg a).toInt * (s.reg b).toInt) ∧ Frame [d] s t ∧ MemKept s t ∧ t.pc = s.pc + 4#32 ∧
      t.flags = flagsZN f s.flags (decide (t.reg d = 0#32)) ((t.reg d).getLsbD 31)

/-- R109, R110: `div` and `rem` of the same operands are the unsigned quotient and remainder, with `a = q*b + r`, `r < b`; Z and N when F=1;
a zero divisor raises DivideByZero. -/
def Obligations.DivRemResults : Prop :=
  ∀ (s : State) (c : Cond) (x f : Bool) (a b d : Reg), s.condHolds c = true →
    (s.reg b ≠ 0#32 → ∃ t u, exec (.div c x f a b d) s = .next t ∧ exec (.rem c x f a b d) s = .next u ∧
      (s.reg a).toNat = (t.reg d).toNat * (s.reg b).toNat + (u.reg d).toNat ∧ (u.reg d).toNat < (s.reg b).toNat ∧
      Frame [d] s t ∧ MemKept s t ∧ t.pc = s.pc + 4#32 ∧ t.flags = flagsZN f s.flags (decide (t.reg d = 0#32)) ((t.reg d).getLsbD 31) ∧
      Frame [d] s u ∧ MemKept s u ∧ u.pc = s.pc + 4#32 ∧ u.flags = flagsZN f s.flags (decide (u.reg d = 0#32)) ((u.reg d).getLsbD 31)) ∧
    (s.reg b = 0#32 → exec (.div c x f a b d) s = .fault (.trapped (.divideByZero (encode (.div c x f a b d))) s) ∧
      exec (.rem c x f a b d) s = .fault (.trapped (.divideByZero (encode (.rem c x f a b d))) s))

/-- R111: `lmul`, the exact 64-bit product, unsigned when S=0 and signed when S=1, high half in DES2 and low half in DEST; Z and N of the
64-bit product when F=1; DES2 = DEST is refused. -/
def Obligations.LmulResult : Prop :=
  ∀ (s : State) (c : Cond) (x sg f : Bool) (h a b d : Reg), s.condHolds c = true →
    (h ≠ d → ∃ t, exec (.lmul c x sg f h a b d) s = .next t ∧
      (sg = false → (t.reg h).toNat * 2 ^ 32 + (t.reg d).toNat = (s.reg a).toNat * (s.reg b).toNat) ∧
      (sg = true → (t.reg h).toInt * 2 ^ 32 + (t.reg d).toNat = (s.reg a).toInt * (s.reg b).toInt) ∧
      Frame [h, d] s t ∧ MemKept s t ∧ t.pc = s.pc + 4#32 ∧
      t.flags = flagsZN f s.flags (decide (t.reg h = 0#32 ∧ t.reg d = 0#32)) ((t.reg h).getLsbD 31)) ∧
    (h = d → exec (.lmul c x sg f h a b d) s = .refused .lmulSameDest)

/-! ### Immediate group -/

/-- R180 to R187: the seven immediate instructions that write a register, their immediate zero-extended (shifted left by 16 for `movuimm`);
no flag. -/
def Obligations.ImmediateResults : Prop :=
  ∀ (s : State) (c : Cond) (d : Reg) (n : BitVec 16) (i : Instr) (r : Word),
    (i, r) ∈ [(Instr.movimm c d n, BitVec.ofNat 32 n.toNat), (.movuimm c d n, BitVec.ofNat 32 (n.toNat * 2 ^ 16)),
      (.andimm c d n, s.reg d &&& BitVec.ofNat 32 n.toNat), (.orimm c d n, s.reg d ||| BitVec.ofNat 32 n.toNat),
      (.xorimm c d n, s.reg d ^^^ BitVec.ofNat 32 n.toNat), (.addimm c d n, s.reg d + BitVec.ofNat 32 n.toNat),
      (.subimm c d n, s.reg d - BitVec.ofNat 32 n.toNat)] →
    s.condHolds c = true →
    ∃ t, exec i s = .next t ∧ t.reg d = r ∧ Frame [d] s t ∧ MemKept s t ∧ t.pc = s.pc + 4#32 ∧ t.flags = s.flags

/-- R182: a full 32-bit constant is built by `movuimm rD, #K[31:16]` then `orimm rD, #K[15:0]`. -/
def Obligations.MovuimmOrimmBuildConstant : Prop :=
  ∀ (s : State) (c : Cond) (d : Reg) (k : Word), s.condHolds c = true →
    ∃ t u, exec (.movuimm c d (k.extractLsb' 16 16)) s = .next t ∧ exec (.orimm c d (k.extractLsb' 0 16)) t = .next u ∧
      u.reg d = k ∧ Frame [d] s u

/-! ### Control flow -/

/-- R61, R200, R201: `bra` goes to the address of the next instruction plus four times the signed 24-bit field, modulo 2^32. -/
def Obligations.BraResult : Prop :=
  ∀ (s : State) (c : Cond) (off : BitVec 24), s.condHolds c = true →
    ∃ t, exec (.bra c off) s = .next t ∧ t.pc = BitVec.ofInt 32 (s.pc.toNat + 4 + 4 * off.toInt) ∧
      Frame [] s t ∧ MemKept s t ∧ t.flags = s.flags

/-- R120, R121: `rbra` goes to SRC1, or to SRC1 plus SRC2 when O=1; a target that is no multiple of 4 raises
InstructionAddressMisaligned and changes nothing. -/
def Obligations.RbraResult : Prop :=
  ∀ (s : State) (c : Cond) (x : BitVec 3) (a b : Reg) (o : Option Reg) (p : Word),
    (o, p) ∈ [(none, s.reg a), (some b, s.reg a + s.reg b)] → s.condHolds c = true →
    (p.toNat % 4 = 0 → ∃ t, exec (.rbra c x a o) s = .next t ∧ t.pc = p ∧ Frame [] s t ∧ MemKept s t ∧ t.flags = s.flags) ∧
    (p.toNat % 4 ≠ 0 → exec (.rbra c x a o) s = .fault (.trapped (.instructionAddressMisaligned p) s))

/-- R120, R122: `rcall` pushes the address of the next instruction and goes to its target, computed from the registers before the push; the
check of the target comes first, then those of the push. -/
def Obligations.RcallResult : Prop :=
  ∀ (s : State) (c : Cond) (x : BitVec 3) (a b : Reg) (o : Option Reg) (p : Word),
    (o, p) ∈ [(none, s.reg a), (some b, s.reg a + s.reg b)] → s.condHolds c = true →
    (p.toNat % 4 = 0 → (s.reg 15 - 4#32).toNat % 4 = 0 → s.mapped .write (s.reg 15 - 4#32) .word = true →
      PushCompletes (.rcall c x a o) s (s.pc + 4#32) p) ∧
    (p.toNat % 4 = 0 → AccessTraps (.rcall c x a o) s .write (s.reg 15 - 4#32) .word) ∧
    (p.toNat % 4 ≠ 0 → exec (.rcall c x a o) s = .fault (.trapped (.instructionAddressMisaligned p) s))

/-- R200, R202: `call` pushes the address of the next instruction and goes to that address plus four times the signed 24-bit field, modulo
2^32, a multiple of 4 like the pc; the exceptions of the push are its only ones. -/
def Obligations.CallResult : Prop :=
  ∀ (s : State) (c : Cond) (off : BitVec 24), s.condHolds c = true →
    ((s.reg 15 - 4#32).toNat % 4 = 0 → s.mapped .write (s.reg 15 - 4#32) .word = true →
      PushCompletes (.call c off) s (s.pc + 4#32) (BitVec.ofInt 32 (s.pc.toNat + 4 + 4 * off.toInt))) ∧
    AccessTraps (.call c off) s .write (s.reg 15 - 4#32) .word ∧
    (s.pc.toNat % 4 = 0 → (BitVec.ofInt 32 (s.pc.toNat + 4 + 4 * off.toInt)).toNat % 4 = 0)

/-- R123, R131: `ret` pops the word at the stack pointer into the pc; the faults of the read leave everything, and a popped target that is
no multiple of 4 raises InstructionAddressMisaligned. -/
def Obligations.RetResult : Prop :=
  ∀ (s : State) (c : Cond), s.condHolds c = true →
    (∀ v, (s.reg 15).toNat % 4 = 0 → s.mapped .read (s.reg 15) .word = true → Holds s.mem (s.reg 15) 4 v →
      (v.toNat % 4 = 0 → ∃ t, exec (.ret c) s = .next t ∧ t.pc = v ∧ t.reg 15 = s.reg 15 + 4#32 ∧ Frame [15] s t ∧ MemKept s t ∧
        t.flags = s.flags) ∧
      (v.toNat % 4 ≠ 0 → exec (.ret c) s = .fault (.trapped (.instructionAddressMisaligned v) s))) ∧
    AccessTraps (.ret c) s .read (s.reg 15) .word

/-- R123, R122, R202: `ret` undoes the push of `call` and `rcall`: it returns to the instruction after the call with the stack pointer as before
it. -/
def Obligations.RetReturnsAfterCall : Prop :=
  ∀ (s t : State) (i : Instr) (c d : Cond) (x : BitVec 3) (a : Reg) (o : Option Reg) (off : BitVec 24),
    i = .call c off ∨ i = .rcall c x a o → s.condHolds c = true → s.condHolds d = true → s.pc.toNat % 4 = 0 →
    exec i s = .next t → s.mapped .read (s.reg 15 - 4#32) .word = true →
    ∃ u, exec (.ret d) t = .next u ∧ u.pc = s.pc + 4#32 ∧ (∀ r, u.reg r = s.reg r) ∧ u.flags = s.flags ∧ MemKept t u

/-! ### Loads -/

/-- R130: the address and the new base of a single load or store: U selects the direction, P whether the address is the new base, an
immediate is an unsigned byte count. -/
def Obligations.SingleAddressing : Prop :=
  ∀ (a : Single) (s : State) (o : Word),
    (∀ r, a.offset = .reg r → o = s.reg r) → (∀ v, a.offset = .imm v → o = BitVec.ofNat 32 v.toNat) →
    newBase a s = (if a.up then s.reg a.base + o else s.reg a.base - o) ∧
    accessAddr a s = (if a.pre then (if a.up then s.reg a.base + o else s.reg a.base - o) else s.reg a.base)

/-- R132, R134, R136, R137, R139, R141: the five single loads: the value of the bytes at the address, zero- or sign-extended, in the data
register, and the new base when W=1; the exceptions of their access; a colliding load is refused. -/
def Obligations.SingleLoadResults : Prop :=
  ∀ (s : State) (c : Cond) (a : Single), s.condHolds c = true →
    (a.collides = false →
      (∀ b0, s.mem.read (accessAddr a s).toNat = some b0 → s.mapped .read (accessAddr a s) .byte = true →
        LoadCompletes (.loadb c a) a s (b0.zeroExtend 32) ∧ LoadCompletes (.loadbe c a) a s (b0.signExtend 32)) ∧
      (∀ b0 b1, (accessAddr a s).toNat % 2 = 0 → s.mem.read (accessAddr a s).toNat = some b0 →
        s.mem.read ((accessAddr a s).toNat + 1) = some b1 → s.mapped .read (accessAddr a s) .half = true →
        LoadCompletes (.loadh c a) a s ((b1 ++ b0).zeroExtend 32) ∧ LoadCompletes (.loadhe c a) a s ((b1 ++ b0).signExtend 32)) ∧
      (∀ v, (accessAddr a s).toNat % 4 = 0 → Holds s.mem (accessAddr a s) 4 v → s.mapped .read (accessAddr a s) .word = true →
        LoadCompletes (.load c a) a s v) ∧
      AccessTraps (.loadb c a) s .read (accessAddr a s) .byte ∧ AccessTraps (.loadbe c a) s .read (accessAddr a s) .byte ∧
      AccessTraps (.loadh c a) s .read (accessAddr a s) .half ∧ AccessTraps (.loadhe c a) s .read (accessAddr a s) .half ∧
      AccessTraps (.load c a) s .read (accessAddr a s) .word) ∧
    (a.collides = true → ∀ i ∈ [Instr.load c a, .loadb c a, .loadh c a, .loadbe c a, .loadhe c a],
      exec i s = .refused .loadBaseCollision)

/-- R241: a data read of a byte that nothing has written is refused, at the first such byte: the single loads, `pop`, `popf` and `ret`, and
`loadm` at the first word of its block with such a byte. R241 does not say which byte is named: that it is the first in address order
(log entry 4), and that all access checks come before it (log entry 13), is the model's choice. -/
def Obligations.UnwrittenReadsRefused : Prop :=
  ∀ (s : State) (c : Cond), s.condHolds c = true →
    (∀ (a : Single) (d : Reg) (i : Instr) (n : Size) (p : Word),
      (i, n, p) ∈ [(Instr.load c a, Size.word, accessAddr a s), (.loadb c a, .byte, accessAddr a s),
        (.loadh c a, .half, accessAddr a s), (.loadbe c a, .byte, accessAddr a s), (.loadhe c a, .half, accessAddr a s),
        (.pop c d, .word, s.reg 15), (.popf c, .word, s.reg 15), (.ret c, .word, s.reg 15)] →
      a.collides = false → d ≠ 15 → p.toNat % n.bytes = 0 → s.mapped .read p n = true → UnwrittenRefused i s p n) ∧
    (∀ (m : Multi) (k : Nat), m.wellFormed = true → BlockAccepted m s .read → k < m.regs.length →
      (∀ l, l < k → ∀ j, j < 4 → s.mem.read ((blockWord m s l).toNat + j) ≠ none) →
      UnwrittenRefused (.loadm c m) s (blockWord m s k) .word)

/-- R60: the register set of `loadm` and `storm`: ascending, and exactly the registers `i + 8H` of the bits `i` set in the list. -/
def Obligations.MultiRegisterSet : Prop :=
  ∀ m : Multi, m.regs.Pairwise (· < ·) ∧ m.regs.length ≤ 8 ∧
    ∀ r : Reg, r ∈ m.regs ↔ ∃ i, i < 8 ∧ m.list.getLsbD i = true ∧ r.val = if m.high then i + 8 else i

/-- R133: where U and P place a block of `n` words and the new base. -/
def Obligations.MultiBlockPlacement : Prop :=
  ∀ (m : Multi) (s : State) (n : Nat), n = m.regs.length →
    (m.up = true → m.pre = false → blockStart m s = s.reg m.base) ∧
    (m.up = true → m.pre = true → blockStart m s = s.reg m.base + 4#32) ∧
    (m.up = false → m.pre = false → blockStart m s = s.reg m.base - BitVec.ofNat 32 (4 * n) + 4#32) ∧
    (m.up = false → m.pre = true → blockStart m s = s.reg m.base - BitVec.ofNat 32 (4 * n)) ∧
    blockNew m s = (if m.up then s.reg m.base + BitVec.ofNat 32 (4 * n) else s.reg m.base - BitVec.ofNat 32 (4 * n))

/-- R133, R135: `loadm` loads the words of the block into the listed registers in order, and the new base when W=1; its checks come before
any register is written; its refusals. Two points are the model's choice: MultiDes2 also where the base is in the list with W=1 (log entry
12), and that an AccessFault records the first word in ascending order that the platform does not accept (log entry 13). -/
def Obligations.LoadmResult : Prop :=
  ∀ (s : State) (c : Cond) (m : Multi), s.condHolds c = true →
    (m.wellFormed = true → ∀ vs : List Word, vs.length = m.regs.length → BlockAccepted m s .read →
      (∀ k (h : k < vs.length), Holds s.mem (blockWord m s k) 4 vs[k]) →
      ∃ t, exec (.loadm c m) s = .next t ∧ (∀ k (h : k < vs.length) (h' : k < m.regs.length), t.reg m.regs[k] = vs[k]) ∧
        (m.wb = true → t.reg m.base = blockNew m s) ∧ Frame (if m.wb then m.base :: m.regs else m.regs) s t ∧ MemKept s t ∧
        t.flags = s.flags ∧ t.pc = s.pc + 4#32) ∧
    (m.wellFormed = true → BlockTraps (.loadm c m) m s .read) ∧
    (m.des2 ≠ m.base → exec (.loadm c m) s = .refused .multiDes2) ∧
    (m.des2 = m.base → m.wb = true → m.base ∈ m.regs → exec (.loadm c m) s = .refused .multiBaseInList)

/-- R131, R138, R140: `pop` and `popf` read the word at the stack pointer and move it up by 4; `popf` writes the four flags from bits 3 to 0,
ignoring the rest; `pop r15` is refused; the exceptions of the read. -/
def Obligations.PopResults : Prop :=
  ∀ (s : State) (c : Cond) (d : Reg), s.condHolds c = true →
    (∀ v, (s.reg 15).toNat % 4 = 0 → s.mapped .read (s.reg 15) .word = true → Holds s.mem (s.reg 15) 4 v →
      (d ≠ 15 → ∃ t, exec (.pop c d) s = .next t ∧ t.reg d = v ∧ t.reg 15 = s.reg 15 + 4#32 ∧ Frame [d, 15] s t ∧ MemKept s t ∧
        t.flags = s.flags ∧ t.pc = s.pc + 4#32) ∧
      (∃ t, exec (.popf c) s = .next t ∧ t.flags = { z := v.getLsbD 3, n := v.getLsbD 2, v := v.getLsbD 1, c := v.getLsbD 0 } ∧
        t.reg 15 = s.reg 15 + 4#32 ∧ Frame [15] s t ∧ MemKept s t ∧ t.pc = s.pc + 4#32)) ∧
    (d ≠ 15 → AccessTraps (.pop c d) s .read (s.reg 15) .word) ∧ AccessTraps (.popf c) s .read (s.reg 15) .word ∧
    exec (.pop c 15) s = .refused .popSP

/-! ### Stores -/

/-- R150, R152, R154, R155: the three single stores: the low bytes of the register's value before the write-back, at the address computed, the
new base when W=1, and no other byte; the exceptions of their access. -/
def Obligations.SingleStoreResults : Prop :=
  ∀ (s : State) (c : Cond) (a : Single) (i : Instr) (n : Size),
    (i, n) ∈ [(Instr.stor c a, Size.word), (.storh c a, .half), (.storb c a, .byte)] → s.condHolds c = true →
    ((accessAddr a s).toNat % n.bytes = 0 → s.mapped .write (accessAddr a s) n = true →
      ∃ t, exec i s = .next t ∧ Holds t.mem (accessAddr a s) n.bytes (s.reg a.data) ∧ MemKeptOutside (accessAddr a s) n.bytes s t ∧
        (a.wb = true → t.reg a.base = newBase a s) ∧ Frame (if a.wb then [a.base] else []) s t ∧ t.flags = s.flags ∧
        t.pc = s.pc + 4#32) ∧
    AccessTraps i s .write (accessAddr a s) n

/-- R133, R153: `storm` stores the listed registers at the words of the block in order, and the new base when W=1, and no other byte; all
checks come before the first write; its refusals. Two points are the model's choice: MultiDes2 also where the base is in the list with W=1
(log entry 12), and that an AccessFault records the first word in ascending order that the platform does not accept (log entry 13). -/
def Obligations.StormResult : Prop :=
  ∀ (s : State) (c : Cond) (m : Multi), s.condHolds c = true →
    (m.wellFormed = true → BlockAccepted m s .write →
      ∃ t, exec (.storm c m) s = .next t ∧
        (∀ k (h : k < m.regs.length), Holds t.mem (blockWord m s k) 4 (s.reg m.regs[k])) ∧
        (∀ j, (∀ k, k < m.regs.length → j < (blockWord m s k).toNat ∨ (blockWord m s k).toNat + 4 ≤ j) →
          t.mem.read j = s.mem.read j) ∧
        (m.wb = true → t.reg m.base = blockNew m s) ∧ Frame (if m.wb then [m.base] else []) s t ∧ t.flags = s.flags ∧
        t.pc = s.pc + 4#32) ∧
    (m.wellFormed = true → BlockTraps (.storm c m) m s .write) ∧
    (m.des2 ≠ m.base → exec (.storm c m) s = .refused .multiDes2) ∧
    (m.des2 = m.base → m.wb = true → m.base ∈ m.regs → exec (.storm c m) s = .refused .multiBaseInList)

/-- R151, R156, R157, R158: `push`, `pushpc` and `pushf` store the register's value before the decrement, the address of the next instruction,
or the flags word, below the stack pointer, and move it there; the exceptions of the store. -/
def Obligations.PushResults : Prop :=
  ∀ (s : State) (c : Cond) (d : Reg) (i : Instr) (v : Word),
    (i, v) ∈ [(Instr.push c d, s.reg d), (.pushpc c, s.pc + 4#32),
      (.pushf c, BitVec.ofNat 32 (8 * s.flags.z.toNat + 4 * s.flags.n.toNat + 2 * s.flags.v.toNat + s.flags.c.toNat))] →
    s.condHolds c = true →
    ((s.reg 15 - 4#32).toNat % 4 = 0 → s.mapped .write (s.reg 15 - 4#32) .word = true → PushCompletes i s v (s.pc + 4#32)) ∧
    AccessTraps i s .write (s.reg 15 - 4#32) .word

/-- R158: "`pushf` then `popf` leaves the flags as they were": even when the flags were changed in between. -/
def Obligations.PopfRestoresPushedFlags : Prop :=
  ∀ (s t : State) (c d : Cond) (fl : Flags), s.condHolds c = true → fl.condHolds d = true → exec (.pushf c) s = .next t →
    s.mapped .read (s.reg 15 - 4#32) .word = true →
    ∃ u, exec (.popf d) (t.setFlags fl) = .next u ∧ u.flags = s.flags ∧ (∀ r, u.reg r = s.reg r) ∧ MemKept t u

/-- R133, R153: `storm {PW}` on `r15` leaves the same memory and registers as pushing the listed registers one by one, the highest first. -/
def Obligations.StormEqualsPushes : Prop :=
  ∀ (s t : State) (c : Cond) (m : Multi), s.condHolds c = true → m.base = 15 → m.up = false → m.pre = true → m.wb = true →
    exec (.storm c m) s = .next t →
    ∃ u, pushEach c m.regs.reverse s = .next u ∧ (∀ k, u.mem.read k = t.mem.read k) ∧ (∀ r, u.reg r = t.reg r) ∧
      u.flags = t.flags ∧ u.mode = t.mode ∧ u.run = t.run

/-! ### Memory -/

/-- R33, R34: a narrower access sees the bytes a wider store left, the byte at the lowest address being bits 7-0; a read of the same width
gives the value stored. -/
def Obligations.NarrowReadsSeeWideStore : Prop :=
  ∀ (s t : State) (a v : Word), s.writeMem a .word v = .ok t →
    (s.mapped .read a .word = true → t.readMem .read a .word = .ok v) ∧
    (∀ j, j < 4 → s.mapped .read (a + BitVec.ofNat 32 j) .byte = true →
      t.readMem .read (a + BitVec.ofNat 32 j) .byte = .ok ((v.extractLsb' (8 * j) 8).zeroExtend 32)) ∧
    (∀ j, j < 2 → s.mapped .read (a + BitVec.ofNat 32 (2 * j)) .half = true →
      t.readMem .read (a + BitVec.ofNat 32 (2 * j)) .half = .ok ((v.extractLsb' (16 * j) 16).zeroExtend 32))

/-- R44: a fetch sees a store: a `stor` of a word to the address of the instruction after it is what the next fetch reads. -/
def Obligations.FetchSeesStore : Prop :=
  ∀ (s t : State) (c : Cond) (a : Single), s.condHolds c = true → exec (.stor c a) s = .next t → accessAddr a s = s.pc + 4#32 →
    s.mapped .fetch (s.pc + 4#32) .word = true → t.fetch = .ok (s.reg a.data)

/-! ### CPU control -/

/-- R170 to R173: in Supervisor mode `stop` and `wait` change the run state and `switchm` the mode, and all three move the pc on; in User mode
each raises PrivilegeViolation and changes nothing. -/
def Obligations.CpuControlResults : Prop :=
  ∀ (s : State) (c : Cond) (i : Instr) (run : RunState) (mode : Mode),
    (i, run, mode) ∈ [(Instr.stop c, RunState.stopped, s.mode), (.wait c, .waiting, s.mode), (.switchm c, s.run, Mode.user)] →
    s.condHolds c = true →
    (s.mode = .supervisor → exec i s = .next { s with run := run, mode := mode, pc := s.pc + 4#32 }) ∧
    (s.mode = .user → exec i s = .fault (.trapped (.privilegeViolation (encode i)) s))
end

