-- ==== Sys2Proof/Laws/State.lean ====
section
/-!
SUPPORT. One lemma per field per update of State, and what each update does to a register's value: no later proof unfolds a record
update.
-/

namespace Sys2Proof.Machine

@[simp] theorem State.setReg_pc (s : State) (r : Reg) (v : Word) : (s.setReg r v).pc = s.pc := rfl
@[simp] theorem State.setReg_flags (s : State) (r : Reg) (v : Word) : (s.setReg r v).flags = s.flags := rfl
@[simp] theorem State.setReg_mode (s : State) (r : Reg) (v : Word) : (s.setReg r v).mode = s.mode := rfl
@[simp] theorem State.setReg_run (s : State) (r : Reg) (v : Word) : (s.setReg r v).run = s.run := rfl
@[simp] theorem State.setReg_mem (s : State) (r : Reg) (v : Word) : (s.setReg r v).mem = s.mem := rfl
@[simp] theorem State.setReg_unmapped (s : State) (r : Reg) (v : Word) : (s.setReg r v).unmapped = s.unmapped := rfl
@[simp] theorem State.setReg_irqPolls (s : State) (r : Reg) (v : Word) : (s.setReg r v).irqPolls = s.irqPolls := rfl

@[simp] theorem State.setPc_x (s : State) (t : Word) : (s.setPc t).x = s.x := rfl
@[simp] theorem State.setPc_pc (s : State) (t : Word) : (s.setPc t).pc = t := rfl
@[simp] theorem State.setPc_flags (s : State) (t : Word) : (s.setPc t).flags = s.flags := rfl
@[simp] theorem State.setPc_mode (s : State) (t : Word) : (s.setPc t).mode = s.mode := rfl
@[simp] theorem State.setPc_run (s : State) (t : Word) : (s.setPc t).run = s.run := rfl
@[simp] theorem State.setPc_mem (s : State) (t : Word) : (s.setPc t).mem = s.mem := rfl
@[simp] theorem State.setPc_unmapped (s : State) (t : Word) : (s.setPc t).unmapped = s.unmapped := rfl
@[simp] theorem State.setPc_irqPolls (s : State) (t : Word) : (s.setPc t).irqPolls = s.irqPolls := rfl

@[simp] theorem State.advance_x (s : State) : (s.advance).x = s.x := rfl
@[simp] theorem State.advance_pc (s : State) : (s.advance).pc = s.pc + 4#32 := rfl
@[simp] theorem State.advance_flags (s : State) : (s.advance).flags = s.flags := rfl
@[simp] theorem State.advance_mode (s : State) : (s.advance).mode = s.mode := rfl
@[simp] theorem State.advance_run (s : State) : (s.advance).run = s.run := rfl
@[simp] theorem State.advance_mem (s : State) : (s.advance).mem = s.mem := rfl
@[simp] theorem State.advance_unmapped (s : State) : (s.advance).unmapped = s.unmapped := rfl
@[simp] theorem State.advance_irqPolls (s : State) : (s.advance).irqPolls = s.irqPolls := rfl

@[simp] theorem State.setFlags_x (s : State) (fl : Flags) : (s.setFlags fl).x = s.x := rfl
@[simp] theorem State.setFlags_pc (s : State) (fl : Flags) : (s.setFlags fl).pc = s.pc := rfl
@[simp] theorem State.setFlags_flags (s : State) (fl : Flags) : (s.setFlags fl).flags = fl := rfl
@[simp] theorem State.setFlags_mode (s : State) (fl : Flags) : (s.setFlags fl).mode = s.mode := rfl
@[simp] theorem State.setFlags_run (s : State) (fl : Flags) : (s.setFlags fl).run = s.run := rfl
@[simp] theorem State.setFlags_mem (s : State) (fl : Flags) : (s.setFlags fl).mem = s.mem := rfl
@[simp] theorem State.setFlags_unmapped (s : State) (fl : Flags) : (s.setFlags fl).unmapped = s.unmapped := rfl
@[simp] theorem State.setFlags_irqPolls (s : State) (fl : Flags) : (s.setFlags fl).irqPolls = s.irqPolls := rfl

@[simp] theorem State.storeBytes_x (s : State) (a : Word) (n : Size) (v : Word) : (s.storeBytes a n v).x = s.x := rfl
@[simp] theorem State.storeBytes_pc (s : State) (a : Word) (n : Size) (v : Word) : (s.storeBytes a n v).pc = s.pc := rfl
@[simp] theorem State.storeBytes_flags (s : State) (a : Word) (n : Size) (v : Word) : (s.storeBytes a n v).flags = s.flags := rfl
@[simp] theorem State.storeBytes_mode (s : State) (a : Word) (n : Size) (v : Word) : (s.storeBytes a n v).mode = s.mode := rfl
@[simp] theorem State.storeBytes_run (s : State) (a : Word) (n : Size) (v : Word) : (s.storeBytes a n v).run = s.run := rfl
@[simp] theorem State.storeBytes_mem (s : State) (a : Word) (n : Size) (v : Word) : (s.storeBytes a n v).mem = s.mem.writeAll a (valueBytes n.bytes v) := rfl
@[simp] theorem State.storeBytes_unmapped (s : State) (a : Word) (n : Size) (v : Word) : (s.storeBytes a n v).unmapped = s.unmapped := rfl
@[simp] theorem State.storeBytes_irqPolls (s : State) (a : Word) (n : Size) (v : Word) : (s.storeBytes a n v).irqPolls = s.irqPolls := rfl

@[simp] theorem State.setFlagsIf_x (s : State) (f : Bool) (fl : Flags) : (s.setFlagsIf f fl).x = s.x := by cases f <;> rfl
@[simp] theorem State.setFlagsIf_pc (s : State) (f : Bool) (fl : Flags) : (s.setFlagsIf f fl).pc = s.pc := by cases f <;> rfl
@[simp] theorem State.setFlagsIf_flags (s : State) (f : Bool) (fl : Flags) :
    (s.setFlagsIf f fl).flags = if f then fl else s.flags := by cases f <;> rfl
@[simp] theorem State.setFlagsIf_mode (s : State) (f : Bool) (fl : Flags) : (s.setFlagsIf f fl).mode = s.mode := by cases f <;> rfl
@[simp] theorem State.setFlagsIf_run (s : State) (f : Bool) (fl : Flags) : (s.setFlagsIf f fl).run = s.run := by cases f <;> rfl
@[simp] theorem State.setFlagsIf_mem (s : State) (f : Bool) (fl : Flags) : (s.setFlagsIf f fl).mem = s.mem := by cases f <;> rfl
@[simp] theorem State.setFlagsIf_unmapped (s : State) (f : Bool) (fl : Flags) : (s.setFlagsIf f fl).unmapped = s.unmapped := by cases f <;> rfl
@[simp] theorem State.setFlagsIf_irqPolls (s : State) (f : Bool) (fl : Flags) : (s.setFlagsIf f fl).irqPolls = s.irqPolls := by cases f <;> rfl

@[simp] theorem State.setRegs_pc (s : State) (l : List (Reg × Word)) : (s.setRegs l).pc = s.pc := by
  induction l generalizing s with
  | nil => rfl
  | cons p l ih => exact ih _
@[simp] theorem State.setRegs_flags (s : State) (l : List (Reg × Word)) : (s.setRegs l).flags = s.flags := by
  induction l generalizing s with
  | nil => rfl
  | cons p l ih => exact ih _
@[simp] theorem State.setRegs_mode (s : State) (l : List (Reg × Word)) : (s.setRegs l).mode = s.mode := by
  induction l generalizing s with
  | nil => rfl
  | cons p l ih => exact ih _
@[simp] theorem State.setRegs_run (s : State) (l : List (Reg × Word)) : (s.setRegs l).run = s.run := by
  induction l generalizing s with
  | nil => rfl
  | cons p l ih => exact ih _
@[simp] theorem State.setRegs_mem (s : State) (l : List (Reg × Word)) : (s.setRegs l).mem = s.mem := by
  induction l generalizing s with
  | nil => rfl
  | cons p l ih => exact ih _
@[simp] theorem State.setRegs_unmapped (s : State) (l : List (Reg × Word)) : (s.setRegs l).unmapped = s.unmapped := by
  induction l generalizing s with
  | nil => rfl
  | cons p l ih => exact ih _
@[simp] theorem State.setRegs_irqPolls (s : State) (l : List (Reg × Word)) : (s.setRegs l).irqPolls = s.irqPolls := by
  induction l generalizing s with
  | nil => rfl
  | cons p l ih => exact ih _

@[simp] theorem writeBack_pc (wb : Bool) (b : Reg) (v : Word) (t : State) : (writeBack wb b v t).pc = t.pc := by cases wb <;> rfl
@[simp] theorem writeBack_flags (wb : Bool) (b : Reg) (v : Word) (t : State) : (writeBack wb b v t).flags = t.flags := by cases wb <;> rfl
@[simp] theorem writeBack_mode (wb : Bool) (b : Reg) (v : Word) (t : State) : (writeBack wb b v t).mode = t.mode := by cases wb <;> rfl
@[simp] theorem writeBack_run (wb : Bool) (b : Reg) (v : Word) (t : State) : (writeBack wb b v t).run = t.run := by cases wb <;> rfl
@[simp] theorem writeBack_mem (wb : Bool) (b : Reg) (v : Word) (t : State) : (writeBack wb b v t).mem = t.mem := by cases wb <;> rfl
@[simp] theorem writeBack_unmapped (wb : Bool) (b : Reg) (v : Word) (t : State) : (writeBack wb b v t).unmapped = t.unmapped := by cases wb <;> rfl
@[simp] theorem writeBack_irqPolls (wb : Bool) (b : Reg) (v : Word) (t : State) : (writeBack wb b v t).irqPolls = t.irqPolls := by cases wb <;> rfl

@[simp] theorem writeDest_pc (d : Option Reg) (v : Word) (s : State) : (writeDest d v s).pc = s.pc := by cases d <;> rfl
@[simp] theorem writeDest_flags (d : Option Reg) (v : Word) (s : State) : (writeDest d v s).flags = s.flags := by cases d <;> rfl
@[simp] theorem writeDest_mode (d : Option Reg) (v : Word) (s : State) : (writeDest d v s).mode = s.mode := by cases d <;> rfl
@[simp] theorem writeDest_run (d : Option Reg) (v : Word) (s : State) : (writeDest d v s).run = s.run := by cases d <;> rfl
@[simp] theorem writeDest_mem (d : Option Reg) (v : Word) (s : State) : (writeDest d v s).mem = s.mem := by cases d <;> rfl
@[simp] theorem writeDest_unmapped (d : Option Reg) (v : Word) (s : State) : (writeDest d v s).unmapped = s.unmapped := by cases d <;> rfl
@[simp] theorem writeDest_irqPolls (d : Option Reg) (v : Word) (s : State) : (writeDest d v s).irqPolls = s.irqPolls := by cases d <;> rfl

/-! ### Registers -/

@[simp] theorem State.reg_setReg_self (s : State) (r : Reg) (v : Word) : (s.setReg r v).reg r = v := by
  simp [State.reg, State.setReg]

theorem State.reg_setReg_ne (s : State) {r r' : Reg} (v : Word) (h : r' ≠ r) : (s.setReg r v).reg r' = s.reg r' := by
  have h' : r.val ≠ r'.val := fun e => h (Fin.ext e.symm)
  simp [State.reg, State.setReg, Vector.getElem_set_ne, h']

/-- The value of any register after one is written. -/
theorem State.reg_setReg (s : State) (r r' : Reg) (v : Word) :
    (s.setReg r v).reg r' = if r' = r then v else s.reg r' := by
  by_cases h : r' = r
  · subst h; simp
  · simp [h, State.reg_setReg_ne s v h]

@[simp] theorem State.reg_setPc (s : State) (t : Word) (r : Reg) : (s.setPc t).reg r = s.reg r := rfl
@[simp] theorem State.reg_advance (s : State) (r : Reg) : s.advance.reg r = s.reg r := rfl
@[simp] theorem State.reg_setFlags (s : State) (fl : Flags) (r : Reg) : (s.setFlags fl).reg r = s.reg r := rfl
@[simp] theorem State.reg_storeBytes (s : State) (a : Word) (n : Size) (v : Word) (r : Reg) :
    (s.storeBytes a n v).reg r = s.reg r := rfl
@[simp] theorem State.reg_setFlagsIf (s : State) (f : Bool) (fl : Flags) (r : Reg) :
    (s.setFlagsIf f fl).reg r = s.reg r := by cases f <;> rfl

theorem reg_writeBack (wb : Bool) (b : Reg) (v : Word) (t : State) (r : Reg) :
    (writeBack wb b v t).reg r = if wb = true ∧ r = b then v else t.reg r := by
  cases wb <;> simp [writeBack, State.reg_setReg]

@[simp] theorem reg_writeDest_none (v : Word) (s : State) (r : Reg) : (writeDest none v s).reg r = s.reg r := rfl

@[simp] theorem reg_writeDest_some (d : Reg) (v : Word) (s : State) (r : Reg) :
    (writeDest (some d) v s).reg r = if r = d then v else s.reg r := State.reg_setReg s d r v

/-- A register outside the written ones keeps its value. -/
theorem State.reg_setRegs_of_not_mem (s : State) (l : List (Reg × Word)) (r : Reg) (h : r ∉ l.map Prod.fst) :
    (s.setRegs l).reg r = s.reg r := by
  induction l generalizing s with
  | nil => rfl
  | cons p l ih =>
    simp only [List.map_cons, List.mem_cons, not_or] at h
    show ((s.setReg p.1 p.2).setRegs l).reg r = s.reg r
    rw [ih _ h.2, State.reg_setReg_ne _ _ h.1]

/-- A register written once, among distinct ones, holds the value written. -/
theorem State.reg_setRegs_of_mem (s : State) (l : List (Reg × Word)) (hd : (l.map Prod.fst).Nodup) (p : Reg × Word) (h : p ∈ l) :
    (s.setRegs l).reg p.1 = p.2 := by
  induction l generalizing s with
  | nil => simp at h
  | cons q l ih =>
    simp only [List.map_cons, List.nodup_cons] at hd
    rcases List.mem_cons.mp h with rfl | h
    · show ((s.setReg p.1 p.2).setRegs l).reg p.1 = p.2
      rw [State.reg_setRegs_of_not_mem _ _ _ hd.1, State.reg_setReg_self]
    · exact ih _ hd.2 h

/-- Two states with the same registers and the same other fields are equal. -/
theorem State.ext_reg {s t : State} (hr : ∀ r, s.reg r = t.reg r) (hp : s.pc = t.pc) (hf : s.flags = t.flags) (hm : s.mode = t.mode)
    (hu : s.run = t.run) (hmem : s.mem = t.mem) (hun : s.unmapped = t.unmapped) (hi : s.irqPolls = t.irqPolls) : s = t := by
  obtain ⟨x, _, _, _, _, _, _, _⟩ := s
  obtain ⟨y, _, _, _, _, _, _, _⟩ := t
  have hx : x = y := Vector.ext fun i hi => hr ⟨i, hi⟩
  simp_all

end Sys2Proof.Machine
end

