-- ==== Sys2Proof/Laws/Memory.lean ====
section
/-!
SUPPORT. The laws of memory: reading after writing, the canonical form, and memories that read alike are equal.
-/

namespace Sys2Proof.Machine

/-! ### One byte -/

theorem Memory.read_write_self (m : Memory) (a : Nat) (b : Byte) : (m.write a b).read a = some b := by
  induction m with
  | nil => simp [Memory.write, Memory.read]
  | cons p m ih =>
    obtain ⟨k, c⟩ := p
    simp only [Memory.write]
    split
    · simp [Memory.read]
    · split
      · simp [Memory.read]
      · have h1 : k ≠ a := by omega
        simp [Memory.read, h1, ih, ‹¬a < k›]

theorem Memory.read_write_ne (m : Memory) {a a' : Nat} (b : Byte) (h : a' ≠ a) : (m.write a b).read a' = m.read a' := by
  induction m with
  | nil => simp [Memory.write, Memory.read, h.symm]
  | cons p m ih =>
    obtain ⟨k, c⟩ := p
    simp only [Memory.write]
    split
    · simp only [Memory.read, h.symm, if_false]
      split <;> split <;> first | rfl | omega | (split <;> first | rfl | omega)
    · split
      · subst_vars; simp [Memory.read, h.symm]
      · simp [Memory.read, ih]

/-- What any address reads as after one byte is written. -/
theorem Memory.read_write (m : Memory) (a a' : Nat) (b : Byte) :
    (m.write a b).read a' = if a' = a then some b else m.read a' := by
  by_cases h : a' = a
  · subst h; simp [Memory.read_write_self]
  · simp [h, Memory.read_write_ne m b h]

/-! ### The canonical form -/

theorem Memory.risingFrom_mono {m : Memory} {l l' : Nat} (h : m.risingFrom l = true) (hl : l' ≤ l) : m.risingFrom l' = true := by
  cases m with
  | nil => rfl
  | cons p m =>
    obtain ⟨k, c⟩ := p
    simp only [Memory.risingFrom, Bool.and_eq_true, decide_eq_true_eq] at h ⊢
    exact ⟨⟨by omega, h.1.2⟩, h.2⟩

theorem Memory.risingFrom_write {m : Memory} {l a : Nat} (b : Byte) (h : m.risingFrom l = true) (hl : l ≤ a) (ha : a < 2 ^ 32) :
    (m.write a b).risingFrom l = true := by
  induction m generalizing l with
  | nil => simp [Memory.write, Memory.risingFrom]; omega
  | cons p m ih =>
    obtain ⟨k, c⟩ := p
    simp only [Memory.risingFrom, Bool.and_eq_true, decide_eq_true_eq] at h
    simp only [Memory.write]
    split
    · simp only [Memory.risingFrom, Bool.and_eq_true, decide_eq_true_eq]
      exact ⟨⟨hl, ha⟩, ⟨by omega, h.1.2⟩, h.2⟩
    · split
      · subst_vars
        simp only [Memory.risingFrom, Bool.and_eq_true, decide_eq_true_eq]
        exact ⟨⟨hl, ha⟩, h.2⟩
      · simp only [Memory.risingFrom, Bool.and_eq_true, decide_eq_true_eq]
        exact ⟨h.1, ih h.2 (by omega)⟩

/-- Writing a byte inside the address space keeps the canonical form. -/
theorem Memory.wf_write {m : Memory} {a : Nat} (b : Byte) (h : m.wf = true) (ha : a < 2 ^ 32) : (m.write a b).wf = true :=
  Memory.risingFrom_write b h (Nat.zero_le a) ha

/-- Writing bytes from an address up keeps the canonical form. -/
theorem Memory.wf_writeAll {m : Memory} (a : Word) (bs : List Byte) (h : m.wf = true) : (m.writeAll a bs).wf = true := by
  induction bs generalizing m a with
  | nil => exact h
  | cons b bs ih => exact ih _ (Memory.wf_write b h a.isLt)

/-- The memory of the reset state is in canonical form. -/
theorem Memory.wf_reset : State.reset.mem.wf = true := rfl

theorem Memory.read_of_risingFrom {m : Memory} {l a : Nat} (h : m.risingFrom l = true) (ha : a < l) : m.read a = none := by
  cases m with
  | nil => rfl
  | cons p m =>
    obtain ⟨k, c⟩ := p
    simp only [Memory.risingFrom, Bool.and_eq_true, decide_eq_true_eq] at h
    have h1 : k ≠ a := by omega
    have h2 : a < k := by omega
    simp [Memory.read, h1, h2]

theorem Memory.read_tail {m : Memory} {k : Nat} {c : Byte} (h : m.risingFrom (k + 1) = true) (a : Nat) :
    m.read a = if a ≤ k then none else Memory.read ((k, c) :: m) a := by
  split
  · exact Memory.read_of_risingFrom h (by omega)
  · have h1 : k ≠ a := by omega
    have h2 : ¬ a < k := by omega
    simp [Memory.read, h1, h2]

theorem Memory.ext_of_risingFrom {m m' : Memory} {l : Nat} (h : m.risingFrom l = true) (h' : m'.risingFrom l = true)
    (hr : ∀ a, m.read a = m'.read a) : m = m' := by
  induction m generalizing m' l with
  | nil =>
    cases m' with
    | nil => rfl
    | cons p m' => simpa [Memory.read] using hr p.1
  | cons p m ih =>
    obtain ⟨k, c⟩ := p
    cases m' with
    | nil => simpa [Memory.read] using hr k
    | cons p' m' =>
      obtain ⟨k', c'⟩ := p'
      simp only [Memory.risingFrom, Bool.and_eq_true, decide_eq_true_eq] at h h'
      have hk : k = k' := by
        rcases Nat.lt_trichotomy k k' with hlt | he | hgt
        · have := hr k
          have h1 : k' ≠ k := by omega
          simp [Memory.read, h1, hlt] at this
        · exact he
        · have := hr k'
          have h1 : k ≠ k' := by omega
          simp [Memory.read, h1, hgt] at this
      subst hk
      have hc : c = c' := by simpa [Memory.read] using hr k
      subst hc
      refine congrArg _ (ih h.2 h'.2 fun a => ?_)
      rw [Memory.read_tail (c := c) h.2, Memory.read_tail (c := c) h'.2, hr a]

/-- Two memories in canonical form that read alike at every address are equal as data. -/
theorem Memory.ext_of_wf {m m' : Memory} (h : m.wf = true) (h' : m'.wf = true) (hr : ∀ a, m.read a = m'.read a) : m = m' :=
  Memory.ext_of_risingFrom h h' hr

/-! ### Several bytes -/

@[simp] theorem length_byteAddrs (a : Word) (n : Nat) : (byteAddrs a n).length = n := by
  induction n generalizing a with
  | zero => rfl
  | succ n ih => simp [byteAddrs, ih]

/-- An address outside the bytes stored reads as before. -/
theorem Memory.read_writeAll_of_not_mem (m : Memory) (a : Word) (bs : List Byte) (k : Nat)
    (h : ∀ x ∈ byteAddrs a bs.length, x.toNat ≠ k) : (m.writeAll a bs).read k = m.read k := by
  induction bs generalizing m a with
  | nil => rfl
  | cons b bs ih =>
    simp only [List.length_cons, byteAddrs, List.mem_cons, forall_eq_or_imp] at h
    show (Memory.writeAll (m.write a.toNat b) (a + 1#32) bs).read k = m.read k
    rw [ih _ _ h.2, Memory.read_write_ne _ _ (Ne.symm h.1)]

/-- Reading some bytes: each has a value, in the order of the addresses. -/
theorem Memory.readAll_ok_iff (m : Memory) (as : List Word) (bs : List Byte) :
    m.readAll as = .ok bs ↔ as.map (fun a => m.read a.toNat) = bs.map some := by
  induction as generalizing bs with
  | nil => cases bs <;> simp [Memory.readAll]
  | cons a as ih =>
    simp only [Memory.readAll]
    cases hb : m.read a.toNat with
    | none => cases bs <;> simp [hb]
    | some b =>
      cases bs with
      | nil =>
        cases h : m.readAll as <;> simp [Except.map, hb]
      | cons c cs =>
        cases h : m.readAll as with
        | error e =>
          have := ih cs
          simp_all [Except.map]
        | ok ds =>
          have := ih cs
          simp_all [Except.map]

/-- Reading some bytes only ever refuses, and only for a byte that has no value (R241). -/
theorem Memory.readAll_error {m : Memory} {as : List Word} {e : Stop} (h : m.readAll as = .error e) :
    ∃ a ∈ as, m.read a.toNat = none ∧ e = .refuse (.unwrittenRead a) := by
  induction as with
  | nil => simp [Memory.readAll] at h
  | cons a as ih =>
    simp only [Memory.readAll] at h
    cases hb : m.read a.toNat with
    | none =>
      simp [hb] at h
      exact ⟨a, by simp, hb, h.symm⟩
    | some b =>
      simp only [hb] at h
      cases hr : m.readAll as with
      | error e' =>
        simp [hr, Except.map] at h
        obtain ⟨x, hx, hn, he⟩ := ih (by rw [hr, h])
        exact ⟨x, List.mem_cons_of_mem _ hx, hn, he⟩
      | ok ds => simp [hr, Except.map] at h

end Sys2Proof.Machine
end

