-- ==== Sys2Proof/Laws/Access.lean ====
section
/-!
SUPPORT. One spec lemma per access operation: the checks, reading, writing, the stack, and the blocks of `loadm` and `storm`.
-/

namespace Sys2Proof.Machine

/-! ### The bytes of a value -/

@[simp] theorem length_littleBytes (n : Nat) (v : Word) : (littleBytes n v).length = n := by
  induction n generalizing v with
  | zero => rfl
  | succ n ih => simp [littleBytes, ih]

@[simp] theorem length_valueBytes (n : Nat) (v : Word) : (valueBytes n v).length = n := by
  simp [valueBytes, bigEndian]

/-- The four bytes of a word, the least significant first (R33). -/
theorem valueBytes_four (v : Word) :
    valueBytes 4 v = [v.extractLsb' 0 8, v.extractLsb' 8 8, v.extractLsb' 16 8, v.extractLsb' 24 8] := by
  simp only [valueBytes, bigEndian, littleBytes, Bool.false_eq_true, if_false, List.cons.injEq, and_true]
  refine ⟨?_, ?_, ?_, ?_⟩ <;> ext i hi <;> simp

/-- The two low bytes of a word, the least significant first (R33). -/
theorem valueBytes_two (v : Word) : valueBytes 2 v = [v.extractLsb' 0 8, v.extractLsb' 8 8] := by
  simp only [valueBytes, bigEndian, littleBytes, Bool.false_eq_true, if_false, List.cons.injEq, and_true]
  refine ⟨?_, ?_⟩ <;> ext i hi <;> simp

/-- The low byte of a word (R33). -/
theorem valueBytes_one (v : Word) : valueBytes 1 v = [v.extractLsb' 0 8] := by
  simp only [valueBytes, bigEndian, littleBytes, Bool.false_eq_true, if_false, List.cons.injEq, and_true]
  ext i hi
  simp

/-- The value of four bytes (R33). -/
theorem bytesValue_four (b0 b1 b2 b3 : Byte) : bytesValue [b0, b1, b2, b3] = b3 ++ b2 ++ b1 ++ b0 := by
  apply BitVec.eq_of_getLsbD_eq
  intro i hi
  have z (b : Byte) (j : Nat) (h : ¬ j < 8) : b.getLsbD j = false := BitVec.getLsbD_of_ge b j (by omega)
  simp only [bytesValue, bigEndian, littleValue, Bool.false_eq_true, if_false, BitVec.getLsbD_or, BitVec.getLsbD_shiftLeft,
    BitVec.getLsbD_append, BitVec.getLsbD_setWidth, BitVec.zeroExtend]
  by_cases h1 : i < 8
  · simp [h1, hi]
  · rw [z b0 i h1]
    by_cases h2 : i - 8 < 8
    · simp [h1, h2, hi, show i - 8 < 32 by omega]
    · rw [z b1 _ h2]
      by_cases h3 : i - 8 - 8 < 8
      · simp [h1, h2, h3, hi, show i - 8 < 32 by omega, show i - 8 - 8 < 32 by omega]
      · rw [z b2 _ h3]
        simp [h1, h2, h3, hi, show i - 8 < 32 by omega, show i - 8 - 8 < 32 by omega, show i - 8 - 8 - 8 < 32 by omega]

/-- Four neighbouring bytes of a word, put together again. -/
theorem append_extract_bytes (v : Word) :
    v.extractLsb' 24 8 ++ v.extractLsb' 16 8 ++ v.extractLsb' 8 8 ++ v.extractLsb' 0 8 = v := by
  apply BitVec.eq_of_getLsbD_eq
  intro i hi
  simp only [BitVec.getLsbD_append, BitVec.getLsbD_extractLsb']
  by_cases h1 : i < 8
  · simp [h1]
  · by_cases h2 : i - 8 < 8
    · simp [h1, h2, show 8 + (i - 8) = i by omega]
    · by_cases h3 : i - 8 - 8 < 8
      · simp [h1, h2, h3, show 16 + (i - 8 - 8) = i by omega]
      · simp [h1, h2, h3, show 24 + (i - 8 - 8 - 8) = i by omega, show i - 8 - 8 - 8 < 8 by omega]

/-- The value of the four bytes of a word is the word (R33). -/
@[simp] theorem bytesValue_valueBytes_four (v : Word) : bytesValue (valueBytes 4 v) = v := by
  rw [valueBytes_four, bytesValue_four, append_extract_bytes]

/-! ### One access -/

/-- The checks of an access pass exactly when it is aligned and the platform accepts it (R35, R38). -/
theorem State.checkAccess_ok (s : State) (k : AccessKind) (a : Word) (n : Size) :
    s.checkAccess k a n = .ok () ↔ n.aligned a = true ∧ s.mapped k a n = true := by
  unfold State.checkAccess
  cases n.aligned a <;> cases s.mapped k a n <;> simp

/-- What a failed check raises (R35, R38, R214). -/
theorem State.checkAccess_error (s : State) (k : AccessKind) (a : Word) (n : Size) (e : Stop) :
    s.checkAccess k a n = .error e ↔
      (n.aligned a = false ∧ e = .raise (.addressMisaligned a)) ∨
        (n.aligned a = true ∧ s.mapped k a n = false ∧ e = .raise (.accessFault a k)) := by
  unfold State.checkAccess
  cases n.aligned a <;> cases s.mapped k a n <;> simp [eq_comm]

/-- A read answers a value exactly when its checks pass and every byte has a value (R33, R241). -/
theorem State.readMem_ok (s : State) (k : AccessKind) (a : Word) (n : Size) (v : Word) :
    s.readMem k a n = .ok v ↔
      n.aligned a = true ∧ s.mapped k a n = true ∧ ∃ bs, s.mem.readAll (byteAddrs a n.bytes) = .ok bs ∧ v = bytesValue bs := by
  unfold State.readMem
  cases h : s.checkAccess k a n with
  | error e =>
    have := (s.checkAccess_ok k a n)
    simp [h] at this
    simpa using fun h1 h2 => absurd h2 (by simp [this h1])
  | ok u =>
    have h1 := (s.checkAccess_ok k a n).mp h
    cases hr : s.mem.readAll (byteAddrs a n.bytes) <;> simp [h1, Except.map, eq_comm]

/-- How a read can stop: a misaligned address, an access the platform does not accept, or a byte without a value. -/
theorem State.readMem_error {s : State} {k : AccessKind} {a : Word} {n : Size} {e : Stop} (h : s.readMem k a n = .error e) :
    (n.aligned a = false ∧ e = .raise (.addressMisaligned a)) ∨
      (n.aligned a = true ∧ s.mapped k a n = false ∧ e = .raise (.accessFault a k)) ∨
        (n.aligned a = true ∧ s.mapped k a n = true ∧
          ∃ b ∈ byteAddrs a n.bytes, s.mem.read b.toNat = none ∧ e = .refuse (.unwrittenRead b)) := by
  unfold State.readMem at h
  cases hc : s.checkAccess k a n with
  | error e' =>
    simp [hc] at h
    subst h
    rcases (s.checkAccess_error k a n _).mp hc with h1 | h1
    · exact .inl h1
    · exact .inr (.inl h1)
  | ok u =>
    have h1 := (s.checkAccess_ok k a n).mp hc
    simp only [hc] at h
    cases hr : s.mem.readAll (byteAddrs a n.bytes) with
    | error e' =>
      simp [hr, Except.map] at h
      subst h
      exact .inr (.inr ⟨h1.1, h1.2, Memory.readAll_error hr⟩)
    | ok bs => simp [hr, Except.map] at h

/-- A write completes exactly when its checks pass, and then stores the bytes of the value (R33). -/
theorem State.writeMem_ok (s : State) (a : Word) (n : Size) (v : Word) (t : State) :
    s.writeMem a n v = .ok t ↔ n.aligned a = true ∧ s.mapped .write a n = true ∧ t = s.storeBytes a n v := by
  unfold State.writeMem
  cases h : s.checkAccess .write a n with
  | error e =>
    have := (s.checkAccess_ok .write a n)
    simp [h] at this
    simpa using fun h1 h2 => absurd h2 (by simp [this h1])
  | ok u =>
    have h1 := (s.checkAccess_ok .write a n).mp h
    simp [h1, eq_comm]

/-- How a write can stop: a misaligned address or an access the platform does not accept. -/
theorem State.writeMem_error (s : State) (a : Word) (n : Size) (v : Word) (e : Stop) :
    s.writeMem a n v = .error e ↔
      (n.aligned a = false ∧ e = .raise (.addressMisaligned a)) ∨
        (n.aligned a = true ∧ s.mapped .write a n = false ∧ e = .raise (.accessFault a .write)) := by
  rw [← State.checkAccess_error]
  unfold State.writeMem
  cases h : s.checkAccess .write a n <;> simp

/-- A stored byte's address is one of the bytes of the access; any other address reads as before. -/
theorem State.read_storeBytes_of_not_mem (s : State) (a : Word) (n : Size) (v : Word) (k : Nat)
    (h : ∀ x ∈ byteAddrs a n.bytes, x.toNat ≠ k) : (s.storeBytes a n v).mem.read k = s.mem.read k :=
  Memory.read_writeAll_of_not_mem _ _ _ _ (by simpa using h)

/-- Storing bytes keeps the canonical form. -/
theorem State.wf_storeBytes {s : State} (a : Word) (n : Size) (v : Word) (h : s.mem.wf = true) :
    (s.storeBytes a n v).mem.wf = true := Memory.wf_writeAll _ _ h

/-! ### The stack -/

/-- A push stores the word below the stack pointer and moves the pointer there (R151). -/
theorem State.push_ok (s : State) (v : Word) (t : State) :
    s.push v = .ok t ↔
      Size.word.aligned (s.reg spReg - 4#32) = true ∧ s.mapped .write (s.reg spReg - 4#32) .word = true ∧
        t = (s.storeBytes (s.reg spReg - 4#32) .word v).setReg spReg (s.reg spReg - 4#32) := by
  simp only [State.push]
  cases hw : s.writeMem (s.reg spReg - 4#32) .word v with
  | error e =>
    simp only [Except.map, reduceCtorEq, false_iff]
    rintro ⟨h1, h2, -⟩
    rw [(s.writeMem_ok _ _ _ _).mpr ⟨h1, h2, rfl⟩] at hw
    simp at hw
  | ok u =>
    obtain ⟨h1, h2, rfl⟩ := (s.writeMem_ok _ _ _ _).mp hw
    simp [Except.map, h1, h2, eq_comm]

/-- How a push can stop: the store's checks, nothing written (R151). -/
theorem State.push_error (s : State) (v : Word) (e : Stop) :
    s.push v = .error e ↔ s.checkAccess .write (s.reg spReg - 4#32) .word = .error e := by
  simp only [State.push, State.writeMem]
  cases h : s.checkAccess .write (s.reg spReg - 4#32) .word <;> simp [Except.map]

/-- A pop reads the word at the stack pointer and moves the pointer past it (R131). -/
theorem State.pop_ok (s : State) (p : Word × State) :
    s.pop = .ok p ↔ s.readMem .read (s.reg spReg) .word = .ok p.1 ∧ p.2 = s.setReg spReg (s.reg spReg + 4#32) := by
  obtain ⟨v, t⟩ := p
  simp only [State.pop]
  cases s.readMem .read (s.reg spReg) .word <;> simp [Except.map, eq_comm]

/-- A pop stops exactly as its read does (R131). -/
theorem State.pop_error (s : State) (e : Stop) : s.pop = .error e ↔ s.readMem .read (s.reg spReg) .word = .error e := by
  simp only [State.pop]
  cases s.readMem .read (s.reg spReg) .word <;> simp [Except.map]

/-! ### Blocks -/

@[simp] theorem length_wordAddrs (a : Word) (n : Nat) : (wordAddrs a n).length = n := by
  induction n generalizing a with
  | zero => rfl
  | succ n ih => simp [wordAddrs, ih]

theorem checkPlatform_ok (s : State) (k : AccessKind) (as : List Word) :
    checkPlatform s k as = .ok () ↔ ∀ a ∈ as, s.mapped k a .word = true := by
  induction as with
  | nil => simp [checkPlatform]
  | cons a as ih =>
    simp only [checkPlatform]
    cases h : s.mapped k a .word <;> simp [h, ih]

/-- The checks of a block pass exactly when its first address is aligned, if it has one, and the platform accepts every word. -/
theorem checkBlock_ok (s : State) (k : AccessKind) (as : List Word) :
    checkBlock s k as = .ok () ↔ (∀ a, as.head? = some a → Size.word.aligned a = true) ∧ ∀ a ∈ as, s.mapped k a .word = true := by
  cases as with
  | nil => simp [checkBlock]
  | cons a as =>
    simp only [checkBlock]
    cases h : Size.word.aligned a
    · simp [h]
    · simp [h, checkPlatform_ok]

/-- A failed check of a block raises one of the two exceptions of an access (R213). -/
theorem checkPlatform_error {s : State} {k : AccessKind} {as : List Word} {e : Stop} (h : checkPlatform s k as = .error e) :
    ∃ a ∈ as, s.mapped k a .word = false ∧ e = .raise (.accessFault a k) := by
  induction as with
  | nil => simp [checkPlatform] at h
  | cons a as ih =>
    simp only [checkPlatform] at h
    cases hm : s.mapped k a .word with
    | false =>
      simp [hm] at h
      exact ⟨a, by simp, hm, h.symm⟩
    | true =>
      simp [hm] at h
      obtain ⟨x, hx, h1, h2⟩ := ih h
      exact ⟨x, List.mem_cons_of_mem _ hx, h1, h2⟩

/-- Reading a block: each word is the value of its four bytes. -/
theorem readWords_ok (s : State) (as vs : List Word) :
    readWords s as = .ok vs ↔
      List.Forall₂ (fun a v => ∃ bs, s.mem.readAll (byteAddrs a 4) = .ok bs ∧ v = bytesValue bs) as vs := by
  induction as generalizing vs with
  | nil => cases vs <;> simp [readWords]
  | cons a as ih =>
    simp only [readWords, Size.bytes]
    cases hr : s.mem.readAll (byteAddrs a 4) with
    | error e =>
      cases vs <;> simp [hr]
    | ok bs =>
      cases vs with
      | nil => cases h : readWords s as <;> simp [Except.map]
      | cons v vs =>
        have := ih vs
        cases h : readWords s as with
        | error e => simp_all [Except.map]
        | ok ws =>
          rw [h, Except.ok.injEq] at this
          rw [List.forall₂_cons, ← this, hr]
          simp [Except.map, eq_comm]

/-- A block read has one value per address. -/
theorem readWords_length {s : State} {as vs : List Word} (h : readWords s as = .ok vs) : vs.length = as.length :=
  ((readWords_ok s as vs).mp h).length_eq.symm

/-- Reading a block stops only for a byte without a value (R241). -/
theorem readWords_error {s : State} {as : List Word} {e : Stop} (h : readWords s as = .error e) :
    ∃ b, s.mem.read b.toNat = none ∧ e = .refuse (.unwrittenRead b) := by
  induction as with
  | nil => simp [readWords] at h
  | cons a as ih =>
    simp only [readWords] at h
    cases hr : s.mem.readAll (byteAddrs a Size.word.bytes) with
    | error e' =>
      simp [hr] at h
      subst h
      obtain ⟨x, _, h1, h2⟩ := Memory.readAll_error hr
      exact ⟨x, h1, h2⟩
    | ok bs =>
      simp only [hr] at h
      cases h2 : readWords s as with
      | error e' => simp [h2, Except.map] at h; exact ih (by rw [h2, h])
      | ok vs => simp [h2, Except.map] at h

/-- Storing a block changes memory alone. -/
theorem storeWords_frame (s : State) (l : List (Word × Word)) :
    (∀ r, (storeWords s l).reg r = s.reg r) ∧ (storeWords s l).pc = s.pc ∧ (storeWords s l).flags = s.flags ∧
      (storeWords s l).mode = s.mode ∧ (storeWords s l).run = s.run ∧ (storeWords s l).unmapped = s.unmapped ∧
        (storeWords s l).irqPolls = s.irqPolls := by
  induction l generalizing s with
  | nil => simp [storeWords]
  | cons p l ih => exact ih (s.storeBytes p.1 .word p.2)

/-- An address outside every word of the block reads as before. -/
theorem read_storeWords_of_not_mem (s : State) (l : List (Word × Word)) (k : Nat)
    (h : ∀ p ∈ l, ∀ x ∈ byteAddrs p.1 4, x.toNat ≠ k) : (storeWords s l).mem.read k = s.mem.read k := by
  induction l generalizing s with
  | nil => rfl
  | cons p l ih =>
    show (storeWords (s.storeBytes p.1 .word p.2) l).mem.read k = _
    rw [ih _ fun q hq => h q (List.mem_cons_of_mem _ hq)]
    exact s.read_storeBytes_of_not_mem _ _ _ _ (h p (by simp))

/-- Storing a block keeps the canonical form. -/
theorem wf_storeWords {s : State} (l : List (Word × Word)) (h : s.mem.wf = true) : (storeWords s l).mem.wf = true := by
  induction l generalizing s with
  | nil => exact h
  | cons p l ih => exact ih (State.wf_storeBytes _ _ _ h)

/-! ### Every byte of an access -/

theorem Size.aligned_iff (n : Size) (a : Word) : n.aligned a = true ↔ a.toNat % n.bytes = 0 := by simp [Size.aligned]

/-- An aligned access stays below the top of the address space (R46). -/
theorem Size.room {n : Size} {a : Word} (h : a.toNat % n.bytes = 0) : a.toNat + n.bytes ≤ 2 ^ 32 := by
  have := a.isLt
  cases n <;> simp only [Size.bytes] at * <;> omega

/-- The address of a byte of an access that stays below the top. -/
theorem toNat_add_ofNat {a : Word} {j : Nat} (h : a.toNat + j < 2 ^ 32) : (a + BitVec.ofNat 32 j).toNat = a.toNat + j := by
  rw [BitVec.toNat_add, BitVec.toNat_ofNat]
  omega

/-- The value of one byte (R33). -/
theorem bytesValue_one (b : Byte) : bytesValue [b] = b.zeroExtend 32 := by simp [bytesValue, bigEndian, littleValue]

/-- The value of two bytes (R33). -/
theorem bytesValue_two (b0 b1 : Byte) : bytesValue [b0, b1] = (b1 ++ b0).zeroExtend 32 := by
  apply BitVec.eq_of_getLsbD_eq
  intro i hi
  have z (b : Byte) (j : Nat) (h : ¬ j < 8) : b.getLsbD j = false := BitVec.getLsbD_of_ge b j (by omega)
  simp only [bytesValue, bigEndian, littleValue, Bool.false_eq_true, if_false, BitVec.getLsbD_or, BitVec.getLsbD_shiftLeft,
    BitVec.getLsbD_append, BitVec.getLsbD_setWidth, BitVec.zeroExtend]
  by_cases h1 : i < 8
  · simp [h1, hi]
  · rw [z b0 i h1]
    simp [h1, hi, show i - 8 < 32 by omega]

/-- The `j`-th byte stored is bits `8j+7` to `8j` of the value (R33). -/
theorem valueBytes_get (n : Size) (v : Word) (j : Nat) (h : j < n.bytes) :
    (valueBytes n.bytes v)[j]'(by simpa using h) = v.extractLsb' (8 * j) 8 := by
  cases n
  · have : j = 0 := by simp [Size.bytes] at h; omega
    subst this
    simp [Size.bytes, valueBytes_one]
  · have : j = 0 ∨ j = 1 := by simp [Size.bytes] at h; omega
    rcases this with rfl | rfl <;> simp [Size.bytes, valueBytes_two]
  · have : j = 0 ∨ j = 1 ∨ j = 2 ∨ j = 3 := by simp [Size.bytes] at h; omega
    rcases this with rfl | rfl | rfl | rfl <;> simp [Size.bytes, valueBytes_four]

/-- The addresses of an access that stays below the top, one by one. -/
theorem byteAddrs_eq_map {a : Word} {n : Nat} (h : a.toNat + n ≤ 2 ^ 32) :
    byteAddrs a n = (List.range n).map fun j => a + BitVec.ofNat 32 j := by
  induction n generalizing a with
  | zero => rfl
  | succ n ih =>
    rw [byteAddrs, List.range_succ_eq_map, List.map_cons, List.map_map]
    rcases n with _ | n
    · simp [byteAddrs]
    · rw [ih (by rw [show a + 1#32 = a + BitVec.ofNat 32 1 from rfl, toNat_add_ofNat (by omega)]; omega)]
      congr 1
      · simp
      · apply List.map_congr_left
        intro j _
        apply BitVec.eq_of_toNat_eq
        simp
        omega

/-- The addresses of a block's words, one by one. -/
theorem wordAddrs_eq_map (a : Word) (n : Nat) : wordAddrs a n = (List.range n).map fun j => a + BitVec.ofNat 32 (4 * j) := by
  induction n generalizing a with
  | zero => rfl
  | succ n ih =>
    rw [wordAddrs, ih, List.range_succ_eq_map, List.map_cons, List.map_map]
    congr 1
    · simp
    · apply List.map_congr_left
      intro j _
      apply BitVec.eq_of_toNat_eq
      simp
      omega

/-- Every byte after storing some bytes that stay below the top. -/
theorem Memory.read_writeAll (m : Memory) (a : Word) (bs : List Byte) (h : a.toNat + bs.length ≤ 2 ^ 32) (k : Nat) :
    (m.writeAll a bs).read k =
      if h : a.toNat ≤ k ∧ k < a.toNat + bs.length then some (bs[k - a.toNat]'(by omega)) else m.read k := by
  induction bs generalizing m a with
  | nil => simp [Memory.writeAll]
  | cons b bs ih =>
    simp only [Memory.writeAll]
    rcases bs with _ | ⟨b', bs'⟩
    · simp only [Memory.writeAll, Memory.read_write, List.length_cons, List.length_nil]
      by_cases hk : k = a.toNat
      · simp [hk]
      · rw [if_neg hk, dif_neg (by omega)]
    · have e : (a + 1#32).toNat = a.toNat + 1 := by
        simp at h ⊢
        omega
      rw [ih]
      · simp only [e]
        by_cases h1 : a.toNat + 1 ≤ k ∧ k < a.toNat + 1 + (b' :: bs').length
        · rw [dif_pos h1, dif_pos (by simp at h1 ⊢; omega)]
          have : k - a.toNat = (k - (a.toNat + 1)) + 1 := by omega
          simp [this]
        · rw [dif_neg h1, Memory.read_write]
          by_cases h2 : k = a.toNat
          · simp [h2]
          · rw [if_neg h2, dif_neg]
            simp at h1 ⊢
            omega
      · rw [e]
        simp at h ⊢
        omega

/-- Every byte after an aligned store (R33). -/
theorem State.read_storeBytes {s : State} {a : Word} {n : Size} (v : Word) (h : a.toNat % n.bytes = 0) (k : Nat) :
    (s.storeBytes a n v).mem.read k =
      if a.toNat ≤ k ∧ k < a.toNat + n.bytes then some (v.extractLsb' (8 * (k - a.toNat)) 8) else s.mem.read k := by
  rw [State.storeBytes_mem, Memory.read_writeAll _ _ _ (by simpa using Size.room h)]
  simp only [length_valueBytes]
  split
  · rename_i hk
    rw [valueBytes_get n v _ (by omega)]
  · rfl

/-- The first byte without a value decides (R241). -/
theorem Memory.readAll_first (m : Memory) (f : Nat → Word) (n j : Nat) (hj : j < n) (h1 : ∀ l, l < j → m.read (f l).toNat ≠ none)
    (h2 : m.read (f j).toNat = none) : m.readAll ((List.range n).map f) = .error (.refuse (.unwrittenRead (f j))) := by
  induction n generalizing f j with
  | zero => omega
  | succ n ih =>
    rw [List.range_succ_eq_map, List.map_cons, List.map_map, Memory.readAll]
    rcases j with _ | j
    · rw [h2]
    · cases h : m.read (f 0).toNat with
      | none => exact absurd h (h1 0 (by omega))
      | some b =>
        have := ih (f ∘ Nat.succ) j (by omega) (fun l hl => h1 (l + 1) (by omega)) h2
        simp only at this ⊢
        rw [this]
        rfl

/-- The first word the platform does not accept decides (R38). -/
theorem checkPlatform_first (s : State) (k : AccessKind) (f : Nat → Word) (n j : Nat) (hj : j < n)
    (h1 : ∀ l, l < j → s.mapped k (f l) .word = true) (h2 : s.mapped k (f j) .word = false) :
    checkPlatform s k ((List.range n).map f) = .error (.raise (.accessFault (f j) k)) := by
  induction n generalizing f j with
  | zero => omega
  | succ n ih =>
    rw [List.range_succ_eq_map, List.map_cons, List.map_map, checkPlatform]
    rcases j with _ | j
    · rw [h2]
      rfl
    · rw [h1 0 (by omega), if_pos rfl]
      exact ih (f ∘ Nat.succ) j (by omega) (fun l hl => h1 (l + 1) (by omega)) h2

end Sys2Proof.Machine
end

