-- ==== Sys2Proof/Laws/Codec.lean ====
section
/-!
SUPPORT. The fields of an assembled word (30_encoding.md R51): what the decoder's field readers give on each of the encoder's formats.
-/

namespace Sys2Proof

@[simp] theorem Cond.ofBits_bits (c : Cond) : Cond.ofBits c.bits = c := by cases c <;> rfl

@[simp] theorem Cond.bits_ofBits (b : BitVec 4) : (Cond.ofBits b).bits = b := by
  revert b; decide

@[simp] theorem Reg.toFin_bits (r : Reg) : (Reg.bits r).toFin = r := rfl

/-- Reading above the low part of a concatenation. -/
theorem extract_append_high {m n k l : Nat} (x : BitVec m) (y : BitVec n) (h : n ≤ l) :
    (x ++ y).extractLsb' l k = x.extractLsb' (l - n) k := by
  apply BitVec.eq_of_getLsbD_eq
  intro i hi
  simp [BitVec.getLsbD_append, hi, show ¬ l + i < n by omega, show l + i - n = l - n + i by omega]

/-- Reading inside the low part of a concatenation. -/
theorem extract_append_low {m n k l : Nat} (x : BitVec m) (y : BitVec n) (h : l + k ≤ n) :
    (x ++ y).extractLsb' l k = y.extractLsb' l k := by
  apply BitVec.eq_of_getLsbD_eq
  intro i hi
  simp [BitVec.getLsbD_append, hi, show l + i < n by omega]

/-- Reading a whole value. -/
theorem extract_whole {n : Nat} (x : BitVec n) : x.extractLsb' 0 n = x := by
  apply BitVec.eq_of_getLsbD_eq
  intro i hi
  simp [hi]

section
variable (c : Cond) (g p h k a b d : BitVec 4)

@[simp] theorem cond_asmDefault : condField (asmDefault c g p h k a b d) = c.bits := by
  unfold condField nibble asmDefault
  rw [extract_append_high _ d (by omega), extract_append_high _ b (by omega), extract_append_high _ a (by omega),
    extract_append_high _ k (by omega), extract_append_high _ h (by omega), extract_append_high _ p (by omega),
    extract_append_high _ g (by omega)]
  exact extract_whole _
@[simp] theorem group_asmDefault : groupField (asmDefault c g p h k a b d) = g := by
  unfold groupField nibble asmDefault
  rw [extract_append_high _ d (by omega), extract_append_high _ b (by omega), extract_append_high _ a (by omega),
    extract_append_high _ k (by omega), extract_append_high _ h (by omega), extract_append_high _ p (by omega),
    extract_append_low _ g (by omega)]
  exact extract_whole _
@[simp] theorem opcode_asmDefault : opcodeField (asmDefault c g p h k a b d) = p := by
  unfold opcodeField nibble asmDefault
  rw [extract_append_high _ d (by omega), extract_append_high _ b (by omega), extract_append_high _ a (by omega),
    extract_append_high _ k (by omega), extract_append_high _ h (by omega), extract_append_low _ p (by omega)]
  exact extract_whole _
@[simp] theorem nibble16_asmDefault : nibble (asmDefault c g p h k a b d) 16 = h := by
  unfold nibble asmDefault
  rw [extract_append_high _ d (by omega), extract_append_high _ b (by omega), extract_append_high _ a (by omega),
    extract_append_high _ k (by omega), extract_append_low _ h (by omega)]
  exact extract_whole _
@[simp] theorem nibble12_asmDefault : nibble (asmDefault c g p h k a b d) 12 = k := by
  unfold nibble asmDefault
  rw [extract_append_high _ d (by omega), extract_append_high _ b (by omega), extract_append_high _ a (by omega),
    extract_append_low _ k (by omega)]
  exact extract_whole _
@[simp] theorem nibble8_asmDefault : nibble (asmDefault c g p h k a b d) 8 = a := by
  unfold nibble asmDefault
  rw [extract_append_high _ d (by omega), extract_append_high _ b (by omega), extract_append_low _ a (by omega)]
  exact extract_whole _
@[simp] theorem nibble4_asmDefault : nibble (asmDefault c g p h k a b d) 4 = b := by
  unfold nibble asmDefault
  rw [extract_append_high _ d (by omega), extract_append_low _ b (by omega)]
  exact extract_whole _
@[simp] theorem nibble0_asmDefault : nibble (asmDefault c g p h k a b d) 0 = d := by
  unfold nibble asmDefault
  rw [extract_append_low _ d (by omega)]
  exact extract_whole _
end

/-- A bit of the Config cell is a bit of the cell (R56). -/
theorem bitAt_config (w : Word) (i : Nat) (h : i < 4) : bitAt w (12 + i) = (nibble w 12).getLsbD i := by
  simp [bitAt, nibble, h]

/-- The don't-care bits are the upper bits of the Config cell (R67). -/
theorem x3_of_nibble (w : Word) : x3Field w = (nibble w 12).extractLsb' 1 3 := by
  apply BitVec.eq_of_getLsbD_eq
  intro i hi
  simp [x3Field, nibble, hi, show 1 + i < 4 by omega, show 12 + (1 + i) = 13 + i by omega]

/-- `imm8` is the two low cells (R59). -/
theorem imm8_of_nibbles (w : Word) : imm8Field w = nibble w 4 ++ nibble w 0 := by
  apply BitVec.eq_of_getLsbD_eq
  intro i hi
  simp only [imm8Field, nibble, BitVec.getLsbD_append, BitVec.getLsbD_extractLsb']
  by_cases h : i < 4
  · simp [h, hi]
  · simp [h, hi, show i - 4 < 4 by omega, show 4 + (i - 4) = i by omega]

@[simp] theorem config_bit3 (x y z t : Bool) : (config x y z t).getLsbD 3 = x := by revert x y z t; decide
@[simp] theorem config_bit2 (x y z t : Bool) : (config x y z t).getLsbD 2 = y := by revert x y z t; decide
@[simp] theorem config_bit1 (x y z t : Bool) : (config x y z t).getLsbD 1 = z := by revert x y z t; decide
@[simp] theorem config_bit0 (x y z t : Bool) : (config x y z t).getLsbD 0 = t := by revert x y z t; decide
@[simp] theorem configX_high (x : BitVec 3) (b : Bool) : (configX x b).extractLsb' 1 3 = x := by revert x b; decide
@[simp] theorem configX_bit0 (x : BitVec 3) (b : Bool) : (configX x b).getLsbD 0 = b := by revert x b; decide

section
variable (c : Cond) (p : BitVec 4) (d : Reg) (n : BitVec 16) (g : BitVec 4) (v : BitVec 24)

@[simp] theorem cond_asmImm : condField (asmImm c p d n) = c.bits := by
  unfold condField nibble asmImm
  rw [extract_append_high _ n (by omega), extract_append_high _ d.bits (by omega), extract_append_high _ p (by omega),
    extract_append_high _ 7#4 (by omega)]
  exact extract_whole _
@[simp] theorem group_asmImm : groupField (asmImm c p d n) = 7#4 := by
  unfold groupField nibble asmImm
  rw [extract_append_high _ n (by omega), extract_append_high _ d.bits (by omega), extract_append_high _ p (by omega),
    extract_append_low _ 7#4 (by omega)]
  exact extract_whole _
@[simp] theorem opcode_asmImm : opcodeField (asmImm c p d n) = p := by
  unfold opcodeField nibble asmImm
  rw [extract_append_high _ n (by omega), extract_append_high _ d.bits (by omega), extract_append_low _ p (by omega)]
  exact extract_whole _
@[simp] theorem nibble16_asmImm : nibble (asmImm c p d n) 16 = d.bits := by
  unfold nibble asmImm
  rw [extract_append_high _ n (by omega), extract_append_low _ d.bits (by omega)]
  exact extract_whole _
@[simp] theorem imm16_asmImm : imm16Field (asmImm c p d n) = n := by
  unfold imm16Field asmImm
  rw [extract_append_low _ n (by omega)]
  exact extract_whole _
@[simp] theorem cond_asmBranch : condField (asmBranch c g v) = c.bits := by
  unfold condField nibble asmBranch
  rw [extract_append_high _ v (by omega), extract_append_high _ g (by omega)]
  exact extract_whole _
@[simp] theorem group_asmBranch : groupField (asmBranch c g v) = g := by
  unfold groupField nibble asmBranch
  rw [extract_append_high _ v (by omega), extract_append_low _ g (by omega)]
  exact extract_whole _
@[simp] theorem off24_asmBranch : off24Field (asmBranch c g v) = v := by
  unfold off24Field asmBranch
  rw [extract_append_low _ v (by omega)]
  exact extract_whole _
end

@[simp] theorem cond_asmSingle (c : Cond) (g p : BitVec 4) (a : Single) : condField (asmSingle c g p a) = c.bits := by
  unfold asmSingle; split <;> simp
@[simp] theorem group_asmSingle (c : Cond) (g p : BitVec 4) (a : Single) : groupField (asmSingle c g p a) = g := by
  unfold asmSingle; split <;> simp
@[simp] theorem opcode_asmSingle (c : Cond) (g p : BitVec 4) (a : Single) : opcodeField (asmSingle c g p a) = p := by
  unfold asmSingle; split <;> simp
@[simp] theorem cond_asmMulti (c : Cond) (g : BitVec 4) (m : Multi) : condField (asmMulti c g m) = c.bits := by
  simp [asmMulti]
@[simp] theorem cond_asmRegBranch (c : Cond) (p : BitVec 4) (x : BitVec 3) (a : Reg) (o : Option Reg) :
    condField (asmRegBranch c p x a o) = c.bits := by
  unfold asmRegBranch; split <;> simp

/-! ### The condition code of an assembled word -/

theorem condOf_asmDefault (c : Cond) (g p h k a b d : BitVec 4) : condOf (asmDefault c g p h k a b d) = c := by simp [condOf]
theorem condOf_asmImm (c : Cond) (p : BitVec 4) (d : Reg) (n : BitVec 16) : condOf (asmImm c p d n) = c := by simp [condOf]
theorem condOf_asmBranch (c : Cond) (g : BitVec 4) (v : BitVec 24) : condOf (asmBranch c g v) = c := by simp [condOf]
theorem condOf_asmSingle (c : Cond) (g p : BitVec 4) (a : Single) : condOf (asmSingle c g p a) = c := by simp [condOf]
theorem condOf_asmMulti (c : Cond) (g : BitVec 4) (m : Multi) : condOf (asmMulti c g m) = c := by simp [condOf]
theorem condOf_asmRegBranch (c : Cond) (p : BitVec 4) (x : BitVec 3) (a : Reg) (o : Option Reg) :
    condOf (asmRegBranch c p x a o) = c := by simp [condOf]

end Sys2Proof
end

