-- ==== Sys2Proof/Laws/Ops.lean ====
section
/-!
SUPPORT. One spec lemma per shared operation above the access: running under a condition, taking an exception, and the shared effects
of the families (what they answer, and when they stop).
-/

namespace Sys2Proof.Machine

/-! ### Outcomes -/

@[simp] theorem State.finish_ok (s t : State) : s.finish (.ok t) = .next t := rfl
@[simp] theorem State.finish_raise (s : State) (e : Exception) : s.finish (.error (.raise e)) = .fault (.trapped e s) := rfl
@[simp] theorem State.finish_refuse (s : State) (r : Refusal) : s.finish (.error (.refuse r)) = .refused r := rfl

theorem State.finish_next (s t : State) (b : Except Stop State) : s.finish b = .next t ↔ b = .ok t := by
  rcases b with (e | r) | u <;> simp [State.finish, State.raise]

theorem State.finish_fault (s : State) (f : Fault) (b : Except Stop State) :
    s.finish b = .fault f ↔ ∃ e, b = .error (.raise e) ∧ f = .trapped e s := by
  rcases b with (e | r) | u <;> simp [State.finish, State.raise, eq_comm]

theorem State.finish_refused (s : State) (r : Refusal) (b : Except Stop State) :
    s.finish b = .refused r ↔ b = .error (.refuse r) := by
  rcases b with (e | r') | u <;> simp [State.finish, State.raise]

/-- When the condition holds, the instruction's own effect decides (R63). -/
theorem State.perform_of_holds {s : State} {c : Cond} (h : s.condHolds c = true) (b : Except Stop State) :
    s.perform c b = s.finish b := by simp [State.perform, h]

/-- When it does not, only the pc moves on (R63). -/
theorem State.perform_of_not {s : State} {c : Cond} (h : s.condHolds c = false) (b : Except Stop State) :
    s.perform c b = .next s.advance := by simp [State.perform, h]

/-- Everything a completed instruction can be. -/
theorem State.perform_next (s t : State) (c : Cond) (b : Except Stop State) :
    s.perform c b = .next t ↔ (s.condHolds c = true ∧ b = .ok t) ∨ (s.condHolds c = false ∧ t = s.advance) := by
  cases h : s.condHolds c
  · simp [State.perform_of_not h, eq_comm]
  · simp [State.perform_of_holds h, State.finish_next]

/-- A fault of an instruction is an exception it raised, with the state before it (R211, R213). -/
theorem State.perform_fault (s : State) (f : Fault) (c : Cond) (b : Except Stop State) :
    s.perform c b = .fault f ↔ s.condHolds c = true ∧ ∃ e, b = .error (.raise e) ∧ f = .trapped e s := by
  cases h : s.condHolds c
  · simp [State.perform_of_not h]
  · simp [State.perform_of_holds h, State.finish_fault]

theorem State.perform_refused (s : State) (r : Refusal) (c : Cond) (b : Except Stop State) :
    s.perform c b = .refused r ↔ s.condHolds c = true ∧ b = .error (.refuse r) := by
  cases h : s.condHolds c
  · simp [State.perform_of_not h]
  · simp [State.perform_of_holds h, State.finish_refused]

/-- Every instruction runs under its own condition code (R62, R63). -/
theorem exec_perform (i : Instr) (s : State) : ∃ b : Except Stop State, exec i s = s.perform i.cond b := by
  cases i <;> exact ⟨_, rfl⟩

/-! ### Except, step by step -/

theorem except_map_ok {α β : Type} (r : Except Stop α) (f : α → β) (b : β) : r.map f = .ok b ↔ ∃ a, r = .ok a ∧ f a = b := by
  cases r <;> simp [Except.map]

theorem except_map_error {α β : Type} (r : Except Stop α) (f : α → β) (e : Stop) : r.map f = .error e ↔ r = .error e := by
  cases r <;> simp [Except.map]

theorem except_bind_ok {α β : Type} (r : Except Stop α) (f : α → Except Stop β) (b : β) :
    r.bind f = .ok b ↔ ∃ a, r = .ok a ∧ f a = .ok b := by
  cases r <;> simp [Except.bind]

theorem except_bind_error {α β : Type} (r : Except Stop α) (f : α → Except Stop β) (e : Stop) :
    r.bind f = .error e ↔ r = .error e ∨ ∃ a, r = .ok a ∧ f a = .error e := by
  cases r <;> simp [Except.bind]

/-! ### The shared effects -/

/-- An additive instruction completes unless O=1 and the signed sum overflows (R101). -/
theorem additive_ok (w : Word) (o f : Bool) (a b : Word) (cin : Bool) (d : Option Reg) (s t : State) :
    additive w o f a b cin d s = .ok t ↔ (o && (addWithCarry a b cin).2.v) = false ∧
      t = ((writeDest d (addWithCarry a b cin).1 s).setFlagsIf f (addWithCarry a b cin).2).advance := by
  unfold additive
  cases h : o && (addWithCarry a b cin).2.v <;> simp [h, eq_comm]

/-- An additive instruction stops only by raising Overflow (R101). -/
theorem additive_error (w : Word) (o f : Bool) (a b : Word) (cin : Bool) (d : Option Reg) (s : State) (e : Stop) :
    additive w o f a b cin d s = .error e ↔ (o && (addWithCarry a b cin).2.v) = true ∧ e = .raise (.overflow w) := by
  unfold additive
  cases h : o && (addWithCarry a b cin).2.v <;> simp [h, eq_comm]

theorem checkDivisor_ok (w b : Word) : checkDivisor w b = .ok () ↔ b ≠ 0#32 := by
  unfold checkDivisor; split <;> simp [*]

theorem checkDivisor_error (w b : Word) (e : Stop) : checkDivisor w b = .error e ↔ b = 0#32 ∧ e = .raise (.divideByZero w) := by
  unfold checkDivisor; split <;> simp [*, eq_comm]

theorem checkTarget_ok (t : Word) : checkTarget t = .ok () ↔ t.toNat % 4 = 0 := by
  unfold checkTarget; split <;> simp [*]

theorem checkTarget_error (t : Word) (e : Stop) :
    checkTarget t = .error e ↔ t.toNat % 4 ≠ 0 ∧ e = .raise (.instructionAddressMisaligned t) := by
  unfold checkTarget
  split
  · simp [*]
  · simp [*, eq_comm (a := e)]

theorem checkMulti_ok (m : Multi) : checkMulti m = .ok () ↔ m.wellFormed = true := by
  unfold checkMulti Multi.wellFormed
  by_cases h : m.des2 = m.base <;> cases m.wb <;> cases m.baseInList <;> simp [h]

theorem checkMulti_error (m : Multi) (e : Stop) :
    checkMulti m = .error e ↔ (m.des2 ≠ m.base ∧ e = .refuse .multiDes2) ∨
      (m.des2 = m.base ∧ m.wb = true ∧ m.baseInList = true ∧ e = .refuse .multiBaseInList) := by
  unfold checkMulti
  by_cases h : m.des2 = m.base <;> cases m.wb <;> cases m.baseInList <;> simp [h, eq_comm (a := e)]

theorem privileged_ok (w : Word) (s t u : State) : privileged w s t = .ok u ↔ s.mode = .supervisor ∧ u = t := by
  unfold privileged
  cases s.mode <;> simp [eq_comm]

theorem privileged_error (w : Word) (s t : State) (e : Stop) :
    privileged w s t = .error e ↔ s.mode = .user ∧ e = .raise (.privilegeViolation w) := by
  unfold privileged
  cases s.mode <;> simp [eq_comm]

/-- A single load completes exactly when it is not refused and its access answers a value (R132). -/
theorem loadSingle_ok (n : Size) (ext : Word → Word) (a : Single) (s t : State) :
    loadSingle n ext a s = .ok t ↔ a.collides = false ∧ ∃ v, s.readMem .read (accessAddr a s) n = .ok v ∧
      t = (writeBack a.wb a.base (newBase a s) (s.setReg a.data (ext v))).advance := by
  unfold loadSingle
  cases h : a.collides <;> simp [except_map_ok, eq_comm (a := t)]

/-- A single load is refused, or stops as its access does (R132). -/
theorem loadSingle_error (n : Size) (ext : Word → Word) (a : Single) (s : State) (e : Stop) :
    loadSingle n ext a s = .error e ↔ (a.collides = true ∧ e = .refuse .loadBaseCollision) ∨
      (a.collides = false ∧ s.readMem .read (accessAddr a s) n = .error e) := by
  unfold loadSingle
  cases h : a.collides <;> simp [except_map_error, eq_comm (a := e)]

/-- A single store completes exactly when its access passes the checks (R150). -/
theorem storeSingle_ok (n : Size) (a : Single) (s t : State) :
    storeSingle n a s = .ok t ↔ n.aligned (accessAddr a s) = true ∧ s.mapped .write (accessAddr a s) n = true ∧
      t = (writeBack a.wb a.base (newBase a s) (s.storeBytes (accessAddr a s) n (s.reg a.data))).advance := by
  unfold storeSingle
  rw [except_map_ok]
  constructor
  · rintro ⟨u, hu, rfl⟩
    obtain ⟨h1, h2, rfl⟩ := (s.writeMem_ok _ _ _ _).mp hu
    exact ⟨h1, h2, rfl⟩
  · rintro ⟨h1, h2, rfl⟩
    exact ⟨_, (s.writeMem_ok _ _ _ _).mpr ⟨h1, h2, rfl⟩, rfl⟩

/-- A single store stops exactly as its access's checks do (R150). -/
theorem storeSingle_error (n : Size) (a : Single) (s : State) (e : Stop) :
    storeSingle n a s = .error e ↔ s.checkAccess .write (accessAddr a s) n = .error e := by
  unfold storeSingle
  rw [except_map_error, State.writeMem]
  cases s.checkAccess .write (accessAddr a s) n <;> simp

/-- A multiple load completes exactly when it is not refused, its checks pass and every byte has a value (R133, R135). -/
theorem loadMulti_ok (m : Multi) (s t : State) :
    loadMulti m s = .ok t ↔ m.wellFormed = true ∧ checkBlock s .read (blockAddrs m s) = .ok () ∧
      ∃ vs, readWords s (blockAddrs m s) = .ok vs ∧
        t = (writeBack m.wb m.base (blockNew m s) (s.setRegs (m.regs.zip vs))).advance := by
  simp only [loadMulti, except_bind_ok, except_map_ok]
  constructor
  · rintro ⟨⟨⟩, h1, ⟨⟩, h2, vs, h3, rfl⟩
    exact ⟨(checkMulti_ok m).mp h1, h2, vs, h3, rfl⟩
  · rintro ⟨h1, h2, vs, h3, rfl⟩
    exact ⟨(), (checkMulti_ok m).mpr h1, (), h2, vs, h3, rfl⟩

/-- How a multiple load stops: refused, a failed check, or a byte without a value (R133, R135). -/
theorem loadMulti_error (m : Multi) (s : State) (e : Stop) :
    loadMulti m s = .error e ↔ checkMulti m = .error e ∨ (m.wellFormed = true ∧ (checkBlock s .read (blockAddrs m s) = .error e ∨
      (checkBlock s .read (blockAddrs m s) = .ok () ∧ readWords s (blockAddrs m s) = .error e))) := by
  simp only [loadMulti, except_bind_error, except_map_error, ← checkMulti_ok]
  constructor
  · rintro (h | ⟨⟨⟩, h1, h | ⟨⟨⟩, h2, h3⟩⟩)
    · exact .inl h
    · exact .inr ⟨h1, .inl h⟩
    · exact .inr ⟨h1, .inr ⟨h2, h3⟩⟩
  · rintro (h | ⟨h1, h | ⟨h2, h3⟩⟩)
    · exact .inl h
    · exact .inr ⟨(), h1, .inl h⟩
    · exact .inr ⟨(), h1, .inr ⟨(), h2, h3⟩⟩

/-- A multiple store completes exactly when it is not refused and its checks pass (R133, R153). -/
theorem storeMulti_ok (m : Multi) (s t : State) :
    storeMulti m s = .ok t ↔ m.wellFormed = true ∧ checkBlock s .write (blockAddrs m s) = .ok () ∧
      t = (writeBack m.wb m.base (blockNew m s) (storeWords s ((blockAddrs m s).zip (m.regs.map s.reg)))).advance := by
  simp only [storeMulti, except_bind_ok, except_map_ok]
  constructor
  · rintro ⟨⟨⟩, h1, ⟨⟩, h2, rfl⟩
    exact ⟨(checkMulti_ok m).mp h1, h2, rfl⟩
  · rintro ⟨h1, h2, rfl⟩
    exact ⟨(), (checkMulti_ok m).mpr h1, (), h2, rfl⟩

/-- How a multiple store stops: refused or a failed check (R133, R153). -/
theorem storeMulti_error (m : Multi) (s : State) (e : Stop) :
    storeMulti m s = .error e ↔
      checkMulti m = .error e ∨ (m.wellFormed = true ∧ checkBlock s .write (blockAddrs m s) = .error e) := by
  simp only [storeMulti, except_bind_error, except_map_error, ← checkMulti_ok]
  constructor
  · rintro (h | ⟨⟨⟩, h1, h⟩)
    · exact .inl h
    · exact .inr ⟨h1, h⟩
  · rintro (h | ⟨h1, h⟩)
    · exact .inl h
    · exact .inr ⟨(), h1, h⟩

/-- A call pushes the return address and goes to its target (R122, R202). -/
theorem callTo_ok (t : Word) (s u : State) :
    callTo t s = .ok u ↔ ∃ p, s.push (s.pc + 4#32) = .ok p ∧ u = p.setPc t := by
  simp [callTo, except_map_ok, eq_comm (a := u)]

/-- A call stops exactly as its push does. -/
theorem callTo_error (t : Word) (s : State) (e : Stop) : callTo t s = .error e ↔ s.push (s.pc + 4#32) = .error e := by
  simp [callTo, except_map_error]

/-! ### The step -/

theorem step_of_stopped {s : State} (h : s.run = .stopped) : step s = .next s := by simp [step, h]
theorem step_of_waiting {s : State} (h : s.run = .waiting) : step s = s.pollInterrupt := by simp [step, h]
theorem step_of_running {s : State} (h : s.run = .running) : step s = s.runInstr := by simp [step, h]

/-- A step that answers a next state: nothing happened to a stopped CPU, a waiting one was not interrupted, or a running one executed
the instruction at its pc. -/
theorem step_next {s t : State} (h : step s = .next t) :
    (s.run = .stopped ∧ t = s) ∨ (s.run = .waiting ∧ t = { s with irqPolls := s.irqPolls + 1 }) ∨
      (s.run = .running ∧ ∃ w i, s.fetch = .ok w ∧ decodeWord w = .ok i ∧ exec i s = .next t) := by
  rcases hr : s.run with _ | _ | _
  case stopped =>
    rw [step_of_stopped hr] at h
    exact .inl ⟨rfl, (Host.Outcome.next.inj h).symm⟩
  case waiting =>
    rw [step_of_waiting hr] at h
    simp only [State.pollInterrupt] at h
    split at h
    · cases h
    · refine .inr (.inl ⟨rfl, ?_⟩)
      rw [← Host.Outcome.next.inj h, hr]
  case running =>
    rw [step_of_running hr] at h
    simp only [State.runInstr] at h
    cases hf : s.fetch with
    | error e => simp only [hf, State.finish_next, reduceCtorEq] at h
    | ok w =>
      simp only [hf] at h
      cases hd : decodeWord w with
      | error r => cases r <;> simp [hd, State.rejectWord, State.raise] at h
      | ok i => exact .inr (.inr ⟨rfl, w, i, rfl, hd, by simpa [hd] using h⟩)

end Sys2Proof.Machine
end

