-- ==== Sys2Proof/Laws/PerInstr.lean ====
section
/-!
SUPPORT. The family CondField: whatever the instruction, bits 31-28 of its word are its condition code (30_encoding.md R62), one lemma per
constructor.
-/

namespace Sys2Proof.Laws

/-- Bits 31-28 of the instruction's word are the code of its condition (R62). -/
def CondField.Statement (i : Instr) : Prop := condOf (encode i) = i.cond

theorem CondField.and (c : Cond) (x : BitVec 3) (f : Bool) (src1 src2 dest : Reg) : CondField.Statement (.and c x f src1 src2 dest) :=
  condOf_asmDefault _ _ _ _ _ _ _ _
theorem CondField.or (c : Cond) (x : BitVec 3) (f : Bool) (src1 src2 dest : Reg) : CondField.Statement (.or c x f src1 src2 dest) :=
  condOf_asmDefault _ _ _ _ _ _ _ _
theorem CondField.xor (c : Cond) (x : BitVec 3) (f : Bool) (src1 src2 dest : Reg) : CondField.Statement (.xor c x f src1 src2 dest) :=
  condOf_asmDefault _ _ _ _ _ _ _ _
theorem CondField.nand (c : Cond) (x : BitVec 3) (f : Bool) (src1 src2 dest : Reg) : CondField.Statement (.nand c x f src1 src2 dest) :=
  condOf_asmDefault _ _ _ _ _ _ _ _
theorem CondField.not (c : Cond) (x : BitVec 3) (f : Bool) (src1 dest : Reg) : CondField.Statement (.not c x f src1 dest) :=
  condOf_asmDefault _ _ _ _ _ _ _ _
theorem CondField.nor (c : Cond) (x : BitVec 3) (f : Bool) (src1 src2 dest : Reg) : CondField.Statement (.nor c x f src1 src2 dest) :=
  condOf_asmDefault _ _ _ _ _ _ _ _
theorem CondField.xnor (c : Cond) (x : BitVec 3) (f : Bool) (src1 src2 dest : Reg) : CondField.Statement (.xnor c x f src1 src2 dest) :=
  condOf_asmDefault _ _ _ _ _ _ _ _
theorem CondField.cntlz (c : Cond) (x : BitVec 3) (f : Bool) (src1 dest : Reg) : CondField.Statement (.cntlz c x f src1 dest) :=
  condOf_asmDefault _ _ _ _ _ _ _ _
theorem CondField.cntlo (c : Cond) (x : BitVec 3) (f : Bool) (src1 dest : Reg) : CondField.Statement (.cntlo c x f src1 dest) :=
  condOf_asmDefault _ _ _ _ _ _ _ _
theorem CondField.popcnt (c : Cond) (x : BitVec 3) (f : Bool) (src1 dest : Reg) : CondField.Statement (.popcnt c x f src1 dest) :=
  condOf_asmDefault _ _ _ _ _ _ _ _
theorem CondField.add (c : Cond) (x o f : Bool) (src1 src2 dest : Reg) : CondField.Statement (.add c x o f src1 src2 dest) :=
  condOf_asmDefault _ _ _ _ _ _ _ _
theorem CondField.sub (c : Cond) (x o f : Bool) (src1 src2 dest : Reg) : CondField.Statement (.sub c x o f src1 src2 dest) :=
  condOf_asmDefault _ _ _ _ _ _ _ _
theorem CondField.addc (c : Cond) (x o f : Bool) (src1 src2 dest : Reg) : CondField.Statement (.addc c x o f src1 src2 dest) :=
  condOf_asmDefault _ _ _ _ _ _ _ _
theorem CondField.subc (c : Cond) (x o f : Bool) (src1 src2 dest : Reg) : CondField.Statement (.subc c x o f src1 src2 dest) :=
  condOf_asmDefault _ _ _ _ _ _ _ _
theorem CondField.neg (c : Cond) (x o f : Bool) (src1 dest : Reg) : CondField.Statement (.neg c x o f src1 dest) :=
  condOf_asmDefault _ _ _ _ _ _ _ _
theorem CondField.comp (c : Cond) (x o : Bool) (src1 src2 : Reg) : CondField.Statement (.comp c x o src1 src2) :=
  condOf_asmDefault _ _ _ _ _ _ _ _
theorem CondField.mult (c : Cond) (x f : Bool) (src1 src2 dest : Reg) : CondField.Statement (.mult c x f src1 src2 dest) :=
  condOf_asmDefault _ _ _ _ _ _ _ _
theorem CondField.div (c : Cond) (x f : Bool) (src1 src2 dest : Reg) : CondField.Statement (.div c x f src1 src2 dest) :=
  condOf_asmDefault _ _ _ _ _ _ _ _
theorem CondField.rem (c : Cond) (x f : Bool) (src1 src2 dest : Reg) : CondField.Statement (.rem c x f src1 src2 dest) :=
  condOf_asmDefault _ _ _ _ _ _ _ _
theorem CondField.lmul (c : Cond) (x sg f : Bool) (des2 src1 src2 dest : Reg) : CondField.Statement (.lmul c x sg f des2 src1 src2 dest) :=
  condOf_asmDefault _ _ _ _ _ _ _ _
theorem CondField.rbra (c : Cond) (x : BitVec 3) (src1 : Reg) (off : Option Reg) : CondField.Statement (.rbra c x src1 off) :=
  condOf_asmRegBranch _ _ _ _ _
theorem CondField.rcall (c : Cond) (x : BitVec 3) (src1 : Reg) (off : Option Reg) : CondField.Statement (.rcall c x src1 off) :=
  condOf_asmRegBranch _ _ _ _ _
theorem CondField.ret (c : Cond) : CondField.Statement (.ret c) :=
  condOf_asmDefault _ _ _ _ _ _ _ _
theorem CondField.load (c : Cond) (a : Single) : CondField.Statement (.load c a) :=
  condOf_asmSingle _ _ _ _
theorem CondField.loadm (c : Cond) (m : Multi) : CondField.Statement (.loadm c m) :=
  condOf_asmMulti _ _ _
theorem CondField.loadb (c : Cond) (a : Single) : CondField.Statement (.loadb c a) :=
  condOf_asmSingle _ _ _ _
theorem CondField.loadh (c : Cond) (a : Single) : CondField.Statement (.loadh c a) :=
  condOf_asmSingle _ _ _ _
theorem CondField.pop (c : Cond) (dest : Reg) : CondField.Statement (.pop c dest) :=
  condOf_asmDefault _ _ _ _ _ _ _ _
theorem CondField.loadbe (c : Cond) (a : Single) : CondField.Statement (.loadbe c a) :=
  condOf_asmSingle _ _ _ _
theorem CondField.popf (c : Cond) : CondField.Statement (.popf c) :=
  condOf_asmDefault _ _ _ _ _ _ _ _
theorem CondField.loadhe (c : Cond) (a : Single) : CondField.Statement (.loadhe c a) :=
  condOf_asmSingle _ _ _ _
theorem CondField.stor (c : Cond) (a : Single) : CondField.Statement (.stor c a) :=
  condOf_asmSingle _ _ _ _
theorem CondField.storm (c : Cond) (m : Multi) : CondField.Statement (.storm c m) :=
  condOf_asmMulti _ _ _
theorem CondField.storb (c : Cond) (a : Single) : CondField.Statement (.storb c a) :=
  condOf_asmSingle _ _ _ _
theorem CondField.storh (c : Cond) (a : Single) : CondField.Statement (.storh c a) :=
  condOf_asmSingle _ _ _ _
theorem CondField.push (c : Cond) (dest : Reg) : CondField.Statement (.push c dest) :=
  condOf_asmDefault _ _ _ _ _ _ _ _
theorem CondField.pushpc (c : Cond) : CondField.Statement (.pushpc c) :=
  condOf_asmDefault _ _ _ _ _ _ _ _
theorem CondField.pushf (c : Cond) : CondField.Statement (.pushf c) :=
  condOf_asmDefault _ _ _ _ _ _ _ _
theorem CondField.stop (c : Cond) : CondField.Statement (.stop c) :=
  condOf_asmDefault _ _ _ _ _ _ _ _
theorem CondField.wait (c : Cond) : CondField.Statement (.wait c) :=
  condOf_asmDefault _ _ _ _ _ _ _ _
theorem CondField.switchm (c : Cond) : CondField.Statement (.switchm c) :=
  condOf_asmDefault _ _ _ _ _ _ _ _
theorem CondField.movimm (c : Cond) (des2 : Reg) (imm : BitVec 16) : CondField.Statement (.movimm c des2 imm) :=
  condOf_asmImm _ _ _ _
theorem CondField.movuimm (c : Cond) (des2 : Reg) (imm : BitVec 16) : CondField.Statement (.movuimm c des2 imm) :=
  condOf_asmImm _ _ _ _
theorem CondField.andimm (c : Cond) (des2 : Reg) (imm : BitVec 16) : CondField.Statement (.andimm c des2 imm) :=
  condOf_asmImm _ _ _ _
theorem CondField.orimm (c : Cond) (des2 : Reg) (imm : BitVec 16) : CondField.Statement (.orimm c des2 imm) :=
  condOf_asmImm _ _ _ _
theorem CondField.xorimm (c : Cond) (des2 : Reg) (imm : BitVec 16) : CondField.Statement (.xorimm c des2 imm) :=
  condOf_asmImm _ _ _ _
theorem CondField.addimm (c : Cond) (des2 : Reg) (imm : BitVec 16) : CondField.Statement (.addimm c des2 imm) :=
  condOf_asmImm _ _ _ _
theorem CondField.subimm (c : Cond) (des2 : Reg) (imm : BitVec 16) : CondField.Statement (.subimm c des2 imm) :=
  condOf_asmImm _ _ _ _
theorem CondField.compimm (c : Cond) (des2 : Reg) (imm : BitVec 16) : CondField.Statement (.compimm c des2 imm) :=
  condOf_asmImm _ _ _ _
theorem CondField.bra (c : Cond) (off24 : BitVec 24) : CondField.Statement (.bra c off24) :=
  condOf_asmBranch _ _ _
theorem CondField.call (c : Cond) (off24 : BitVec 24) : CondField.Statement (.call c off24) :=
  condOf_asmBranch _ _ _

end Sys2Proof.Laws
end

