-- ==== Sys2Proof/Tests/Slice0.lean ====
section
/-!
SUPPORT. Tests of the model: ill-formed terms refused, words written out from the spec, one step of every instruction, and for every
statement of Sys2Proof/Certificates/Slice0/Obligations.lean a state that meets its hypotheses. Expected values are those of
95_test_vectors.md and of the worked examples in the rules, unless a comment says "by hand".
-/

namespace Sys2Proof.Tests

open Sys2Proof.Machine

/-! ### Helpers -/

/-- The reset state with some registers written. -/
def st (rs : List (Reg × Word)) : State := State.reset.setRegs rs

/-- A state with bytes stored from an address up. -/
def withBytes (s : State) (a : Word) (bs : List Byte) : State := { s with mem := s.mem.writeAll a bs }

/-- A state with a word in memory. -/
def withWord (s : State) (a v : Word) : State := s.storeBytes a .word v

/-- One step on a word placed where the machine fetches. -/
def run1 (s : State) (w : Nat) : Outcome := step (s.withFetchWord 32 w)

/-- The outcome is a next state that passes a check. -/
def reaches (o : Outcome) (p : State → Bool) : Bool :=
  match o with
  | .next t => p t
  | _ => false

/-- The outcome is this exception, and the pc is where it was. -/
def traps (o : Outcome) (e : Machine.Exception) (pc : Word) : Bool :=
  match o with
  | .fault (.trapped e' t) => e' == e && t.pc == pc
  | _ => false

/-- The outcome is this refusal. -/
def refuses (o : Outcome) (r : Refusal) : Bool :=
  match o with
  | .refused r' => r' == r
  | _ => false

/-- The decoder reads this instruction from the word. -/
def decodesTo (w : Word) (i : Instr) : Bool :=
  match decodeWord w with
  | .ok j => j == i
  | .error _ => false

/-- The decoder rejects the word for this reason. -/
def rejects (w : Word) (r : Reject) : Bool :=
  match decodeWord w with
  | .ok _ => false
  | .error r' => r' == r

/-- Four bytes of memory, the lowest address first. -/
def bytesAt (t : State) (a : Nat) (b0 b1 b2 b3 : Byte) : Bool :=
  t.mem.read a == some b0 && t.mem.read (a + 1) == some b1 && t.mem.read (a + 2) == some b2 && t.mem.read (a + 3) == some b3

/-- The four flags Z, N, V, C. -/
def fl (z n v c : Bool) : Flags := ⟨z, n, v, c⟩

/-! ### Ill-formed operands are refused by WellFormed (R111, R132, R133, R138) -/

theorem test_wf_lmul : (Instr.lmul .al false false false 3 1 2 3).wellFormed = false := by decide
theorem test_wf_load : (Instr.load .al ⟨1, 1, .imm 4#8, true, false, true⟩).wellFormed = false := by decide
theorem test_wf_loadb : (Instr.loadb .al ⟨1, 1, .imm 4#8, true, false, true⟩).wellFormed = false := by decide
theorem test_wf_loadh : (Instr.loadh .al ⟨1, 1, .reg 2, true, false, true⟩).wellFormed = false := by decide
theorem test_wf_loadbe : (Instr.loadbe .al ⟨1, 1, .reg 2, true, false, true⟩).wellFormed = false := by decide
theorem test_wf_loadhe : (Instr.loadhe .al ⟨1, 1, .imm 4#8, false, true, true⟩).wellFormed = false := by decide
theorem test_wf_pop : (Instr.pop .al 15).wellFormed = false := by decide
theorem test_wf_loadm_des2 : (Instr.loadm .al ⟨1, 0, 7#8, false, true, false, false⟩).wellFormed = false := by decide
theorem test_wf_loadm_base : (Instr.loadm .al ⟨1, 1, 3#8, false, true, false, true⟩).wellFormed = false := by decide
theorem test_wf_storm_des2 : (Instr.storm .al ⟨1, 0, 7#8, false, true, false, false⟩).wellFormed = false := by decide
theorem test_wf_storm_base : (Instr.storm .al ⟨9, 9, 2#8, true, true, false, true⟩).wellFormed = false := by decide

/-! ### Decoding: a word of the spec for every constructor -/

theorem test_decode_logical :
    decodesTo 0x00000123#32 (.and .al 0#3 false 1 2 3) = true ∧ decodesTo 0x00101123#32 (.or .al 0#3 true 1 2 3) = true ∧
    decodesTo 0x10201444#32 (.xor .eq 0#3 true 4 4 4) = true ∧ decodesTo 0x00300123#32 (.nand .al 0#3 false 1 2 3) = true ∧
    decodesTo 0x00400103#32 (.not .al 0#3 false 1 3) = true ∧ decodesTo 0x00500123#32 (.nor .al 0#3 false 1 2 3) = true ∧
    decodesTo 0x00600123#32 (.xnor .al 0#3 false 1 2 3) = true ∧ decodesTo 0x00700103#32 (.cntlz .al 0#3 false 1 3) = true ∧
    decodesTo 0x00800103#32 (.cntlo .al 0#3 false 1 3) = true ∧ decodesTo 0x00900103#32 (.popcnt .al 0#3 false 1 3) = true := by decide

theorem test_decode_arithmetic :
    decodesTo 0x01001123#32 (.add .al false false true 1 2 3) = true ∧ decodesTo 0x01100123#32 (.sub .al false false false 1 2 3) = true ∧
    decodesTo 0x01200123#32 (.addc .al false false false 1 2 3) = true ∧ decodesTo 0x01300123#32 (.subc .al false false false 1 2 3) = true ∧
    decodesTo 0x51400101#32 (.neg .mi false false false 1 1) = true ∧ decodesTo 0x01500120#32 (.comp .al false false 1 2) = true ∧
    decodesTo 0x01600123#32 (.mult .al false false 1 2 3) = true ∧ decodesTo 0x01700123#32 (.div .al false false 1 2 3) = true ∧
    decodesTo 0x0180124B#32 (.rem .al false true 2 4 11) = true ∧ decodesTo 0x01944123#32 (.lmul .al false true false 4 1 2 3) = true ∧
    decodesTo 0x01003123#32 (.add .al false true true 1 2 3) = true := by decide

theorem test_decode_control :
    decodesTo 0x02000100#32 (.rbra .al 0#3 1 none) = true ∧ decodesTo 0x02001120#32 (.rbra .al 0#3 1 (some 2)) = true ∧
    decodesTo 0x02100100#32 (.rcall .al 0#3 1 none) = true ∧ decodesTo 0x12200000#32 (.ret .eq) = true ∧
    decodesTo 0xC8FFFFFB#32 (.bra .lt 0xFFFFFB#24) = true ∧ decodesTo 0x09FFFFCF#32 (.call .al 0xFFFFCF#24) = true := by decide

theorem test_decode_load :
    decodesTo 0x0303E108#32 (.load .al ⟨1, 3, .imm 8#8, true, true, false⟩) = true ∧
    decodesTo 0x0311E105#32 (.loadm .al ⟨1, 1, 5#8, true, true, true, false⟩) = true ∧
    decodesTo 0x0323E101#32 (.loadb .al ⟨1, 3, .imm 1#8, true, true, false⟩) = true ∧
    decodesTo 0x0333E102#32 (.loadh .al ⟨1, 3, .imm 2#8, true, true, false⟩) = true ∧ decodesTo 0x03400003#32 (.pop .al 3) = true ∧
    decodesTo 0x03538100#32 (.loadbe .al ⟨1, 3, .imm 0#8, false, false, false⟩) = true ∧ decodesTo 0x03600000#32 (.popf .al) = true ∧
    decodesTo 0x03706123#32 (.loadhe .al ⟨1, 3, .reg 2, true, true, false⟩) = true := by decide

theorem test_decode_store :
    decodesTo 0x0403B104#32 (.stor .al ⟨1, 3, .imm 4#8, false, true, true⟩) = true ∧
    decodesTo 0x0411D103#32 (.storm .al ⟨1, 1, 3#8, true, true, false, true⟩) = true ∧
    decodesTo 0x0423E101#32 (.storb .al ⟨1, 3, .imm 1#8, true, true, false⟩) = true ∧
    decodesTo 0x0433E102#32 (.storh .al ⟨1, 3, .imm 2#8, true, true, false⟩) = true ∧ decodesTo 0x0440000F#32 (.push .al 15) = true ∧
    decodesTo 0x04500000#32 (.pushpc .al) = true ∧ decodesTo 0x04600000#32 (.pushf .al) = true := by decide

theorem test_decode_cpu_control :
    decodesTo 0x16000000#32 (.stop .eq) = true ∧ decodesTo 0x06100000#32 (.wait .al) = true ∧ decodesTo 0x06200000#32 (.switchm .al) = true := by
  decide

theorem test_decode_immediate :
    decodesTo 0x07051234#32 (.movimm .al 5 0x1234#16) = true ∧ decodesTo 0x07151234#32 (.movuimm .al 5 0x1234#16) = true ∧
    decodesTo 0x07251234#32 (.andimm .al 5 0x1234#16) = true ∧ decodesTo 0x07355678#32 (.orimm .al 5 0x5678#16) = true ∧
    decodesTo 0x07451234#32 (.xorimm .al 5 0x1234#16) = true ∧ decodesTo 0x07551234#32 (.addimm .al 5 0x1234#16) = true ∧
    decodesTo 0x07610001#32 (.subimm .al 1 1#16) = true ∧ decodesTo 0x07751234#32 (.compimm .al 5 0x1234#16) = true := by decide

/-- R67: the don't-care bits are kept in the term and change nothing else. -/
theorem test_decode_dont_care :
    decodesTo 0x0000E123#32 (.and .al 7#3 false 1 2 3) = true ∧ decodesTo 0x01008123#32 (.add .al true false false 1 2 3) = true := by decide

/-- 95_test_vectors.md 2.1, 2.7, 2.8: the illegal words. -/
theorem test_reject_illegal :
    rejects 0x00A00000#32 .illegal = true ∧ rejects 0x05000000#32 .illegal = true ∧ rejects 0x0A000000#32 .illegal = true ∧
    rejects 0xFF000000#32 .illegal = true ∧ rejects 0x02400000#32 .illegal = true ∧ rejects 0x12400000#32 .illegal = true ∧
    rejects 0x06300000#32 .illegal = true ∧ rejects 0x07800000#32 .illegal = true := by decide

/-- 95_test_vectors.md 2.1: should-be-zero fields and Config bits not available. -/
theorem test_reject_reserved :
    rejects 0x00010123#32 .sbz = true ∧ rejects 0x00400113#32 .sbz = true ∧ rejects 0x01500121#32 .sbz = true ∧
    rejects 0x02200001#32 .sbz = true ∧ rejects 0x06000001#32 .sbz = true ∧ rejects 0x01604123#32 .configNotAvailable = true ∧
    rejects 0x01602123#32 .configNotAvailable = true ∧ rejects 0x01501120#32 .configNotAvailable = true ∧
    rejects 0x03401003#32 .configNotAvailable = true ∧ rejects 0x02201000#32 .configNotAvailable = true := by decide

/-- The host's numbering of a row's word, and where the next step fetches it. -/
theorem test_table_word : decodeTableWord 32 0x07551234 = some (.addimm .al 5 0x1234#16) := by decide

/-! ### One step of every instruction -/

/-- The operands of 95_test_vectors.md 2.2. -/
def logical : State := st [(1, 0xF0F0FF00#32), (2, 0x0FF0F0F0#32)]

theorem test_and : reaches (run1 logical 0x00001123) (fun t => t.reg 3 == 0x00F0F000#32 && t.flags == fl false false false false) = true := by decide
theorem test_or : reaches (run1 logical 0x00101123) (fun t => t.reg 3 == 0xFFF0FFF0#32 && t.flags == fl false true false false) = true := by decide
theorem test_xor : reaches (run1 logical 0x00200123) (fun t => t.reg 3 == 0xFF000FF0#32 && t.flags == fl false false false false) = true := by decide
theorem test_nand : reaches (run1 logical 0x00301123) (fun t => t.reg 3 == 0xFF0F0FFF#32 && t.flags.n) = true := by decide
theorem test_not : reaches (run1 logical 0x00400103) (fun t => t.reg 3 == 0x0F0F00FF#32) = true := by decide
theorem test_nor : reaches (run1 logical 0x00500123) (fun t => t.reg 3 == 0x000F000F#32) = true := by decide
theorem test_xnor : reaches (run1 logical 0x00600123) (fun t => t.reg 3 == 0x00FFF00F#32) = true := by decide
theorem test_cntlz : reaches (run1 (st [(1, 0x0000F000#32)]) 0x00700103) (fun t => t.reg 3 == 16#32) = true := by decide
theorem test_cntlz_top : reaches (run1 (st [(1, 0x80000000#32)]) 0x00701103) (fun t => t.reg 3 == 0#32 && t.flags.z) = true := by decide
theorem test_cntlo : reaches (run1 (st [(1, 0xFFF00000#32)]) 0x00800103) (fun t => t.reg 3 == 12#32) = true := by decide
theorem test_cntlo_all : reaches (run1 (st [(1, 0xFFFFFFFF#32)]) 0x00800103) (fun t => t.reg 3 == 32#32) = true := by decide
theorem test_popcnt : reaches (run1 logical 0x00900103) (fun t => t.reg 3 == 16#32) = true := by decide

theorem test_add_wraps : reaches (run1 (st [(1, 0x80000000#32), (2, 0x80000000#32)]) 0x01001123)
    (fun t => t.reg 3 == 0#32 && t.flags == fl true false true true) = true := by decide
theorem test_add_trap : traps (run1 (st [(1, 0x7FFFFFFF#32), (2, 1#32)]) 0x01003123) (.overflow 0x01003123#32) 0#32 = true := by decide
theorem test_sub_borrow : reaches (run1 (st [(1, 3#32), (2, 5#32)]) 0x01101123)
    (fun t => t.reg 3 == 0xFFFFFFFE#32 && t.flags == fl false true false false) = true := by decide
theorem test_sub_overflow : reaches (run1 (st [(1, 0x7FFFFFFF#32), (2, 0xFFFFFFFF#32)]) 0x01101123)
    (fun t => t.reg 3 == 0x80000000#32 && t.flags == fl false true true false) = true := by decide
theorem test_addc : reaches (run1 ((st [(1, 0xFFFFFFFF#32)]).setFlags (fl false false false true)) 0x01201123)
    (fun t => t.reg 3 == 0#32 && t.flags == fl true false false true) = true := by decide
theorem test_subc_borrow : reaches (run1 (st [(1, 5#32), (2, 3#32)]) 0x01301123)
    (fun t => t.reg 3 == 1#32 && t.flags == fl false false false true) = true := by decide
theorem test_subc_overflow : reaches (run1 (st [(1, 0x80000000#32)]) 0x01301123)
    (fun t => t.reg 3 == 0x7FFFFFFF#32 && t.flags == fl false false true true) = true := by decide
theorem test_neg : reaches (run1 (st [(1, 0x80000000#32)]) 0x01401103)
    (fun t => t.reg 3 == 0x80000000#32 && t.flags == fl false true true false) = true := by decide
theorem test_neg_zero : reaches (run1 (st []) 0x01401103) (fun t => t.flags == fl true false false true) = true := by decide
theorem test_comp : reaches (run1 (st [(1, 0x80000000#32), (2, 0x7FFFFFFF#32)]) 0x01500120)
    (fun t => t.flags == fl false false true true && t.reg 1 == 0x80000000#32 && t.reg 0 == 0#32) = true := by decide
theorem test_mult : reaches (run1 (st [(1, 0x12345678#32), (2, 0x9ABCDEF0#32)]) 0x01600123) (fun t => t.reg 3 == 0x242D2080#32) = true := by decide
theorem test_mult_zero : reaches (run1 (st [(1, 0x00010000#32), (2, 0x00010000#32)]) 0x01601123)
    (fun t => t.reg 3 == 0#32 && t.flags == fl true false false false) = true := by decide
theorem test_div_unsigned : reaches (run1 (st [(1, 0xFFFFFFFF#32), (2, 2#32)]) 0x01700123) (fun t => t.reg 3 == 0x7FFFFFFF#32) = true := by decide
theorem test_div_zero : traps (run1 (st [(1, 1#32)]) 0x01700123) (.divideByZero 0x01700123#32) 0#32 = true := by decide
theorem test_rem : reaches (run1 (st [(1, 0x80000000#32), (2, 0xFFFFFFFF#32)]) 0x01800123) (fun t => t.reg 3 == 0x80000000#32) = true := by decide
theorem test_lmul_unsigned : reaches (run1 (st [(1, 0x12345678#32), (2, 0x9ABCDEF0#32)]) 0x01940123)
    (fun t => t.reg 4 == 0x0B00EA4E#32 && t.reg 3 == 0x242D2080#32) = true := by decide
theorem test_lmul_signed : reaches (run1 (st [(1, 0x80000000#32), (2, 2#32)]) 0x01945123)
    (fun t => t.reg 4 == 0xFFFFFFFF#32 && t.reg 3 == 0#32 && t.flags == fl false true false false) = true := by decide

theorem test_rbra : reaches (run1 (st [(1, 0x200#32), (2, 0x10#32)]) 0x02001120) (fun t => t.pc == 0x210#32) = true := by decide
theorem test_rbra_misaligned : traps (run1 (st [(1, 0x102#32)]) 0x02000100) (.instructionAddressMisaligned 0x102#32) 0#32 = true := by decide
theorem test_rcall : reaches (run1 ((st [(1, 0x200#32), (15, 0x1000#32)]).setPc 0x40#32) 0x02100100)
    (fun t => t.pc == 0x200#32 && t.reg 15 == 0xFFC#32 && bytesAt t 0xFFC 0x44 0 0 0) = true := by decide
theorem test_ret : reaches (run1 (withWord (st [(15, 0xFFC#32)]) 0xFFC#32 0x44#32) 0x02200000)
    (fun t => t.pc == 0x44#32 && t.reg 15 == 0x1000#32) = true := by decide
theorem test_ret_misaligned : traps (run1 (withWord (st [(15, 0xFFC#32)]) 0xFFC#32 0x46#32) 0x02200000)
    (.instructionAddressMisaligned 0x46#32) 0#32 = true := by decide
theorem test_bra_wraps : reaches (run1 ((st []).setPc 0x100#32) 0x08800000) (fun t => t.pc == 0xFE000104#32) = true := by decide
theorem test_bra_lt : reaches (run1 (((st []).setPc 0x20#32).setFlags (fl false true false false)) 0xC8FFFFFB) (fun t => t.pc == 0x10#32) = true := by
  decide
theorem test_call : reaches (run1 ((st [(15, 0x10000#32)]).setPc 0x100#32) 0x09FFFFCF)
    (fun t => t.pc == 0x40#32 && t.reg 15 == 0xFFFC#32 && bytesAt t 0xFFFC 0x04 0x01 0 0) = true := by decide

/-- The memory and registers of 95_test_vectors.md 2.5. -/
def loads : State :=
  withBytes ((st [(1, 0x1000#32), (2, 8#32)]).setPc 0x100#32) 0x1000#32
    [0xF1, 0x43, 0x65, 0x87, 0x44, 0x33, 0x22, 0x11, 0x78, 0x56, 0x34, 0x12]

theorem test_load_post : reaches (run1 loads 0x0303D104) (fun t => t.reg 3 == 0x876543F1#32 && t.reg 1 == 0x1004#32) = true := by decide
theorem test_load_pre : reaches (run1 loads 0x0303F104) (fun t => t.reg 3 == 0x11223344#32 && t.reg 1 == 0x1004#32) = true := by decide
theorem test_loadb : reaches (run1 loads 0x0323E103) (fun t => t.reg 3 == 0x87#32) = true := by decide
theorem test_loadh : reaches (run1 loads 0x0333E102) (fun t => t.reg 3 == 0x8765#32) = true := by decide
theorem test_loadh_misaligned : traps (run1 loads 0x0333E101) (.addressMisaligned 0x1001#32) 0x100#32 = true := by decide
theorem test_loadbe : reaches (run1 loads 0x0353E103) (fun t => t.reg 3 == 0xFFFFFF87#32) = true := by decide
theorem test_loadhe : reaches (run1 loads 0x0373E102) (fun t => t.reg 3 == 0xFFFF8765#32) = true := by decide
theorem test_loadhe_register : reaches (run1 loads 0x03706123) (fun t => t.reg 3 == 0x5678#32) = true := by decide
/-- By hand from R132, as the word 0x0301D104 of `load` in 95_test_vectors.md. -/
theorem test_loadb_collision : refuses (run1 loads 0x0321D104) .loadBaseCollision = true := by decide
theorem test_loadm : reaches (run1 loads 0x0311E105)
    (fun t => t.reg 8 == 0x11223344#32 && t.reg 10 == 0x12345678#32 && t.reg 1 == 0x1000#32 && t.reg 9 == 0#32) = true := by decide
theorem test_loadm_refused : refuses (run1 loads 0x03115103) .multiBaseInList = true ∧ refuses (run1 loads 0x03105107) .multiDes2 = true := by
  decide

/-- The stack of 95_test_vectors.md 2.5. -/
def stack : State := withWord ((st [(15, 0xFFFC#32)]).setPc 0x100#32) 0xFFFC#32 0xFFFFFFF5#32

theorem test_pop : reaches (run1 stack 0x03400003) (fun t => t.reg 3 == 0xFFFFFFF5#32 && t.reg 15 == 0x10000#32) = true := by decide
theorem test_pop_sp : refuses (run1 stack 0x0340000F) .popSP = true := by decide
theorem test_popf : reaches (run1 stack 0x03600000) (fun t => t.flags == fl false true false true && t.reg 15 == 0x10000#32) = true := by decide

/-- The registers of 95_test_vectors.md 2.6. -/
def stores : State := (st [(1, 0x1000#32), (2, 8#32), (3, 0x876543F1#32), (15, 0x10000#32)]).setPc 0x20#32

theorem test_stor : reaches (run1 stores 0x0403B104) (fun t => bytesAt t 0xFFC 0xF1 0x43 0x65 0x87 && t.reg 1 == 0xFFC#32) = true := by decide
theorem test_stor_old_base : reaches (run1 stores 0x0401D104) (fun t => bytesAt t 0x1000 0 0x10 0 0 && t.reg 1 == 0x1004#32) = true := by decide
theorem test_storb : reaches (run1 stores 0x0423E101)
    (fun t => t.mem.read 0x1001 == some 0xF1#8 && t.mem.read 0x1000 == none && t.mem.read 0x1002 == none) = true := by decide
theorem test_storh : reaches (run1 stores 0x0433E102)
    (fun t => t.mem.read 0x1002 == some 0xF1#8 && t.mem.read 0x1003 == some 0x43#8 && t.mem.read 0x1004 == none) = true := by decide
theorem test_push_sp : reaches (run1 stores 0x0440000F) (fun t => bytesAt t 0xFFFC 0 0 1 0 && t.reg 15 == 0xFFFC#32) = true := by decide
theorem test_pushpc : reaches (run1 stores 0x04500000) (fun t => bytesAt t 0xFFFC 0x24 0 0 0 && t.pc == 0x24#32) = true := by decide
theorem test_pushf : reaches (run1 (stores.setFlags (fl true false false true)) 0x04600000) (fun t => bytesAt t 0xFFFC 9 0 0 0) = true := by decide
theorem test_storm : reaches (run1 ((st [(0, 10#32), (1, 11#32), (2, 12#32), (15, 0x10000#32)]).setPc 0x100#32) 0x041F3F07)
    (fun t => bytesAt t 0xFFF4 10 0 0 0 && bytesAt t 0xFFF8 11 0 0 0 && bytesAt t 0xFFFC 12 0 0 0 && t.reg 15 == 0xFFF4#32) = true := by decide

theorem test_stop : reaches (run1 ((st []).setPc 0x18#32) 0x06000000) (fun t => t.run == .stopped && t.pc == 0x1C#32) = true := by decide
theorem test_stop_user : traps (run1 { st [] with mode := .user } 0x06000000) (.privilegeViolation 0x06000000#32) 0#32 = true := by decide
theorem test_wait : reaches (run1 ((st []).setPc 0x40#32) 0x06100000) (fun t => t.run == .waiting && t.pc == 0x44#32) = true := by decide
theorem test_switchm : reaches (run1 ((st []).setPc 0x10#32) 0x06200000) (fun t => t.mode == .user && t.pc == 0x14#32) = true := by decide

theorem test_movimm : reaches (run1 (st [(5, 0xFFFF0000#32)]) 0x0705FFFF) (fun t => t.reg 5 == 0xFFFF#32) = true := by decide
theorem test_movuimm : reaches (run1 (st [(5, 0xFFFF#32)]) 0x07151234) (fun t => t.reg 5 == 0x12340000#32) = true := by decide
theorem test_andimm : reaches (run1 (st [(5, 0xFFFF00FF#32)]) 0x07251234) (fun t => t.reg 5 == 0x34#32) = true := by decide
theorem test_orimm : reaches (run1 (st [(5, 0x12340000#32)]) 0x07355678) (fun t => t.reg 5 == 0x12345678#32) = true := by decide
theorem test_xorimm : reaches (run1 (st [(5, 0xFFFF#32)]) 0x07451234) (fun t => t.reg 5 == 0xEDCB#32) = true := by decide
theorem test_addimm : reaches (run1 (st [(5, 0xFFFFFFFF#32)]) 0x07551234) (fun t => t.reg 5 == 0x1233#32 && !t.flags.c) = true := by decide
theorem test_subimm : reaches (run1 (st []) 0x07650001) (fun t => t.reg 5 == 0xFFFFFFFF#32 && !t.flags.n) = true := by decide
theorem test_compimm : reaches (run1 (st [(5, 0xFFFFFFFF#32)]) 0x07751234)
    (fun t => t.flags == fl false true false true && t.reg 5 == 0xFFFFFFFF#32) = true := by decide

/-- 95_test_vectors.md 2.1: a false condition raises nothing, not even for a zero divisor. -/
theorem test_false_condition : reaches (run1 (st [(1, 1#32)]) 0x11700123) (fun t => t.pc == 4#32 && t.reg 3 == 0#32) = true := by decide

/-- R54: legality precedes the condition. -/
theorem test_illegal_before_condition : traps (run1 (st []) 0x12400000) (.illegalInstruction 0x12400000#32) 0#32 = true := by decide

/-- R241: from reset with nothing loaded the first fetch is refused (log entry 18). -/
theorem test_reset_fetch : refuses (step State.reset) (.unwrittenRead 0#32) = true := by decide

/-! ### Witnesses: a state that meets the hypotheses of each statement -/

/-- The fetch gives this word. -/
def fetches (s : State) (w : Word) : Bool :=
  match s.fetch with
  | .ok v => v == w
  | .error _ => false

theorem fetch_of {s : State} {w : Word} (h : fetches s w = true) : s.fetch = .ok w := by
  unfold fetches at h
  split at h
  · rename_i e
    rw [e, eq_of_beq h]
  · cases h

theorem decode_of {w : Word} {i : Instr} (h : decodesTo w i = true) : decodeWord w = .ok i := by
  unfold decodesTo at h
  split at h
  · rename_i e
    rw [e, eq_of_beq h]
  · cases h

theorem next_of {o : Outcome} (h : reaches o (fun _ => true) = true) : ∃ t, o = .next t := by
  unfold reaches at h
  split at h
  · exact ⟨_, rfl⟩
  · cases h

/-- The reset state with a word to run. -/
def prog (w : Nat) : State := State.reset.withFetchWord 32 w

theorem witness_EncodeRecoversDecodedWord : ∃ w i, decodeWord w = .ok i :=
  ⟨0x01001123#32, .add .al false false true 1 2 3, decode_of (by decide)⟩

/-- One word for each of the nine alternatives, each at the low end of its range. -/
theorem witness_IllegalWordsRaise :
    ∀ w ∈ [0x05000000#32, 0xFA000000#32, 0x00A00000#32, 0x01A00000#32, 0x02300000#32, 0x03800000#32, 0x04700000#32, 0x06300000#32, 0x07800000#32],
      (prog w.toNat).run = .running ∧ fetches (prog w.toNat) w = true ∧
      (let g := (w.extractLsb' 24 4).toNat
       let p := (w.extractLsb' 20 4).toNat
       g = 5 ∨ 10 ≤ g ∨ (g = 0 ∧ 10 ≤ p) ∨ (g = 1 ∧ 10 ≤ p) ∨ (g = 2 ∧ 3 ≤ p) ∨ (g = 3 ∧ 8 ≤ p) ∨ (g = 4 ∧ 7 ≤ p) ∨
         (g = 6 ∧ 3 ≤ p) ∨ (g = 7 ∧ 8 ≤ p)) := by
  intro w hw
  simp only [List.mem_cons, List.not_mem_nil, or_false] at hw
  rcases hw with rfl | rfl | rfl | rfl | rfl | rfl | rfl | rfl | rfl <;> decide

/-- Every clause, for `comp`: its reserved bits clear, DEST set, F set, and both; and bit 12 of `ret`. -/
theorem witness_ReservedBitsRefuse :
    (0x01500000#32, 0x000F000F#32, 0x00005000#32) ∈ opcodeRows ∧ 0x01500120#32 &&& 0x0FF00000#32 = 0x01500000#32 ∧
    0x01500120#32 &&& (0x000F000F#32 ||| conditionalSbz 0x01500120#32) = 0#32 ∧ 0x01500120#32 &&& 0x00005000#32 = 0#32 ∧
    0x01500121#32 &&& (0x000F000F#32 ||| conditionalSbz 0x01500121#32) ≠ 0#32 ∧ 0x01500121#32 &&& 0x00005000#32 = 0#32 ∧
    0x01501120#32 &&& (0x000F000F#32 ||| conditionalSbz 0x01501120#32) = 0#32 ∧ 0x01501120#32 &&& 0x00005000#32 ≠ 0#32 ∧
    0x01501121#32 &&& (0x000F000F#32 ||| conditionalSbz 0x01501121#32) ≠ 0#32 ∧ 0x01501121#32 &&& 0x00005000#32 ≠ 0#32 ∧
    (∀ w ∈ [0x01500121#32, 0x01501120#32, 0x01501121#32, 0x02201000#32],
      (prog w.toNat).run = .running ∧ fetches (prog w.toNat) w = true) := by
  refine ⟨by decide, by decide, by decide, by decide, by decide, by decide, by decide, by decide, by decide, by decide, fun w hw => ?_⟩
  simp only [List.mem_cons, List.not_mem_nil, or_false] at hw
  rcases hw with rfl | rfl | rfl | rfl <;> decide

/-- Words of each of the three kinds that are accepted, one that is rejected, and one that traps. -/
theorem witness_DontCareBitsChangeNothing :
    (0x00000123#32 &&& 0xFFFF1FFF#32 = 0x0000E123#32 &&& 0xFFFF1FFF#32 ∧ decodesTo 0x00000123#32 (.and .al 0#3 false 1 2 3) = true) ∧
    (0x01000123#32 &&& 0xFFFF7FFF#32 = 0x01008123#32 &&& 0xFFFF7FFF#32 ∧ decodesTo 0x01000123#32 (.add .al false false false 1 2 3) = true) ∧
    (0x02100100#32 &&& 0xFFFF1FFF#32 = 0x0210E100#32 &&& 0xFFFF1FFF#32 ∧ decodesTo 0x02100100#32 (.rcall .al 0#3 1 none) = true) ∧
    (0x00010123#32 &&& 0xFFFF1FFF#32 = 0x0001E123#32 &&& 0xFFFF1FFF#32 ∧ rejects 0x00010123#32 .sbz = true) ∧
    (0x01700123#32 &&& 0xFFFF7FFF#32 = 0x01708123#32 &&& 0xFFFF7FFF#32 ∧
      traps (exec (.div .al false false 1 2 3) State.reset) (.divideByZero 0x01700123#32) 0#32 = true ∧
      traps (exec (.div .al true false 1 2 3) State.reset) (.divideByZero 0x01708123#32) 0#32 = true) := by decide

theorem witness_StepRunsDecodedInstruction :
    let s := prog 0x01001123
    s.run = .running ∧ s.pc.toNat % 4 = 0 ∧ s.mapped .fetch s.pc .word = true ∧ s.mem.read s.pc.toNat = some 0x23 ∧
    s.mem.read (s.pc.toNat + 1) = some 0x11 ∧ s.mem.read (s.pc.toNat + 2) = some 0x00 ∧ s.mem.read (s.pc.toNat + 3) = some 0x01 ∧
    decodesTo (0x01#8 ++ 0x00#8 ++ 0x11#8 ++ 0x23#8) (.add .al false false true 1 2 3) = true := by decide

/-- A platform that denies every access to the first four bytes. -/
def denied : State := State.resetOn [] [⟨0, 3, none, none, none⟩]

/-- The three ways: the platform denies the fetch; the first byte is missing; the last byte is missing. -/
theorem witness_FetchStops :
    (denied.run = .running ∧ denied.pc.toNat % 4 = 0 ∧ denied.mapped .fetch denied.pc .word = false) ∧
    (State.reset.mapped .fetch State.reset.pc .word = true ∧ State.reset.mem.read (State.reset.pc.toNat + 0) = none) ∧
    (let s := withBytes State.reset 0#32 [1, 2, 3]
     s.mapped .fetch s.pc .word = true ∧ (∀ l, l < 3 → s.mem.read (s.pc.toNat + l) ≠ none) ∧ s.mem.read (s.pc.toNat + 3) = none) := by decide

theorem witness_FalseConditionOnlyAdvances : State.reset.condHolds (Instr.ret .eq).cond = false := by decide
theorem witness_StoppedExecutesNothing : ({ State.reset with run := .stopped } : State).run = .stopped := rfl

/-- The free input is one or the other, and the statement speaks of both. -/
theorem witness_WaitingSamplesInterrupt :
    let s : State := { State.reset with run := .waiting }
    s.run = .waiting ∧ (Config.irqPending s.irqPolls = true ∨ Config.irqPending s.irqPolls = false) := by
  refine ⟨rfl, ?_⟩
  cases Config.irqPending 0 <;> simp

theorem witness_StepKeepsInvariant : ∃ s t : State, s.Inv ∧ step s = .next t := by
  obtain ⟨t, h⟩ := next_of (o := step (prog 0x08000002)) (by decide)
  exact ⟨_, t, by decide, h⟩

theorem witness_ExceptionsArePrecise : ∃ s u e, step s = .fault (.trapped e u) :=
  ⟨prog 0x01700123, _, .divideByZero 0x01700123#32, rfl⟩

/-- The mode changes by a `switchm`, and is kept by an `add`. -/
theorem witness_ModeChangesOnlyBySwitchm :
    reaches (step (prog 0x06200000)) (fun t => t.mode == .user) = true ∧ reaches (step (prog 0x01000123)) (fun t => t.mode == .supervisor) = true := by
  decide

/-- Left by a `stop` and by a `wait`, kept by an `add`. -/
theorem witness_RunStateChangesOnlyByStopWait :
    reaches (step (prog 0x06000000)) (fun t => t.run == .stopped) = true ∧
    reaches (step (prog 0x06100000)) (fun t => t.run == .waiting) = true ∧
    reaches (step (prog 0x01000123)) (fun t => t.run == .running) = true := by decide

theorem witness_FlagsWrittenOnlyAsListed :
    writesFlags (.movimm .al 5 1#16) = false ∧ reaches (exec (.movimm .al 5 1#16) State.reset) (fun _ => true) = true := by decide
theorem witness_MemoryWrittenOnlyByStores :
    storesToMemory (.add .al false false true 1 2 3) = false ∧
    reaches (exec (.add .al false false true 1 2 3) State.reset) (fun _ => true) = true := by decide
theorem witness_PlatformIsFixed : reaches (step (prog 0x01000123)) (fun _ => true) = true ∧ (prog 0x01000123).run = .running := by decide

/-- A region that denies writes in supervisor mode, at both its ends, while a `stor` elsewhere completes. -/
theorem witness_ProtectedBytesNeverWritten :
    let r : Region := ⟨0x2000, 0x2003, none, some .write, some .supervisor⟩
    let s : State := { (st [(1, 0x1000#32)]).withFetchWord 32 0x04038100 with unmapped := [r] }
    r ∈ s.unmapped ∧ r.size = none ∧ (r.kind = none ∨ r.kind = some .write) ∧ (r.mode = none ∨ r.mode = some s.mode) ∧
    (r.first ≤ 0x2000 ∧ 0x2000 ≤ r.last) ∧ (r.first ≤ 0x2003 ∧ 0x2003 ≤ r.last) ∧ reaches (step s) (fun _ => true) = true := by decide

theorem witness_ModesBehaveIdentically :
    ¬ cpuControl (.add .al false false false 1 2 3) ∧ ∀ r ∈ denied.unmapped, r.mode = none := by
  refine ⟨?_, by decide⟩
  simp [cpuControl]

/-- An ill-formed `lmul`; and a well-formed `load` of a byte nothing has written. -/
theorem witness_IllFormedOperandsRefused :
    State.reset.condHolds .al = true ∧ (Instr.lmul .al false false false 3 1 2 3).wellFormed = false ∧
    (Instr.load .al ⟨1, 3, .imm 0#8, false, false, false⟩).wellFormed = true ∧
    refuses (exec (.load .al ⟨1, 3, .imm 0#8, false, false, false⟩) State.reset) (.unwrittenRead 0#32) = true := by decide

theorem witness_LogicalResults : State.reset.condHolds .al = true ∧ (Instr.xor .al 0#3 true 1 2 3, State.reset.reg 1 ^^^ State.reset.reg 2) ∈
    [(Instr.and .al 0#3 true 1 2 3, State.reset.reg 1 &&& State.reset.reg 2),
      (.xor .al 0#3 true 1 2 3, State.reset.reg 1 ^^^ State.reset.reg 2)] := by decide
theorem witness_CountResults : State.reset.condHolds .al = true ∧
    (Instr.cntlo .al 0#3 true 1 3, true) ∈ [(Instr.cntlz .al 0#3 true 1 3, false), (.cntlo .al 0#3 true 1 3, true)] := by decide

/-- Both clauses: an `add` with O=1 at the largest sum that fits, and at the smallest that does not. -/
theorem witness_AdditiveResults :
    let s := st [(1, 0x7FFFFFFE#32), (2, 1#32)]
    let u := st [(1, 0x7FFFFFFF#32), (2, 1#32)]
    s.condHolds .al = true ∧ (BitVec.ofInt 32 ((s.reg 1).toInt + (s.reg 2).toInt)).toInt = (s.reg 1).toInt + (s.reg 2).toInt ∧
    (BitVec.ofInt 32 ((u.reg 1).toInt + (u.reg 2).toInt)).toInt ≠ (u.reg 1).toInt + (u.reg 2).toInt := by decide

/-- Both clauses: an `add` with O=1 that raises, and a `comp` with O=0 of operands that overflow. -/
theorem witness_OverflowOnlyWithO :
    (∃ u, exec (.add .al false true false 1 2 3) (st [(1, 0x7FFFFFFF#32), (2, 1#32)]) = .fault (.trapped (.overflow 0x01002123#32) u)) ∧
    State.reset.condHolds .al = true ∧ (Instr.neg .al false false true 1 3, (-5 : Int), true) ∈
      [(Instr.neg .al false false true 1 3, (-5 : Int), true)] := ⟨⟨_, rfl⟩, by decide⟩

/-- Both clauses for `comp` with O=1: the smallest difference that fits, and the largest that does not. -/
theorem witness_CompareResults :
    let s := st [(1, 0x80000000#32), (2, 0#32)]
    let u := st [(1, 0x80000000#32), (2, 1#32)]
    s.condHolds .al = true ∧ (s.reg 1 - s.reg 2).toInt = (s.reg 1).toInt - (s.reg 2).toInt ∧
    (u.reg 1 - u.reg 2).toInt ≠ (u.reg 1).toInt - (u.reg 2).toInt := by decide

theorem witness_CompareConditionsMeanOrder :
    (Instr.compimm .al 5 7#16, State.reset.reg 5, (7#16).zeroExtend 32) ∈
      [(Instr.comp .al false false 5 6, State.reset.reg 5, State.reset.reg 6), (.compimm .al 5 7#16, State.reset.reg 5, (7#16).zeroExtend 32)] ∧
    State.reset.condHolds .al = true := by decide
theorem witness_TwoWordAddition : (0 : Reg) ≠ 1 ∧ (0 : Reg) ≠ 3 := by decide
theorem witness_MultResult : State.reset.condHolds .al = true := by decide

/-- Both clauses: divisor 1, and divisor 0. -/
theorem witness_DivRemResults : State.reset.condHolds .al = true ∧ (st [(2, 1#32)]).reg 2 ≠ 0#32 ∧ State.reset.reg 2 = 0#32 := by decide
theorem witness_LmulResult : State.reset.condHolds .al = true ∧ (4 : Reg) ≠ 3 ∧ (3 : Reg) = 3 := by decide
theorem witness_ImmediateResults : State.reset.condHolds .al = true ∧
    (Instr.movimm .al 5 9#16, BitVec.ofNat 32 (9#16).toNat) ∈ [(Instr.movimm .al 5 9#16, BitVec.ofNat 32 (9#16).toNat)] := by decide
theorem witness_MovuimmOrimmBuildConstant : State.reset.condHolds .al = true := by decide
theorem witness_BraResult : State.reset.condHolds .al = true := by decide

/-- Both clauses, with an offset register and without: targets 4 and 2. -/
theorem witness_RbraResult :
    let s := st [(1, 2#32), (2, 2#32)]
    s.condHolds .al = true ∧ (s.reg 1 + s.reg 2).toNat % 4 = 0 ∧ (s.reg 1).toNat % 4 ≠ 0 ∧
    ((some 2, s.reg 1 + s.reg 2) : Option Reg × Word) ∈ [(none, s.reg 1), (some 2, s.reg 1 + s.reg 2)] := by decide

/-- The clauses of a push: an aligned and accepted slot, a misaligned one, a denied one (the stack pointer at 0 wraps). -/
theorem witness_RcallResult :
    let s := st [(1, 0x200#32), (15, 0#32)]
    let u := st [(15, 2#32)]
    let d : State := { s with unmapped := [⟨0xFFFFFFFC, 0xFFFFFFFF, none, some .write, none⟩] }
    s.condHolds .al = true ∧ (s.reg 1).toNat % 4 = 0 ∧ (s.reg 15 - 4#32).toNat % 4 = 0 ∧ s.mapped .write (s.reg 15 - 4#32) .word = true ∧
    (u.reg 15 - 4#32).toNat % 4 ≠ 0 ∧ d.mapped .write (d.reg 15 - 4#32) .word = false ∧ ((st [(1, 1#32)]).reg 1).toNat % 4 ≠ 0 := by decide
theorem witness_CallResult :
    let s := st [(15, 4#32)]
    s.condHolds .al = true ∧ (s.reg 15 - 4#32).toNat % 4 = 0 ∧ s.mapped .write (s.reg 15 - 4#32) .word = true ∧ s.pc.toNat % 4 = 0 := by decide
theorem witness_PushResults :
    let s := st [(15, 4#32)]
    let u := st [(15, 1#32)]
    let d : State := { s with unmapped := [⟨3, 3, none, none, none⟩] }
    s.condHolds .al = true ∧ (s.reg 15 - 4#32).toNat % 4 = 0 ∧ s.mapped .write (s.reg 15 - 4#32) .word = true ∧
    (u.reg 15 - 4#32).toNat % 4 ≠ 0 ∧ d.mapped .write (d.reg 15 - 4#32) .word = false := by decide

theorem blockAccepted_of (m : Multi) (s : State) (k : AccessKind)
    (h : (m.regs ≠ [] → (blockStart m s).toNat % 4 = 0) ∧ ∀ j, j < m.regs.length → s.mapped k (blockWord m s j) .word = true) :
    BlockAccepted m s k := h

theorem holds_four (m : Memory) (a v : Word) (h : ∀ j, j < 4 → m.read (a.toNat + j) = some (v.extractLsb' (8 * j) 8)) : Holds m a 4 v := h

/-- A stack word whose value is a multiple of 4, and one whose value is not; and a misaligned stack pointer. -/
theorem witness_RetResult :
    (let s := withWord (st [(15, 0xFFC#32)]) 0xFFC#32 4#32
     s.condHolds .al = true ∧ (s.reg 15).toNat % 4 = 0 ∧ s.mapped .read (s.reg 15) .word = true ∧ Holds s.mem (s.reg 15) 4 4#32) ∧
    (let s := withWord (st [(15, 0xFFC#32)]) 0xFFC#32 1#32
     Holds s.mem (s.reg 15) 4 1#32 ∧ (1#32).toNat % 4 ≠ 0) ∧ ((st [(15, 1#32)]).reg 15).toNat % 4 ≠ 0 :=
  ⟨⟨by decide, by decide, by decide, holds_four _ _ _ (by decide)⟩, ⟨holds_four _ _ _ (by decide), by decide⟩, by decide⟩

theorem witness_RetReturnsAfterCall :
    let s := st [(15, 0x1000#32)]
    (∃ t, exec (.call .al 4#24) s = .next t) ∧ s.condHolds .al = true ∧ s.pc.toNat % 4 = 0 ∧ s.mapped .read (s.reg 15 - 4#32) .word = true :=
  ⟨next_of (by decide), by decide⟩

theorem witness_SingleAddressing : ∀ r, (⟨1, 3, .reg 2, true, true, false⟩ : Single).offset = .reg r → State.reset.reg 2 = State.reset.reg r := by
  intro r h
  simp only [Offset.reg.injEq] at h
  rw [h]

/-- A load of each width that completes, a misaligned one, and a colliding one. -/
theorem witness_SingleLoadResults :
    (let a : Single := ⟨1, 3, .imm 0#8, true, false, true⟩
     loads.condHolds .al = true ∧ a.collides = false ∧ loads.mem.read (accessAddr a loads).toNat = some 0xF1 ∧
     loads.mem.read ((accessAddr a loads).toNat + 1) = some 0x43 ∧ (accessAddr a loads).toNat % 4 = 0 ∧ (accessAddr a loads).toNat % 2 = 0 ∧
     loads.mapped .read (accessAddr a loads) .byte = true ∧ loads.mapped .read (accessAddr a loads) .half = true ∧
     loads.mapped .read (accessAddr a loads) .word = true ∧ Holds loads.mem (accessAddr a loads) 4 0x876543F1#32) ∧
    (accessAddr ⟨1, 3, .imm 1#8, true, true, false⟩ loads).toNat % 2 ≠ 0 ∧
    (⟨1, 1, .imm 1#8, true, true, true⟩ : Single).collides = true :=
  ⟨⟨by decide, by decide, by decide, by decide, by decide, by decide, by decide, by decide, by decide, holds_four _ _ _ (by decide)⟩, by decide,
    by decide⟩

/-- A word whose first byte is missing, one whose last byte is, and a block whose second word is. -/
theorem witness_UnwrittenReadsRefused :
    (let a : Single := ⟨1, 3, .imm 0#8, true, false, false⟩
     State.reset.condHolds .al = true ∧ a.collides = false ∧ (3 : Reg) ≠ 15 ∧ (accessAddr a State.reset).toNat % Size.word.bytes = 0 ∧
     State.reset.mapped .read (accessAddr a State.reset) .word = true ∧ State.reset.mem.read ((accessAddr a State.reset).toNat + 0) = none) ∧
    (let s := withBytes State.reset 0#32 [1, 2, 3]
     (∀ l, l < 3 → s.mem.read ((s.reg 15).toNat + l) ≠ none) ∧ s.mem.read ((s.reg 15).toNat + 3) = none) ∧
    (let m : Multi := ⟨1, 1, 0x84#8, false, true, false, true⟩
     let s := withBytes State.reset 0#32 [1, 2, 3, 4]
     m.wellFormed = true ∧ BlockAccepted m s .read ∧ 1 < m.regs.length ∧
     (∀ l, l < 1 → ∀ j, j < 4 → s.mem.read ((blockWord m s l).toNat + j) ≠ none) ∧ s.mem.read ((blockWord m s 1).toNat + 0) = none) :=
  ⟨by decide, by decide, by decide, blockAccepted_of _ _ _ (by decide), by decide, by decide, by decide⟩

theorem witness_MultiBlockPlacement :
    let m : Multi := ⟨1, 1, 7#8, false, false, true, false⟩
    3 = m.regs.length ∧ m.up = false ∧ m.pre = true := by decide

/-- Two registers that load, the last register alone with W=0, a misaligned block, a denied second word, and the two refusals. -/
theorem witness_LoadmResult :
    (let m : Multi := ⟨1, 1, 0x81#8, true, true, true, false⟩
     let vs : List Word := [0x11223344#32, 0x12345678#32]
     loads.condHolds .al = true ∧ m.wellFormed = true ∧ vs.length = m.regs.length ∧ BlockAccepted m loads .read ∧
     (∀ k (h : k < vs.length), Holds loads.mem (blockWord m loads k) 4 vs[k])) ∧
    (let m : Multi := ⟨0, 0, 2#8, false, true, false, false⟩
     m.regs ≠ [] ∧ (blockStart m (st [(0, 1#32)])).toNat % 4 ≠ 0) ∧
    (let m : Multi := ⟨0, 0, 6#8, false, true, false, false⟩
     let s : State := { State.reset with unmapped := [⟨7, 7, none, none, none⟩] }
     (blockStart m s).toNat % 4 = 0 ∧ 1 < m.regs.length ∧ (∀ l, l < 1 → s.mapped .read (blockWord m s l) .word = true) ∧
     s.mapped .read (blockWord m s 1) .word = false) ∧
    (⟨1, 0, 7#8, false, true, false, false⟩ : Multi).des2 ≠ 1 ∧ (1 : Reg) ∈ (⟨1, 1, 3#8, false, true, false, true⟩ : Multi).regs := by
  refine ⟨⟨by decide, by decide, by decide, blockAccepted_of _ _ _ (by decide), ?_⟩, by decide, by decide, by decide, by decide⟩
  intro k h
  match k, h with
  | 0, _ => exact holds_four loads.mem (blockWord ⟨1, 1, 0x81#8, true, true, true, false⟩ loads 0) 0x11223344#32 (by decide)
  | 1, _ => exact holds_four loads.mem (blockWord ⟨1, 1, 0x81#8, true, true, true, false⟩ loads 1) 0x12345678#32 (by decide)

theorem witness_PopResults :
    State.reset.condHolds .al = true ∧ (stack.reg 15).toNat % 4 = 0 ∧ stack.mapped .read (stack.reg 15) .word = true ∧
    Holds stack.mem (stack.reg 15) 4 0xFFFFFFF5#32 ∧ (3 : Reg) ≠ 15 ∧ ((st [(15, 2#32)]).reg 15).toNat % Size.word.bytes ≠ 0 :=
  ⟨by decide, by decide, by decide, holds_four _ _ _ (by decide), by decide, by decide⟩

/-- A word, a halfword and a byte that can be stored at the last such address, and a misaligned halfword. -/
theorem witness_SingleStoreResults :
    let a : Single := ⟨1, 3, .imm 0#8, true, false, true⟩
    (st [(1, 0xFFFFFFFC#32)]).condHolds .al = true ∧
    (accessAddr a (st [(1, 0xFFFFFFFC#32)])).toNat % Size.word.bytes = 0 ∧ (accessAddr a (st [(1, 0xFFFFFFFE#32)])).toNat % Size.half.bytes = 0 ∧
    (accessAddr a (st [(1, 0xFFFFFFFF#32)])).toNat % Size.byte.bytes = 0 ∧ (accessAddr a (st [(1, 0xFFFFFFFF#32)])).toNat % Size.half.bytes ≠ 0 ∧
    State.reset.mapped .write 0xFFFFFFFC#32 .word = true := by decide

/-- A block that wraps at the top of the address space, and an empty one. -/
theorem witness_StormResult :
    (let m : Multi := ⟨1, 1, 0x0C#8, false, true, false, true⟩
     let s := st [(1, 0xFFFFFFFC#32)]
     s.condHolds .al = true ∧ m.wellFormed = true ∧ BlockAccepted m s .write ∧ blockWord m s 1 = 0#32) ∧
    (let m : Multi := ⟨1, 1, 0#8, false, true, false, true⟩
     m.wellFormed = true ∧ BlockAccepted m State.reset .write) ∧
    (let m : Multi := ⟨0, 0, 2#8, false, true, false, false⟩
     m.regs ≠ [] ∧ (blockStart m (st [(0, 1#32)])).toNat % 4 ≠ 0) ∧
    (⟨1, 0, 7#8, false, true, false, false⟩ : Multi).des2 ≠ 1 ∧ (1 : Reg) ∈ (⟨1, 1, 3#8, false, true, false, true⟩ : Multi).regs :=
  ⟨⟨by decide, by decide, blockAccepted_of _ _ _ (by decide), by decide⟩, ⟨by decide, blockAccepted_of _ _ _ (by decide)⟩, by decide, by decide,
    by decide⟩

theorem witness_PopfRestoresPushedFlags :
    let s := st [(15, 0x1000#32)]
    (∃ t, exec (.pushf .al) s = .next t) ∧ s.condHolds .al = true ∧ (fl true true true true).condHolds .allSet = true ∧
    s.mapped .read (s.reg 15 - 4#32) .word = true := ⟨next_of (by decide), by decide⟩

theorem witness_StormEqualsPushes :
    let m : Multi := ⟨15, 15, 0x81#8, false, false, true, true⟩
    State.reset.condHolds .al = true ∧ m.base = 15 ∧ m.up = false ∧ m.pre = true ∧ m.wb = true ∧
    ∃ t, exec (.storm .al m) State.reset = .next t := ⟨by decide, by decide, by decide, by decide, by decide, next_of (by decide)⟩

theorem witness_NarrowReadsSeeWideStore :
    (∃ t, State.reset.writeMem 0x1000#32 .word 0x876543F1#32 = .ok t) ∧ State.reset.mapped .read (0x1000#32 + BitVec.ofNat 32 3) .byte = true ∧
    State.reset.mapped .read (0x1000#32 + BitVec.ofNat 32 (2 * 1)) .half = true := ⟨⟨_, rfl⟩, by decide⟩

theorem witness_FetchSeesStore :
    let a : Single := ⟨1, 3, .imm 4#8, true, true, false⟩
    State.reset.condHolds .al = true ∧ (∃ t, exec (.stor .al a) State.reset = .next t) ∧ accessAddr a State.reset = State.reset.pc + 4#32 ∧
    State.reset.mapped .fetch (State.reset.pc + 4#32) .word = true := ⟨by decide, next_of (by decide), by decide, by decide⟩

/-- In either mode. -/
theorem witness_CpuControlResults :
    State.reset.condHolds .al = true ∧ State.reset.mode = .supervisor ∧ ({ State.reset with mode := .user } : State).mode = .user ∧
    (Instr.wait .al, RunState.waiting, State.reset.mode) ∈
      [(Instr.stop .al, RunState.stopped, State.reset.mode), (.wait .al, .waiting, State.reset.mode), (.switchm .al, State.reset.run, Mode.user)] := by
  decide

end Sys2Proof.Tests
end

section
/-!
SUPPORT. What a completed instruction can do to the state (10_state.md), said once: the updates it may make, each with its guard, and how
it ends. The proofs about whole steps are case splits over these two relations.
-/

namespace Sys2Proof.Machine

/-! ### The words of a block -/

/-- One alignment check serves a whole block: its words lie 4 apart (R135, R153). -/
theorem aligned_of_mem_wordAddrs {a x : Word} {n : Nat} (ha : Size.word.aligned a = true) (hx : x ∈ wordAddrs a n) :
    Size.word.aligned x = true := by
  induction n generalizing a with
  | zero => cases hx
  | succ n ih =>
    rcases List.mem_cons.mp hx with rfl | hx
    · exact ha
    · refine ih ?_ hx
      rw [Size.aligned_iff, Size.bytes] at ha ⊢
      bv_omega

/-- When the checks of a block pass, each of its words is an aligned, accepted access. -/
theorem accepted_of_checkBlock {s : State} {k : AccessKind} {a x : Word} {n : Nat} (h : checkBlock s k (wordAddrs a n) = .ok ())
    (hx : x ∈ wordAddrs a n) : Size.word.aligned x = true ∧ s.mapped k x .word = true := by
  obtain ⟨ha, hm⟩ := (checkBlock_ok s k _).mp h
  cases n with
  | zero => cases hx
  | succ n => exact ⟨aligned_of_mem_wordAddrs (ha a rfl) hx, hm x hx⟩

/-! ### The updates of an instruction -/

/-- `u` is `s` after some of the updates the instruction `i` may make before it moves the pc: registers; flags, if `i` writes flags
(R16); and memory, if `i` stores (20_memory.md R32), by accesses that passed their checks in `s`. -/
inductive Updates (i : Instr) (s : State) : State → Prop where
  | refl : Updates i s s
  | setReg {u : State} (r : Reg) (v : Word) (h : Updates i s u) : Updates i s (u.setReg r v)
  | setFlags {u : State} (fl : Flags) (hf : writesFlags i = true) (h : Updates i s u) : Updates i s (u.setFlags fl)
  | storeBytes {u : State} (a : Word) (n : Size) (v : Word) (hi : storesToMemory i = true) (ha : n.aligned a = true)
      (hm : s.mapped .write a n = true) (h : Updates i s u) : Updates i s (u.storeBytes a n v)

section
variable {i : Instr} {s u : State}

theorem Updates.setFlagsIf {f : Bool} (fl : Flags) (hf : f = true → writesFlags i = true) (h : Updates i s u) :
    Updates i s (u.setFlagsIf f fl) := by
  cases f with
  | false => exact h
  | true => exact h.setFlags fl (hf rfl)

theorem Updates.writeBack (wb : Bool) (b : Reg) (v : Word) (h : Updates i s u) : Updates i s (writeBack wb b v u) := by
  cases wb with
  | false => exact h
  | true => exact h.setReg b v

theorem Updates.writeDest (d : Option Reg) (v : Word) (h : Updates i s u) : Updates i s (writeDest d v u) := by
  cases d with
  | none => exact h
  | some d => exact h.setReg d v

theorem Updates.setRegs (l : List (Reg × Word)) (h : Updates i s u) : Updates i s (u.setRegs l) := by
  induction l generalizing u with
  | nil => exact h
  | cons p l ih => exact ih (h.setReg p.1 p.2)

theorem Updates.storeWords (l : List (Word × Word)) (hi : storesToMemory i = true)
    (hl : ∀ p ∈ l, Size.word.aligned p.1 = true ∧ s.mapped .write p.1 .word = true) (h : Updates i s u) :
    Updates i s (storeWords u l) := by
  induction l generalizing u with
  | nil => exact h
  | cons p l ih =>
    obtain ⟨ha, hm⟩ := hl p List.mem_cons_self
    exact ih (fun q hq => hl q (List.mem_cons_of_mem p hq)) (h.storeBytes p.1 .word p.2 hi ha hm)

/-- No update touches the pc, the mode, the run state or the platform. -/
theorem Updates.frame (h : Updates i s u) :
    u.pc = s.pc ∧ u.mode = s.mode ∧ u.run = s.run ∧ u.unmapped = s.unmapped ∧ u.irqPolls = s.irqPolls := by
  induction h with
  | refl => exact ⟨rfl, rfl, rfl, rfl, rfl⟩
  | setReg _ _ _ ih => exact ih
  | setFlags _ _ _ ih => exact ih
  | storeBytes _ _ _ _ _ _ _ ih => exact ih

theorem Updates.pc_eq (h : Updates i s u) : u.pc = s.pc := by
  obtain ⟨hpc, -⟩ := h.frame
  exact hpc

theorem Updates.run_eq (h : Updates i s u) : u.run = s.run := by
  obtain ⟨-, -, hrun, -⟩ := h.frame
  exact hrun

theorem Updates.flags_of_not_writesFlags (h : Updates i s u) (hf : writesFlags i = false) : u.flags = s.flags := by
  induction h with
  | refl => rfl
  | setReg _ _ _ ih => exact ih
  | setFlags _ hw _ _ => exact absurd hw (by simp [hf])
  | storeBytes _ _ _ _ _ _ _ ih => exact ih

theorem Updates.wf_mem (h : Updates i s u) (hs : s.mem.wf = true) : u.mem.wf = true := by
  induction h with
  | refl => exact hs
  | setReg _ _ _ ih => exact ih
  | setFlags _ _ _ ih => exact ih
  | storeBytes a n v _ _ _ _ ih => exact State.wf_storeBytes a n v ih

/-- A push is a store below the stack pointer and a move of the pointer (R151). -/
theorem Updates.of_push {v : Word} (hi : storesToMemory i = true) (h : s.push v = .ok u) : Updates i s u := by
  obtain ⟨ha, hm, rfl⟩ := (s.push_ok v u).mp h
  exact (Updates.refl.storeBytes _ _ _ hi ha hm).setReg _ _

/-- A pop moves the stack pointer (R131). -/
theorem Updates.of_pop {p : Word × State} (h : s.pop = .ok p) : Updates i s p.2 := by
  obtain ⟨-, hp⟩ := (s.pop_ok p).mp h
  exact hp ▸ Updates.refl.setReg _ _

end

/-! ### How an instruction ends -/

/-- What the instruction `i`, completed in `s`, can have left: some updates, and the pc past the instruction, at a checked target (R120)
or at a target relative to the pc (R200); or one of the three effects of CPU control, in Supervisor mode (R170 to R173). -/
inductive Completes (i : Instr) (s : State) : State → Prop where
  | advance {u : State} (h : Updates i s u) : Completes i s u.advance
  | jump {u : State} (t : Word) (ht : t.toNat % 4 = 0) (h : Updates i s u) : Completes i s (u.setPc t)
  | branch {u : State} (off24 : BitVec 24) (h : Updates i s u) : Completes i s (u.setPc (branchTarget off24 s))
  | stop (c : Cond) (hi : i = .stop c) (hm : s.mode = .supervisor) : Completes i s { s.advance with run := .stopped }
  | wait (c : Cond) (hi : i = .wait c) (hm : s.mode = .supervisor) : Completes i s { s.advance with run := .waiting }
  | switchm (c : Cond) (hi : i = .switchm c) (hm : s.mode = .supervisor) : Completes i s { s.advance with mode := .user }

section
variable {i : Instr} {s t : State}

/-- An instruction whose condition fails only moves the pc on (R63), so its own effect decides. -/
theorem Completes.of_perform {c : Cond} {b : Except Stop State} (h : s.perform c b = .next t)
    (hb : ∀ u, b = .ok u → Completes i s u) : Completes i s t := by
  obtain ⟨-, hu⟩ | ⟨-, rfl⟩ := (s.perform_next t c b).mp h
  · exact hb t hu
  · exact .advance .refl

/-- An effect that always completes. -/
theorem Completes.of_perform_ok {c : Cond} {u : State} (h : s.perform c (.ok u) = .next t) (hu : Completes i s u) :
    Completes i s t :=
  .of_perform h fun _ e => Except.ok.inj e ▸ hu

/-! ### The shared effects of the families -/

theorem Completes.logicalResult {f : Bool} (hf : f = true → writesFlags i = true) (d : Reg) (r : Word) :
    Completes i s (logicalResult f d r s) :=
  .advance ((Updates.refl.setReg d r).setFlagsIf _ hf)

theorem Completes.productResult {f : Bool} (hf : f = true → writesFlags i = true) (d : Reg) (r : Word) :
    Completes i s (productResult f d r s) :=
  .advance ((Updates.refl.setReg d r).setFlagsIf _ hf)

theorem Completes.longResult {f : Bool} (hf : f = true → writesFlags i = true) (h d : Reg) (p : BitVec 64) :
    Completes i s (longResult f h d p s) :=
  .advance (((Updates.refl.setReg d _).setReg h _).setFlagsIf _ hf)

theorem Completes.immResult (d : Reg) (r : Word) : Completes i s (immResult d r s) :=
  .advance (Updates.refl.setReg d r)

theorem Completes.of_additive {w : Word} {o f : Bool} {a b : Word} {cin : Bool} {d : Option Reg}
    (hf : f = true → writesFlags i = true) (h : additive w o f a b cin d s = .ok t) : Completes i s t := by
  obtain ⟨-, rfl⟩ := (additive_ok w o f a b cin d s t).mp h
  exact .advance ((Updates.refl.writeDest d _).setFlagsIf _ hf)

/-- `div` and `rem`, past the check of the divisor. -/
theorem Completes.of_checkDivisor {w b : Word} {f : Bool} {d : Reg} {r : Word} (hf : f = true → writesFlags i = true)
    (h : ((checkDivisor w b).map fun _ => Machine.productResult f d r s) = .ok t) : Completes i s t := by
  obtain ⟨-, -, rfl⟩ := (except_map_ok _ _ _).mp h
  exact .productResult hf d r

theorem Completes.of_callTo {p : Word} (hi : storesToMemory i = true)
    (hp : ∀ {u}, Updates i s u → Completes i s (u.setPc p)) (h : callTo p s = .ok t) : Completes i s t := by
  obtain ⟨u, hu, rfl⟩ := (callTo_ok p s t).mp h
  exact hp (.of_push hi hu)

theorem Completes.of_loadSingle {n : Size} {ext : Word → Word} {a : Single} (h : loadSingle n ext a s = .ok t) :
    Completes i s t := by
  obtain ⟨-, v, -, rfl⟩ := (loadSingle_ok n ext a s t).mp h
  exact .advance ((Updates.refl.setReg a.data (ext v)).writeBack _ _ _)

theorem Completes.of_loadMulti {m : Multi} (h : loadMulti m s = .ok t) : Completes i s t := by
  obtain ⟨-, -, vs, -, rfl⟩ := (loadMulti_ok m s t).mp h
  exact .advance ((Updates.refl.setRegs (m.regs.zip vs)).writeBack _ _ _)

theorem Completes.of_storeSingle {n : Size} {a : Single} (hi : storesToMemory i = true) (h : storeSingle n a s = .ok t) :
    Completes i s t := by
  obtain ⟨ha, hm, rfl⟩ := (storeSingle_ok n a s t).mp h
  exact .advance ((Updates.refl.storeBytes _ _ _ hi ha hm).writeBack _ _ _)

theorem Completes.of_storeMulti {m : Multi} (hi : storesToMemory i = true) (h : storeMulti m s = .ok t) : Completes i s t := by
  obtain ⟨-, hb, rfl⟩ := (storeMulti_ok m s t).mp h
  exact .advance ((Updates.refl.storeWords _ hi fun _ hp =>
    accepted_of_checkBlock hb (List.of_mem_zip hp).1).writeBack _ _ _)

/-- The three pushes of the store group (R156 to R158). -/
theorem Completes.of_push {v : Word} (hi : storesToMemory i = true) (h : (s.push v).map State.advance = .ok t) :
    Completes i s t := by
  obtain ⟨u, hu, rfl⟩ := (except_map_ok _ _ _).mp h
  exact .advance (.of_push hi hu)

theorem Completes.of_rbra {p : Word} (h : ((checkTarget p).map fun _ => s.setPc p) = .ok t) : Completes i s t := by
  obtain ⟨⟨⟩, hp, rfl⟩ := (except_map_ok _ _ _).mp h
  exact .jump p ((checkTarget_ok p).mp hp) .refl

theorem Completes.of_rcall {p : Word} (hi : storesToMemory i = true)
    (h : ((checkTarget p).bind fun _ => callTo p s) = .ok t) : Completes i s t := by
  obtain ⟨⟨⟩, hp, hc⟩ := (except_bind_ok _ _ _).mp h
  exact .of_callTo hi (.jump p ((checkTarget_ok p).mp hp)) hc

theorem Completes.of_ret (h : (s.pop.bind fun p => (checkTarget p.1).map fun _ => p.2.setPc p.1) = .ok t) :
    Completes i s t := by
  obtain ⟨p, hp, hc⟩ := (except_bind_ok _ _ _).mp h
  obtain ⟨⟨⟩, ht, rfl⟩ := (except_map_ok _ _ _).mp hc
  exact .jump p.1 ((checkTarget_ok _).mp ht) (.of_pop hp)

theorem Completes.of_pop {d : Reg}
    (h : (if d = spReg then .error (.refuse .popSP) else s.pop.map fun p => (p.2.setReg d p.1).advance) = .ok t) :
    Completes i s t := by
  split at h
  · cases h
  · obtain ⟨p, hp, rfl⟩ := (except_map_ok _ _ _).mp h
    exact .advance ((Updates.of_pop hp).setReg d p.1)

theorem Completes.of_popf (hf : writesFlags i = true)
    (h : (s.pop.map fun p => (p.2.setFlags (Flags.ofWord p.1)).advance) = .ok t) : Completes i s t := by
  obtain ⟨p, hp, rfl⟩ := (except_map_ok _ _ _).mp h
  exact .advance ((Updates.of_pop hp).setFlags _ hf)

theorem Completes.of_lmul {f : Bool} {h d : Reg} {p : BitVec 64} (hf : f = true → writesFlags i = true)
    (e : (if h = d then .error (.refuse .lmulSameDest) else .ok (Machine.longResult f h d p s)) = (.ok t : Except Stop State)) :
    Completes i s t := by
  split at e
  · cases e
  · exact Except.ok.inj e ▸ .longResult hf h d p

theorem Completes.of_privileged {w : Word} {u : State} (hu : s.mode = .supervisor → Completes i s u)
    (h : privileged w s u = .ok t) : Completes i s t := by
  obtain ⟨hm, rfl⟩ := (privileged_ok w s u t).mp h
  exact hu hm

end

/-- What every completed instruction can have done, one case per family. -/
theorem exec_completes {i : Instr} {s t : State} (h : exec i s = .next t) : Completes i s t := by
  cases i with
  | and | or | xor | nand | not | nor | xnor | cntlz | cntlo | popcnt => exact .of_perform_ok h (.logicalResult id _ _)
  | add | sub | addc | subc | neg => exact .of_perform h fun _ => .of_additive id
  | comp => exact .of_perform h fun _ => .of_additive fun _ => rfl
  | mult => exact .of_perform_ok h (.productResult id _ _)
  | div | rem => exact .of_perform h fun _ => .of_checkDivisor id
  | lmul => exact .of_perform h fun _ => .of_lmul id
  | rbra => exact .of_perform h fun _ => .of_rbra
  | rcall => exact .of_perform h fun _ => .of_rcall rfl
  | ret => exact .of_perform h fun _ => .of_ret
  | load | loadb | loadh | loadbe | loadhe => exact .of_perform h fun _ => .of_loadSingle
  | loadm => exact .of_perform h fun _ => .of_loadMulti
  | pop => exact .of_perform h fun _ => .of_pop
  | popf => exact .of_perform h fun _ => .of_popf rfl
  | stor | storb | storh => exact .of_perform h fun _ => .of_storeSingle rfl
  | storm => exact .of_perform h fun _ => .of_storeMulti rfl
  | push | pushpc | pushf => exact .of_perform h fun _ => .of_push rfl
  | stop c => exact .of_perform h fun _ => .of_privileged (.stop c rfl)
  | wait c => exact .of_perform h fun _ => .of_privileged (.wait c rfl)
  | switchm c => exact .of_perform h fun _ => .of_privileged (.switchm c rfl)
  | movimm | movuimm | andimm | orimm | xorimm | addimm | subimm => exact .of_perform_ok h (.immResult _ _)
  | compimm => exact .of_perform_ok h (.advance (.setFlags _ rfl .refl))
  | bra _ off24 => exact .of_perform_ok h (.branch off24 .refl)
  | call _ off24 => exact .of_perform h fun _ => .of_callTo rfl (.branch off24)

/-! ### The pc stays a multiple of 4 -/

theorem toNat_add_mod_four {a b : Word} (ha : a.toNat % 4 = 0) (hb : b.toNat % 4 = 0) : (a + b).toNat % 4 = 0 := by
  bv_omega

/-- A branch offset is a number of words (30_encoding.md R61). -/
theorem branchOffset_mod_four (v : BitVec 24) : (branchOffset v).toNat % 4 = 0 := by
  have h : (v ++ 0#2).toNat = v.toNat * 4 := by
    rw [BitVec.toNat_append, BitVec.toNat_ofNat, Nat.zero_mod, Nat.or_zero, Nat.shiftLeft_eq]
  rw [branchOffset, BitVec.toNat_signExtend, BitVec.toNat_setWidth, h]
  split <;> omega

theorem branchTarget_mod_four {s : State} (h : s.pc.toNat % 4 = 0) (off24 : BitVec 24) :
    (branchTarget off24 s).toNat % 4 = 0 :=
  toNat_add_mod_four (toNat_add_mod_four h rfl) (branchOffset_mod_four off24)

theorem Completes.inv {i : Instr} {s t : State} (h : Completes i s t) (hs : s.Inv) : t.Inv := by
  obtain ⟨hpc, hmem⟩ := hs
  have hnext : (s.pc + 4#32).toNat % 4 = 0 := toNat_add_mod_four hpc rfl
  cases h with
  | advance hu => exact ⟨by simpa [hu.pc_eq] using hnext, hu.wf_mem hmem⟩
  | jump p hp hu => exact ⟨hp, hu.wf_mem hmem⟩
  | branch off24 hu => exact ⟨branchTarget_mod_four hpc off24, hu.wf_mem hmem⟩
  | stop => exact ⟨hnext, hmem⟩
  | wait => exact ⟨hnext, hmem⟩
  | switchm => exact ⟨hnext, hmem⟩

/-! ### The run state and the flags -/

theorem Completes.run {i : Instr} {s t : State} (h : Completes i s t) :
    t.run = s.run ∨ (s.mode = .supervisor ∧ ∃ c, (i = .stop c ∧ t.run = .stopped) ∨ (i = .wait c ∧ t.run = .waiting)) := by
  cases h with
  | advance hu => exact .inl hu.run_eq
  | jump _ _ hu => exact .inl hu.run_eq
  | branch _ hu => exact .inl hu.run_eq
  | stop c hi hm => exact .inr ⟨hm, c, .inl ⟨hi, rfl⟩⟩
  | wait c hi hm => exact .inr ⟨hm, c, .inr ⟨hi, rfl⟩⟩
  | switchm => exact .inl rfl

theorem Completes.flags_of_not_writesFlags {i : Instr} {s t : State} (h : Completes i s t) (hf : writesFlags i = false) :
    t.flags = s.flags := by
  cases h with
  | advance hu => exact hu.flags_of_not_writesFlags hf
  | jump _ _ hu => exact hu.flags_of_not_writesFlags hf
  | branch _ hu => exact hu.flags_of_not_writesFlags hf
  | stop => rfl
  | wait => rfl
  | switchm => rfl

/-! ### The obligations -/

/-- Settles O15: a stopped or waiting CPU keeps the pc and memory, and a completed instruction keeps the invariant. -/
theorem stepKeepsInvariant : Obligations.StepKeepsInvariant := by
  intro s t hs h
  obtain ⟨-, rfl⟩ | ⟨-, rfl⟩ | ⟨-, w, i, -, -, hx⟩ := step_next h
  · exact hs
  · exact hs
  · exact (exec_completes hx).inv hs

/-- Settles O18: of the completed instructions only `stop` and `wait` change the run state. -/
theorem runStateChangesOnlyByStopWait : Obligations.RunStateChangesOnlyByStopWait := by
  intro s t h
  obtain ⟨-, rfl⟩ | ⟨-, rfl⟩ | ⟨hr, w, i, hf, hd, hx⟩ := step_next h
  · exact .inl rfl
  · exact .inl rfl
  · obtain hrun | ⟨hm, c, ⟨rfl, hrun⟩ | ⟨rfl, hrun⟩⟩ := (exec_completes hx).run
    · exact .inl hrun
    · exact .inr ⟨hm, hr, w, c, hf, .inl ⟨hd, hrun⟩⟩
    · exact .inr ⟨hm, hr, w, c, hf, .inr ⟨hd, hrun⟩⟩

/-- Settles O19: every flag update of a completed instruction is one that R16 lists. -/
theorem flagsWrittenOnlyAsListed : Obligations.FlagsWrittenOnlyAsListed :=
  fun _ _ _ hf h => (exec_completes h).flags_of_not_writesFlags hf

/-- Settles O13: each field is the one `State.resetOn` names, and RESET_PC is 0. -/
theorem resetState : Obligations.ResetState :=
  fun _ _ => ⟨rfl, rfl, rfl, rfl, rfl, rfl⟩

/-- Settles O14: RESET_PC is a multiple of 4 and nothing is loaded. -/
theorem resetMeetsInvariant : Obligations.ResetMeetsInvariant :=
  ⟨rfl, Memory.wf_reset⟩

end Sys2Proof.Machine
end

section
/-!
SUPPORT. What a completed instruction leaves of memory and of the platform's map (20_memory.md R32, R38, R39).
-/

namespace Sys2Proof.Machine

/-- No write that the platform accepts in the current mode touches the byte at `k` (R38). -/
def State.WriteProtected (s : State) (k : Nat) : Prop :=
  ∀ (a : Word) (n : Size), s.mapped .write a n = true → ¬(a.toNat ≤ k ∧ k < a.toNat + n.bytes)

section
variable {i : Instr} {s t u : State}

theorem Updates.mem_eq_of_not_stores (h : Updates i s u) (hi : storesToMemory i = false) : u.mem = s.mem := by
  induction h with
  | refl => rfl
  | setReg _ _ _ ih => exact ih
  | setFlags _ _ _ ih => exact ih
  | storeBytes _ _ _ hs _ _ _ _ => exact absurd hs (by simp [hi])

/-- A protected byte keeps its value: every store passed its checks (R38). -/
theorem Updates.read_eq_of_writeProtected (h : Updates i s u) {k : Nat} (hk : s.WriteProtected k) :
    u.mem.read k = s.mem.read k := by
  induction h with
  | refl => rfl
  | setReg _ _ _ ih => exact ih
  | setFlags _ _ _ ih => exact ih
  | storeBytes a n v _ ha hm _ ih => rw [State.read_storeBytes v ((n.aligned_iff a).mp ha), if_neg (hk a n hm), ih]

/-- How an instruction ends does not matter to memory and the platform: only its updates do. -/
theorem Completes.exists_updates (h : Completes i s t) :
    ∃ u, Updates i s u ∧ t.mem = u.mem ∧ t.unmapped = u.unmapped ∧ t.irqPolls = u.irqPolls := by
  cases h with
  | advance hu => exact ⟨_, hu, rfl, rfl, rfl⟩
  | jump _ _ hu => exact ⟨_, hu, rfl, rfl, rfl⟩
  | branch _ hu => exact ⟨_, hu, rfl, rfl, rfl⟩
  | stop => exact ⟨s, .refl, rfl, rfl, rfl⟩
  | wait => exact ⟨s, .refl, rfl, rfl, rfl⟩
  | switchm => exact ⟨s, .refl, rfl, rfl, rfl⟩

theorem Completes.mem_eq_of_not_stores (h : Completes i s t) (hi : storesToMemory i = false) : t.mem = s.mem := by
  obtain ⟨u, hu, hmem, -⟩ := h.exists_updates
  rw [hmem, hu.mem_eq_of_not_stores hi]

theorem Completes.platform_eq (h : Completes i s t) : t.unmapped = s.unmapped ∧ t.irqPolls = s.irqPolls := by
  obtain ⟨u, hu, -, hun, hirq⟩ := h.exists_updates
  obtain ⟨-, -, -, hun', hirq'⟩ := hu.frame
  exact ⟨hun.trans hun', hirq.trans hirq'⟩

theorem Completes.read_eq_of_writeProtected (h : Completes i s t) {k : Nat} (hk : s.WriteProtected k) :
    t.mem.read k = s.mem.read k := by
  obtain ⟨u, hu, hmem, -⟩ := h.exists_updates
  rw [hmem, hu.read_eq_of_writeProtected hk]

end

/-- The platform's answer depends on its map and the mode only (R39, R40). -/
theorem State.mapped_congr {s t : State} (hun : t.unmapped = s.unmapped) (hmode : t.mode = s.mode) (x : AccessKind) (a : Word)
    (n : Size) : t.mapped x a n = s.mapped x a n := by
  simp only [State.mapped, hun, hmode]

/-- A region for every size refuses each access of its kind and mode that touches one of its bytes (R38, R39). -/
theorem Region.denies_of_touches {r : Region} {a : Word} {n : Size} {x : AccessKind} {md : Mode} {k : Nat} (hsize : r.size = none)
    (hkind : r.kind = none ∨ r.kind = some x) (hmode : r.mode = none ∨ r.mode = some md) (hfirst : r.first ≤ k) (hlast : k ≤ r.last)
    (ha : a.toNat ≤ k) (hn : k < a.toNat + n.bytes) : r.denies a n x md = true := by
  simp [Region.denies, hsize, hkind, hmode, show a.toNat ≤ r.last by omega, show r.first < a.toNat + n.bytes by omega]

theorem State.mapped_eq_false_of_denies {s : State} {r : Region} {x : AccessKind} {a : Word} {n : Size} (hr : r ∈ s.unmapped)
    (hd : r.denies a n x s.mode = true) : s.mapped x a n = false := by
  simp only [State.mapped, Bool.not_eq_false', List.any_eq_true]
  exact ⟨r, hr, hd⟩

theorem State.writeProtected_of_region {s : State} {r : Region} {k : Nat} (hr : r ∈ s.unmapped) (hsize : r.size = none)
    (hkind : r.kind = none ∨ r.kind = some .write) (hmode : r.mode = none ∨ r.mode = some s.mode) (hfirst : r.first ≤ k)
    (hlast : k ≤ r.last) : s.WriteProtected k := by
  rintro a n hm ⟨ha, hn⟩
  have hd := Region.denies_of_touches hsize hkind hmode hfirst hlast ha hn
  simp [State.mapped_eq_false_of_denies hr hd] at hm

/-! ### The obligations -/

/-- Settles O20: the only update that changes memory is a store. -/
theorem memoryWrittenOnlyByStores : Obligations.MemoryWrittenOnlyByStores := by
  intro i s t hi h k
  rw [(exec_completes h).mem_eq_of_not_stores hi]

/-- Settles O21: the step of a waiting CPU counts a sample; no other step touches the platform. -/
theorem platformIsFixed : Obligations.PlatformIsFixed := by
  intro s t h
  obtain ⟨-, rfl⟩ | ⟨hr, rfl⟩ | ⟨-, w, i, -, -, hx⟩ := step_next h
  · exact ⟨rfl, fun _ => rfl⟩
  · exact ⟨rfl, fun hr' => by simp [hr] at hr'⟩
  · obtain ⟨hun, hirq⟩ := (exec_completes hx).platform_eq
    exact ⟨hun, fun _ => hirq⟩

/-- Settles O22: a write that the platform accepts touches no byte of such a region. -/
theorem protectedBytesNeverWritten : Obligations.ProtectedBytesNeverWritten := by
  intro s t r k hr hsize hkind hmode hfirst hlast h
  obtain ⟨-, rfl⟩ | ⟨-, rfl⟩ | ⟨-, w, i, -, -, hx⟩ := step_next h
  · rfl
  · rfl
  · exact (exec_completes hx).read_eq_of_writeProtected (State.writeProtected_of_region hr hsize hkind hmode hfirst hlast)

end Sys2Proof.Machine
end

section
/-!
SUPPORT. What a read answers when the bytes at its address are known (20_memory.md R33, R34), when one of them has no value
(70_reset_and_hazards.md R241), and after a store.
-/

namespace Sys2Proof.Machine

/-! ### A read of known bytes -/

/-- An accepted read of bytes that all have a value answers their value (R33). -/
theorem State.readMem_of_bytes {s : State} {x : AccessKind} {a : Word} {n : Size} {bs : List Byte} (ha : a.toNat % n.bytes = 0)
    (hm : s.mapped x a n = true) (hl : bs.length = n.bytes) (hb : ∀ j (h : j < bs.length), s.mem.read (a.toNat + j) = some bs[j]) :
    s.readMem x a n = .ok (bytesValue bs) := by
  refine (s.readMem_ok x a n _).mpr ⟨(n.aligned_iff a).mpr ha, hm, bs, (Memory.readAll_ok_iff _ _ _).mpr ?_, rfl⟩
  have hroom := Size.room ha
  rw [byteAddrs_eq_map hroom, List.map_map]
  refine List.ext_getElem (by simp [hl]) fun j _ hj => ?_
  rw [List.length_map] at hj
  simp [toNat_add_ofNat (show a.toNat + j < 2 ^ 32 by omega), hb j hj]

/-- An accepted read refuses at its first byte without a value (R241; log entry 4). -/
theorem State.readMem_of_unwritten {s : State} {x : AccessKind} {a : Word} {n : Size} {j : Nat} (ha : a.toNat % n.bytes = 0)
    (hm : s.mapped x a n = true) (hj : j < n.bytes) (hbefore : ∀ l, l < j → s.mem.read (a.toNat + l) ≠ none)
    (hnone : s.mem.read (a.toNat + j) = none) :
    s.readMem x a n = .error (.refuse (.unwrittenRead (a + BitVec.ofNat 32 j))) := by
  have hroom := Size.room ha
  have hread : ∀ l, l ≤ j → s.mem.read (a + BitVec.ofNat 32 l).toNat = s.mem.read (a.toNat + l) := fun l hl => by
    rw [toNat_add_ofNat (by omega)]
  have hc := (s.checkAccess_ok x a n).mpr ⟨(n.aligned_iff a).mpr ha, hm⟩
  simp only [State.readMem, hc, byteAddrs_eq_map hroom]
  rw [Memory.readAll_first s.mem _ n.bytes j hj (fun l hl => hread l hl.le ▸ hbefore l hl) ((hread j le_rfl).trans hnone)]
  rfl

/-- A read the platform does not accept raises AccessFault (R38). -/
theorem State.readMem_of_not_mapped {s : State} {x : AccessKind} {a : Word} {n : Size} (ha : a.toNat % n.bytes = 0)
    (hm : s.mapped x a n = false) : s.readMem x a n = .error (.raise (.accessFault a x)) := by
  have hc := (s.checkAccess_error x a n _).mpr (.inr ⟨(n.aligned_iff a).mpr ha, hm, rfl⟩)
  simp only [State.readMem, hc]

/-! ### A read of bytes that hold a value -/

theorem State.readMem_of_holds {s : State} {x : AccessKind} {a v : Word} {n : Size} (ha : a.toNat % n.bytes = 0)
    (hm : s.mapped x a n = true) (h : Holds s.mem a n.bytes v) : s.readMem x a n = .ok (bytesValue (valueBytes n.bytes v)) := by
  refine State.readMem_of_bytes ha hm (length_valueBytes _ _) fun j hj => ?_
  rw [length_valueBytes] at hj
  rw [valueBytes_get n v j hj, h j hj]

/-- The bits of a word shifted down are the bits further up. -/
theorem extract_ushiftRight (v : Word) (k l n : Nat) : (v >>> k).extractLsb' l n = v.extractLsb' (k + l) n := by
  ext i hi
  simp [Nat.add_assoc]

/-- Bytes further up hold the bits further up (R33). -/
theorem Holds.shift {m : Memory} {a v : Word} {j n k : Nat} (h : Holds m a k v) (hn : j + n ≤ k) (hroom : a.toNat + j < 2 ^ 32) :
    Holds m (a + BitVec.ofNat 32 j) n (v >>> (8 * j)) := by
  intro l hl
  rw [toNat_add_ofNat hroom, Nat.add_assoc, h (j + l) (by omega), extract_ushiftRight, Nat.mul_add]

/-- The bytes of an aligned store hold the value stored (R33). -/
theorem State.holds_storeBytes (s : State) {a : Word} {n : Size} (v : Word) (ha : a.toNat % n.bytes = 0) :
    Holds (s.storeBytes a n v).mem a n.bytes v := by
  intro j hj
  rw [State.read_storeBytes v ha, if_pos (by omega), Nat.add_sub_cancel_left]

/-- A narrower read inside the bytes of a store sees the bits stored there (R34). -/
theorem State.readMem_storeBytes {s : State} {x : AccessKind} {a : Word} {n n' : Size} (v : Word) {j : Nat}
    (ha : a.toNat % n.bytes = 0) (hn : j + n'.bytes ≤ n.bytes) (ha' : (a + BitVec.ofNat 32 j).toNat % n'.bytes = 0)
    (hm : s.mapped x (a + BitVec.ofNat 32 j) n' = true) :
    (s.storeBytes a n v).readMem x (a + BitVec.ofNat 32 j) n' = .ok (bytesValue (valueBytes n'.bytes (v >>> (8 * j)))) := by
  have hpos : 0 < n'.bytes := by cases n' <;> decide
  have hroom := Size.room ha
  exact State.readMem_of_holds ha' hm ((s.holds_storeBytes v ha).shift hn (by omega))

/-- The value of the low byte of a word (R33). -/
theorem bytesValue_valueBytes_one (v : Word) : bytesValue (valueBytes 1 v) = (v.extractLsb' 0 8).zeroExtend 32 := by
  rw [valueBytes_one, bytesValue_one]

/-- The value of the two low bytes of a word (R33). -/
theorem bytesValue_valueBytes_two (v : Word) : bytesValue (valueBytes 2 v) = (v.extractLsb' 0 16).zeroExtend 32 := by
  rw [valueBytes_two, bytesValue_two,
    BitVec.extractLsb'_append_extractLsb'_eq_extractLsb' (start₂ := 8) (start₁ := 0) (len₁ := 8) rfl]

/-! ### The fetch of a step -/

theorem step_of_fetch_error {s : State} {e : Stop} (hr : s.run = .running) (h : s.fetch = .error e) :
    step s = s.finish (.error e) := by
  simp only [step_of_running hr, State.runInstr, h]

theorem step_of_fetch_ok {s : State} {w : Word} {i : Instr} (hr : s.run = .running) (h : s.fetch = .ok w)
    (hd : decodeWord w = .ok i) : step s = exec i s := by
  simp only [step_of_running hr, State.runInstr, h, hd]

/-! ### The obligations -/

/-- Settles O7: the fetch reads the four bytes as one word. -/
theorem stepRunsDecodedInstruction : Obligations.StepRunsDecodedInstruction := by
  intro s b0 b1 b2 b3 i hr ha hm h0 h1 h2 h3 hd
  have hf : s.fetch = .ok (bytesValue [b0, b1, b2, b3]) := by
    refine State.readMem_of_bytes ha hm rfl fun j hj => ?_
    match j, hj with
    | 0, _ => exact h0
    | 1, _ => exact h1
    | 2, _ => exact h2
    | 3, _ => exact h3
  rw [bytesValue_four] at hf
  exact step_of_fetch_ok hr hf hd

/-- Settles O8: the fetch stops, and the step with it. -/
theorem fetchStops : Obligations.FetchStops := by
  intro s hr ha
  refine ⟨fun hm => ?_, fun hm j hj hbefore hnone => ?_⟩
  · exact step_of_fetch_error hr (State.readMem_of_not_mapped ha hm)
  · exact step_of_fetch_error hr (State.readMem_of_unwritten ha hm hj hbefore hnone)

/-- Settles O56: each read is one of bytes inside the store. -/
theorem narrowReadsSeeWideStore : Obligations.NarrowReadsSeeWideStore := by
  intro s t a v h
  obtain ⟨haligned, -, rfl⟩ := (s.writeMem_ok a .word v t).mp h
  have ha : a.toNat % Size.word.bytes = 0 := (Size.aligned_iff _ _).mp haligned
  refine ⟨fun hm => ?_, fun j hj hm => ?_, fun j hj hm => ?_⟩
  · rw [State.readMem_of_holds (s := s.storeBytes a .word v) ha hm (s.holds_storeBytes v ha), Size.bytes, bytesValue_valueBytes_four]
  · rw [State.readMem_storeBytes v ha (by simp only [Size.bytes]; omega) (Nat.mod_one _) hm, Size.bytes,
      bytesValue_valueBytes_one, extract_ushiftRight, Nat.add_zero]
  · have ha' : (a + BitVec.ofNat 32 (2 * j)).toNat % Size.half.bytes = 0 := by
      have hroom := Size.room ha
      simp only [Size.bytes] at ha hroom ⊢
      rw [toNat_add_ofNat (by omega)]
      omega
    rw [State.readMem_storeBytes v ha (by simp only [Size.bytes]; omega) ha' hm, Size.bytes, bytesValue_valueBytes_two,
      extract_ushiftRight, Nat.add_zero, ← Nat.mul_assoc]

/-- Settles O57: the store leaves the word at the pc of the next fetch, and neither the map nor the mode changes. -/
theorem fetchSeesStore : Obligations.FetchSeesStore := by
  intro s t c a hc h haddr hm
  obtain ⟨-, hstore⟩ | ⟨hn, -⟩ := (s.perform_next t c (storeSingle .word a s)).mp h
  · obtain ⟨haligned, -, ht⟩ := (storeSingle_ok .word a s t).mp hstore
    rw [haddr] at haligned ht
    have ha : (s.pc + 4#32).toNat % Size.word.bytes = 0 := (Size.aligned_iff _ _).mp haligned
    have hpc : t.pc = s.pc + 4#32 := by simp [ht]
    have hmap : t.mapped .fetch (s.pc + 4#32) .word = true := by
      rw [State.mapped_congr (s := s) (by simp [ht]) (by simp [ht]), hm]
    have hholds : Holds t.mem (s.pc + 4#32) Size.word.bytes (s.reg a.data) := by
      simpa [ht] using s.holds_storeBytes (s.reg a.data) ha
    rw [State.fetch, hpc, State.readMem_of_holds ha hmap hholds, Size.bytes, bytesValue_valueBytes_four]
  · simp [hc] at hn

end Sys2Proof.Machine
end

section
/-!
SUPPORT. Small facts of the encoding: the condition of a word and of an instruction (30_encoding.md R62, R63), the signed branch offset
(R61), the register set of a multiple transfer (R60), and the sample words (R53).
-/

namespace Sys2Proof

theorem Multi.val_regAt (m : Multi) {i : Nat} (hi : i < 8) : (m.regAt i).val = if m.high then i + 8 else i := by
  rw [Multi.regAt, Fin.val_ofNat]
  split <;> omega

/-- `loadm` and `storm` move the registers in ascending order (R133). -/
theorem Multi.regs_pairwise_lt (m : Multi) : m.regs.Pairwise (· < ·) := by
  rw [Multi.regs, List.pairwise_map]
  refine (List.pairwise_lt_range.filter _).imp_of_mem fun {i j} hi hj hlt => ?_
  have hi8 : i < 8 := List.mem_range.mp (List.mem_filter.mp hi).1
  have hj8 : j < 8 := List.mem_range.mp (List.mem_filter.mp hj).1
  rw [Fin.lt_def, m.val_regAt hi8, m.val_regAt hj8]
  split <;> omega

theorem Multi.mem_regs (m : Multi) (r : Reg) :
    r ∈ m.regs ↔ ∃ i, i < 8 ∧ m.list.getLsbD i = true ∧ r.val = if m.high then i + 8 else i := by
  simp only [Multi.regs, List.mem_map, List.mem_filter, List.mem_range, and_assoc]
  refine exists_congr fun i => and_congr_right fun hi => and_congr_right fun _ => ?_
  rw [← m.val_regAt hi, Fin.ext_iff, eq_comm]

theorem Multi.length_regs_le (m : Multi) : m.regs.length ≤ 8 := by
  rw [Multi.regs, List.length_map]
  exact List.length_filter_le _ _

end Sys2Proof

namespace Sys2Proof.Machine

/-- The branch offset is four times the signed field (R61). -/
theorem branchOffset_eq_ofInt (v : BitVec 24) : branchOffset v = BitVec.ofInt 32 (4 * v.toInt) := by
  rw [branchOffset, BitVec.signExtend, BitVec.toInt_append_zero, show (2 ^ 2 : Int) = 4 from rfl, Int.mul_comm]

/-- The target of `bra` and `call` through the integers, modulo 2^32 (47_branch_call.md R200). -/
theorem branchTarget_eq_ofInt (v : BitVec 24) (s : State) :
    branchTarget v s = BitVec.ofInt 32 (s.pc.toNat + 4 + 4 * v.toInt) := by
  rw [BitVec.ofInt_add, BitVec.ofInt_add, BitVec.ofInt_natCast, BitVec.ofNat_toNat, BitVec.setWidth_eq, ← branchOffset_eq_ofInt]
  rfl

/-! ### The obligations -/

/-- Settles O47: the list is an ascending range, filtered and then mapped by a strictly rising function. -/
theorem multiRegisterSet : Obligations.MultiRegisterSet :=
  fun m => ⟨m.regs_pairwise_lt, m.length_regs_le, m.mem_regs⟩

/-- Settles O6: the decoder is evaluated on each word, and each row is found among the samples. -/
theorem sampleWordsDecode : Obligations.SampleWordsDecode := by
  refine ⟨fun p hp => ?_, fun row hrow => ?_⟩
  · fin_cases hp <;> rfl
  · fin_cases hrow <;> decide

/-- Settles O9: one case for each of the sixteen codes. -/
theorem conditionCodesTestFlags : Obligations.ConditionCodesTestFlags := by
  intro w fl
  have hk : (w.extractLsb' 28 4).toNat < 16 := BitVec.isLt _
  simp only [condOf, condField, nibble, Cond.ofBits]
  generalize (w.extractLsb' 28 4).toNat = k at hk
  interval_cases k <;> simp [Flags.condHolds, and_assoc]

/-- Settles O10: every instruction runs under its own condition. -/
theorem falseConditionOnlyAdvances : Obligations.FalseConditionOnlyAdvances := by
  intro i s h
  obtain ⟨b, hb⟩ := exec_perform i s
  rw [hb, State.perform_of_not h]
  rfl

/-- Settles O38: the effect of `bra` is one update of the pc. -/
theorem braResult : Obligations.BraResult := by
  intro s c off hc
  refine ⟨s.setPc (branchTarget off s), s.perform_of_holds hc _, branchTarget_eq_ofInt off s, ?_, fun _ => rfl, rfl⟩
  exact ⟨fun _ _ => rfl, rfl, rfl, rfl, rfl⟩

end Sys2Proof.Machine
end

section
/-!
SUPPORT. The words the decoder calls illegal (30_encoding.md R64, R65): the group selects the decoder of a format, and the opcodes past the
last of a group select nothing.
-/

namespace Sys2Proof

section
variable {w : Word}

/-! ### The group selects the format (R53) -/

theorem decodeWord_logical (hg : (groupField w).toNat = 0) : decodeWord w = decodeLogical w := by
  simp only [decodeWord, hg]

theorem decodeWord_arithmetic (hg : (groupField w).toNat = 1) : decodeWord w = decodeArithmetic w := by
  simp only [decodeWord, hg]

theorem decodeWord_control (hg : (groupField w).toNat = 2) : decodeWord w = decodeControl w := by
  simp only [decodeWord, hg]

theorem decodeWord_load (hg : (groupField w).toNat = 3) : decodeWord w = decodeLoad w := by
  simp only [decodeWord, hg]

theorem decodeWord_store (hg : (groupField w).toNat = 4) : decodeWord w = decodeStore w := by
  simp only [decodeWord, hg]

theorem decodeWord_cpuControl (hg : (groupField w).toNat = 6) : decodeWord w = decodeCpuControl w := by
  simp only [decodeWord, hg]

theorem decodeWord_immediate (hg : (groupField w).toNat = 7) : decodeWord w = decodeImmediate w := by
  simp only [decodeWord, hg]

/-! ### Illegal groups and opcodes (R64, R65) -/

theorem decodeWord_illegal (hg : (groupField w).toNat = 5 ∨ 10 ≤ (groupField w).toNat) : decodeWord w = .error .illegal := by
  unfold decodeWord
  split
  case h_10 => rfl
  all_goals omega

theorem decodeLogical_illegal (hp : 10 ≤ (opcodeField w).toNat) : decodeLogical w = .error .illegal := by
  unfold decodeLogical
  split
  case h_11 => rfl
  all_goals omega

theorem decodeArithmetic_illegal (hp : 10 ≤ (opcodeField w).toNat) : decodeArithmetic w = .error .illegal := by
  unfold decodeArithmetic
  split
  case h_11 => rfl
  all_goals omega

theorem decodeControl_illegal (hp : 3 ≤ (opcodeField w).toNat) : decodeControl w = .error .illegal := by
  have hret : (opcodeField w).toNat ≠ retOpcode := by
    rw [retOpcode]
    omega
  simp only [decodeControl]
  rw [if_neg (by omega), if_neg (by omega), if_neg hret]

theorem decodeLoad_illegal (hp : 8 ≤ (opcodeField w).toNat) : decodeLoad w = .error .illegal := by
  unfold decodeLoad
  split
  case h_9 => rfl
  all_goals omega

theorem decodeStore_illegal (hp : 7 ≤ (opcodeField w).toNat) : decodeStore w = .error .illegal := by
  unfold decodeStore
  split
  case h_8 => rfl
  all_goals omega

theorem decodeCpuControl_illegal (hp : 3 ≤ (opcodeField w).toNat) : decodeCpuControl w = .error .illegal := by
  unfold decodeCpuControl
  split
  case h_4 => rfl
  all_goals omega

theorem decodeImmediate_illegal (hp : 8 ≤ (opcodeField w).toNat) : decodeImmediate w = .error .illegal := by
  unfold decodeImmediate
  split
  case h_9 => rfl
  all_goals omega

end

end Sys2Proof

namespace Sys2Proof.Machine

theorem step_of_decode_error {s : State} {w : Word} {r : Reject} (hr : s.run = .running) (hf : s.fetch = .ok w)
    (hd : decodeWord w = .error r) : step s = s.rejectWord w r := by
  simp only [step_of_running hr, State.runInstr, hf, hd]

/-! ### The obligation -/

/-- Settles O3: the group, or the opcode in its group, selects no instruction. -/
theorem illegalWordsRaise : Obligations.IllegalWordsRaise := by
  intro s w hr hf hw
  refine step_of_decode_error (r := .illegal) hr hf ?_
  rcases hw with hg | hg | ⟨hg, hp⟩ | ⟨hg, hp⟩ | ⟨hg, hp⟩ | ⟨hg, hp⟩ | ⟨hg, hp⟩ | ⟨hg, hp⟩ | ⟨hg, hp⟩
  · exact decodeWord_illegal (.inl hg)
  · exact decodeWord_illegal (.inr hg)
  · exact (decodeWord_logical hg).trans (decodeLogical_illegal hp)
  · exact (decodeWord_arithmetic hg).trans (decodeArithmetic_illegal hp)
  · exact (decodeWord_control hg).trans (decodeControl_illegal hp)
  · exact (decodeWord_load hg).trans (decodeLoad_illegal hp)
  · exact (decodeWord_store hg).trans (decodeStore_illegal hp)
  · exact (decodeWord_cpuControl hg).trans (decodeCpuControl_illegal hp)
  · exact (decodeWord_immediate hg).trans (decodeImmediate_illegal hp)

end Sys2Proof.Machine
end

section
/-!
SUPPORT. How the decoder reads the word of a row of spec/opcode_table.json (30_encoding.md R53): the tests it makes on the fields of the word
are the row's two masks, the should-be-zero bits (R66) and the Config bits not available (R68).
-/

namespace Sys2Proof

/-! ### Masks and fields -/

/-- The word whose `n` bits from `lo` up are ones, all others zero. -/
def fieldMask (lo n : Nat) : Word := (BitVec.allOnes n).setWidth 32 <<< lo

theorem getElem_fieldMask (lo n : Nat) {i : Nat} (hi : i < 32) : (fieldMask lo n)[i] = decide (lo ≤ i ∧ i < lo + n) := by
  simp only [fieldMask, BitVec.getElem_shiftLeft, BitVec.getElem_setWidth, BitVec.getLsbD_allOnes]
  grind

theorem and_fieldMask_eq_zero (w : Word) {lo n : Nat} (h : lo + n ≤ 32) :
    w &&& fieldMask lo n = 0#32 ↔ w.extractLsb' lo n = 0#n := by
  simp only [BitVec.eq_of_getElem_eq_iff, BitVec.getElem_and, BitVec.getElem_extractLsb', getElem_fieldMask]
  refine ⟨fun hw i hi => ?_, fun hw i hi => ?_⟩
  · have hbit := hw (lo + i) (by omega)
    simpa [hi, BitVec.getLsbD_eq_getElem (show lo + i < 32 by omega)] using hbit
  · by_cases hin : lo ≤ i ∧ i < lo + n
    · have hbit := hw (i - lo) (by omega)
      simpa [hi, hin] using hbit
    · simp [hin]

/-- Every bit of the mask `m` is 0 in `w`. -/
def isClear (w m : Word) : Bool := w &&& m == 0#32

section
variable (w : Word)

theorem isClear_iff (m : Word) : isClear w m = true ↔ w &&& m = 0#32 := beq_iff_eq

theorem isClear_eq_false_iff (m : Word) : isClear w m = false ↔ w &&& m ≠ 0#32 := beq_eq_false_iff_ne

@[simp] theorem isClear_zero : isClear w 0#32 = true := by
  rw [isClear_iff, BitVec.and_zero]

theorem isClear_or (a b : Word) : isClear w (a ||| b) = (isClear w a && isClear w b) := by
  rw [Bool.eq_iff_iff, Bool.and_eq_true, isClear_iff, isClear_iff, isClear_iff, BitVec.and_or_distrib_left, BitVec.or_eq_zero_iff]

/-- A mask that counts only when the bit `b` is 0. -/
@[simp] theorem isClear_ite (b : Bool) (m : Word) : isClear w (if b = false then m else 0#32) = (b || isClear w m) := by
  cases b
  · rfl
  · exact isClear_zero w

theorem isClear_field {lo n : Nat} (h : lo + n ≤ 32) : isClear w (fieldMask lo n) = (w.extractLsb' lo n == 0#n) := by
  rw [Bool.eq_iff_iff, isClear_iff, beq_iff_eq, and_fieldMask_eq_zero w h]

theorem isClear_bit {i : Nat} (h : i < 32) : isClear w (fieldMask i 1) = !w.getLsbD i := by
  rw [isClear_field w h, Bool.eq_iff_iff, beq_iff_eq, Bool.not_eq_true', BitVec.eq_of_getElem_eq_iff]
  simp

/-! ### The should-be-zero masks of the table (R66) -/

@[simp] theorem isClear_des2 : isClear w 0x000F0000#32 = (w.extractLsb' 16 4 == 0#4) :=
  isClear_field w (lo := 16) (n := 4) (by decide)

@[simp] theorem isClear_src2 : isClear w 0x000000F0#32 = (w.extractLsb' 4 4 == 0#4) :=
  isClear_field w (lo := 4) (n := 4) (by decide)

@[simp] theorem isClear_dest : isClear w 0x0000000F#32 = (w.extractLsb' 0 4 == 0#4) :=
  isClear_field w (lo := 0) (n := 4) (by decide)

@[simp] theorem isClear_cpuControl : isClear w 0x000FFFFF#32 = (w.extractLsb' 0 20 == 0#20) :=
  isClear_field w (lo := 0) (n := 20) (by decide)

@[simp] theorem isClear_des2_src2 : isClear w 0x000F00F0#32 = (w.extractLsb' 16 4 == 0#4 && w.extractLsb' 4 4 == 0#4) := by
  rw [← isClear_des2, ← isClear_src2, ← isClear_or]
  rfl

@[simp] theorem isClear_des2_dest : isClear w 0x000F000F#32 = (w.extractLsb' 16 4 == 0#4 && w.extractLsb' 0 4 == 0#4) := by
  rw [← isClear_des2, ← isClear_dest, ← isClear_or]
  rfl

@[simp] theorem isClear_ret :
    isClear w 0x000FEFFF#32 = (w.extractLsb' 16 4 == 0#4 && w.extractLsb' 13 3 == 0#3 && w.extractLsb' 0 12 == 0#12) := by
  rw [← isClear_des2, ← isClear_field w (by decide), ← isClear_field w (by decide), ← isClear_or, ← isClear_or]
  rfl

@[simp] theorem isClear_stack : isClear w 0x000F0FF0#32 = (w.extractLsb' 16 4 == 0#4 && w.extractLsb' 4 8 == 0#8) := by
  rw [← isClear_des2, ← isClear_field w (by decide), ← isClear_or]
  rfl

@[simp] theorem isClear_stack_dest :
    isClear w 0x000F0FFF#32 = (w.extractLsb' 16 4 == 0#4 && w.extractLsb' 4 8 == 0#8 && w.extractLsb' 0 4 == 0#4) := by
  rw [← isClear_stack, ← isClear_dest, ← isClear_or]
  rfl

/-! ### The masks of Config bits not available (R68) -/

@[simp] theorem isClear_config : isClear w 0xF000#32 = (w.extractLsb' 12 4 == 0#4) :=
  isClear_field w (lo := 12) (n := 4) (by decide)

@[simp] theorem isClear_bit12 : isClear w 0x1000#32 = !w.getLsbD 12 := isClear_bit w (i := 12) (by decide)

@[simp] theorem isClear_bit13 : isClear w 0x2000#32 = !w.getLsbD 13 := isClear_bit w (i := 13) (by decide)

@[simp] theorem isClear_bit14 : isClear w 0x4000#32 = !w.getLsbD 14 := isClear_bit w (i := 14) (by decide)

@[simp] theorem isClear_bits_14_12 : isClear w 0x5000#32 = (!w.getLsbD 14 && !w.getLsbD 12) := by
  rw [← isClear_bit14, ← isClear_bit12, ← isClear_or]
  rfl

@[simp] theorem isClear_bits_14_13 : isClear w 0x6000#32 = (!w.getLsbD 14 && !w.getLsbD 13) := by
  rw [← isClear_bit14, ← isClear_bit13, ← isClear_or]
  rfl

end

/-! ### A word of a row -/

theorem legal_of_clear (i : Instr) : legal true true i = .ok i := rfl
theorem legal_of_sbz (configClear : Bool) (i : Instr) : legal false configClear i = .error .sbz := rfl
theorem legal_of_config (i : Instr) : legal true false i = .error .configNotAvailable := rfl

/-- The decoder finds an instruction of the row in `w`, and accepts it exactly when the reserved bits are zero (R54 step 3). -/
def ReadsRow (w : Word) (row : Word × Word × Word) : Prop :=
  ∃ i : Instr, i.rowMatch = row.1 ∧ decodeWord w = legal (isClear w (row.2.1 ||| conditionalSbz w)) (isClear w row.2.2) i

/-- A field inside the fixed bits of a row is the row's own. -/
theorem extract_of_and_eq {w m k : Word} {lo n : Nat} (h : w &&& m = k) (hm : m.extractLsb' lo n = BitVec.allOnes n) :
    w.extractLsb' lo n = k.extractLsb' lo n := by
  rw [← h, BitVec.extractLsb'_and, hm, BitVec.and_allOnes]

/-- Every row of the table, group by group: its group and opcode select the decoder's arm, whose tests are the row's masks. -/
theorem readsRow_of_mem {w : Word} {row : Word × Word × Word} (hrow : row ∈ opcodeRows) (h : w &&& 0x0FF00000#32 = row.1) :
    ReadsRow w row := by
  have hg : w.extractLsb' 24 4 = row.1.extractLsb' 24 4 := extract_of_and_eq h rfl
  have hp : w.extractLsb' 20 4 = row.1.extractLsb' 20 4 := extract_of_and_eq h rfl
  clear h
  simp only [opcodeRows, List.mem_append, List.mem_cons, List.not_mem_nil, or_false] at hrow
  rcases hrow with (((((hrow | hrow) | hrow) | hrow) | hrow) | hrow) | hrow
  · -- group 0h, logical
    rcases hrow with rfl | rfl | rfl | rfl | rfl | rfl | rfl | rfl | rfl | rfl
    all_goals
      simp [ReadsRow, conditionalSbz, decodeWord, decodeLogical, groupField, opcodeField, nibble, hg, hp]
      exact ⟨_, rfl, rfl⟩
  · -- group 1h, arithmetic
    rcases hrow with rfl | rfl | rfl | rfl | rfl | rfl | rfl | rfl | rfl | rfl
    all_goals
      simp [ReadsRow, conditionalSbz, decodeWord, decodeArithmetic, groupField, opcodeField, nibble, bitAt, hg, hp]
      exact ⟨_, rfl, rfl⟩
  · -- group 2h, control flow
    rcases hrow with rfl | rfl | rfl
    all_goals
      simp [ReadsRow, conditionalSbz, isClear_or, decodeWord, decodeControl, retOpcode, groupField, opcodeField, nibble, x3Field,
        bitAt, hg, hp]
      exact ⟨_, rfl, rfl⟩
  · -- group 3h, load
    rcases hrow with rfl | rfl | rfl | rfl | rfl | rfl | rfl | rfl
    all_goals
      simp [ReadsRow, conditionalSbz, decodeWord, decodeLoad, singleSbz, stackSbz, stackConfig, groupField, opcodeField, nibble,
        bitAt, hg, hp]
      exact ⟨_, rfl, rfl⟩
  · -- group 4h, store
    rcases hrow with rfl | rfl | rfl | rfl | rfl | rfl | rfl
    all_goals
      simp [ReadsRow, conditionalSbz, decodeWord, decodeStore, singleSbz, stackSbz, stackConfig, groupField, opcodeField, nibble,
        bitAt, hg, hp]
      exact ⟨_, rfl, rfl⟩
  · -- group 6h, CPU control
    rcases hrow with rfl | rfl | rfl
    all_goals
      simp [ReadsRow, conditionalSbz, decodeWord, decodeCpuControl, groupField, opcodeField, nibble, hg, hp]
      exact ⟨_, rfl, rfl⟩
  · -- group 7h, immediate
    rcases hrow with rfl | rfl | rfl | rfl | rfl | rfl | rfl | rfl
    all_goals
      simp [ReadsRow, conditionalSbz, decodeWord, decodeImmediate, groupField, opcodeField, nibble, hg, hp]
      exact ⟨_, rfl, rfl⟩

end Sys2Proof

namespace Sys2Proof.Machine

/-! ### The obligation -/

/-- Settles O4: the word reads its row, and the masks decide. Where both kinds of bits are set the decoder names SBZ. -/
theorem reservedBitsRefuse : Obligations.ReservedBitsRefuse := by
  intro s w row hrow h
  obtain ⟨i, hi, hd⟩ := readsRow_of_mem hrow h
  refine ⟨fun hs hc => ⟨i, ?_, hi⟩, fun hr hf => ?_⟩
  · rw [hd, (isClear_iff w _).mpr hs, (isClear_iff w _).mpr hc, legal_of_clear]
  · have hsbz (hs : w &&& (row.2.1 ||| conditionalSbz w) ≠ 0#32) : step s = .refused (.sbz w) := by
      refine step_of_decode_error (r := .sbz) hr hf ?_
      rw [hd, (isClear_eq_false_iff w _).mpr hs, legal_of_sbz]
    refine ⟨fun hs _ => hsbz hs, fun hs hc => ?_, fun hs _ => .inl (hsbz hs)⟩
    refine step_of_decode_error (r := .configNotAvailable) hr hf ?_
    rw [hd, (isClear_iff w _).mpr hs, (isClear_eq_false_iff w _).mpr hc, legal_of_config]

end Sys2Proof.Machine
end

section
/-!
SUPPORT. What two words that differ in don't-care Config bits only have in common (30_encoding.md R67): the decoder reads the same fields in
both, and the meanings of the two instructions differ at most in the instruction word an exception records (60_exceptions.md R210).
-/

namespace Sys2Proof

/-! ### A word is put together from its cells (R51, R52) -/

theorem extract_append_nibble (w : Word) (lo n : Nat) :
    w.extractLsb' (lo + 4) n ++ w.extractLsb' lo 4 = w.extractLsb' lo (n + 4) :=
  BitVec.extractLsb'_append_extractLsb'_eq_extractLsb' rfl

theorem asmDefault_fields (w : Word) :
    asmDefault (condOf w) (groupField w) (opcodeField w) (nibble w 16) (nibble w 12) (nibble w 8) (nibble w 4) (nibble w 0) = w := by
  rw [asmDefault, condOf, Cond.bits_ofBits, condField, groupField, opcodeField]
  simp only [nibble]
  rw [extract_append_nibble w 24, extract_append_nibble w 20, extract_append_nibble w 16, extract_append_nibble w 12,
    extract_append_nibble w 8, extract_append_nibble w 4, extract_append_nibble w 0]
  exact extract_whole w

theorem asmDefault_eq {w : Word} {g p h k a b d : BitVec 4} (hg : groupField w = g) (hp : (opcodeField w).toNat = p.toNat)
    (hh : nibble w 16 = h) (hk : nibble w 12 = k) (ha : nibble w 8 = a) (hb : nibble w 4 = b) (hd : nibble w 0 = d) :
    asmDefault (condOf w) g p h k a b d = w := by
  rw [← hg, ← BitVec.eq_of_toNat_eq hp, ← hh, ← hk, ← ha, ← hb, ← hd, asmDefault_fields]

/-- The Config cell, bit by bit (R56). -/
theorem nibble12_eq_config (w : Word) : nibble w 12 = config (bitAt w 15) (bitAt w 14) (bitAt w 13) (bitAt w 12) := by
  rw [bitAt_config w 3 (by decide), bitAt_config w 2 (by decide), bitAt_config w 1 (by decide), bitAt_config w 0 (by decide)]
  generalize nibble w 12 = k
  revert k
  decide

theorem legal_eq_ok {sbzClear configClear : Bool} {i j : Instr} :
    legal sbzClear configClear i = .ok j ↔ sbzClear = true ∧ configClear = true ∧ i = j := by
  cases sbzClear <;> cases configClear <;> simp [legal]

/-- An arithmetic instruction encodes to the word it was read from: no bit of it is dropped. -/
theorem encode_of_decodeArithmetic {w : Word} {i : Instr} (hg : groupField w = 1) (h : decodeArithmetic w = .ok i) : encode i = w := by
  unfold decodeArithmetic at h
  split at h
  case h_11 => cases h
  all_goals
    rename_i hp
    obtain ⟨hs, hc, rfl⟩ := legal_eq_ok.mp h
    simp only [Bool.and_eq_true, beq_iff_eq, Bool.not_eq_true'] at hs hc
    have hk := nibble12_eq_config w
    simp only [hc] at hk
  case h_5 =>
    obtain ⟨hdes2, hsrc2⟩ := hs
    exact asmDefault_eq hg hp hdes2 hk rfl hsrc2 rfl
  case h_6 =>
    obtain ⟨hdes2, hdest⟩ := hs
    exact asmDefault_eq hg hp hdes2 hk rfl rfl hdest
  case h_10 => exact asmDefault_eq hg hp rfl hk rfl rfl rfl
  all_goals exact asmDefault_eq hg hp hs hk rfl rfl rfl

/-! ### Two words that differ in don't-care bits only -/

section
variable {w w' m : Word}

theorem extract_congr {lo n : Nat} (h : w &&& m = w' &&& m) (hm : m.extractLsb' lo n = BitVec.allOnes n) :
    w'.extractLsb' lo n = w.extractLsb' lo n := by
  rw [extract_of_and_eq h.symm hm, BitVec.extractLsb'_and, hm, BitVec.and_allOnes]

theorem bitAt_congr {i : Nat} (h : w &&& m = w' &&& m) (hm : m.getLsbD i = true) : bitAt w' i = bitAt w i := by
  simpa only [bitAt, BitVec.getLsbD_and, hm, Bool.and_true] using congrArg (BitVec.getLsbD · i) h.symm

/-- The two words hold the same in every cell but the Config cell, and in its lowest bit. -/
structure SameButX (w w' : Word) : Prop where
  cond : condOf w' = condOf w
  group : groupField w' = groupField w
  opcode : opcodeField w' = opcodeField w
  nibble16 : nibble w' 16 = nibble w 16
  bit12 : bitAt w' 12 = bitAt w 12
  nibble8 : nibble w' 8 = nibble w 8
  nibble4 : nibble w' 4 = nibble w 4
  nibble0 : nibble w' 0 = nibble w 0

theorem SameButX.of_and (h : w &&& 0xFFFF1FFF#32 = w' &&& 0xFFFF1FFF#32) : SameButX w w' where
  cond := congrArg Cond.ofBits (extract_congr h rfl)
  group := extract_congr h rfl
  opcode := extract_congr h rfl
  nibble16 := extract_congr h rfl
  bit12 := bitAt_congr h rfl
  nibble8 := extract_congr h rfl
  nibble4 := extract_congr h rfl
  nibble0 := extract_congr h rfl

/-- In the arithmetic group fewer bits are don't-care (R67). -/
theorem SameButX.of_and_arithmetic (h : w &&& 0xFFFF7FFF#32 = w' &&& 0xFFFF7FFF#32) : SameButX w w' := by
  refine .of_and ?_
  rw [show 0xFFFF1FFF#32 = 0xFFFF7FFF#32 &&& 0xFFFF1FFF#32 from rfl, ← BitVec.and_assoc, h, BitVec.and_assoc]

end

/-- The decoder's answers on two words are alike: rejected for the same reason, or two instructions that `R` relates. -/
def DecodeAlike (R : Instr → Instr → Prop) (a b : Except Reject Instr) : Prop :=
  (∀ r, a = .error r → b = .error r) ∧ ∀ i, a = .ok i → ∃ j, b = .ok j ∧ R i j

section
variable {R : Instr → Instr → Prop} {i j : Instr}

theorem DecodeAlike.of_error (r : Reject) : DecodeAlike R (.error r) (.error r) := by
  simp [DecodeAlike]

theorem DecodeAlike.of_legal (sbzClear configClear : Bool) (h : R i j) :
    DecodeAlike R (legal sbzClear configClear i) (legal sbzClear configClear j) := by
  cases sbzClear <;> cases configClear <;> simp [DecodeAlike, legal, h]

end

end Sys2Proof

namespace Sys2Proof.Machine

/-! ### The word an exception records (R210) -/

/-- The effect of an instruction, with another instruction word recorded by its exception if it raises one. -/
def recordStop (w : Word) : Except Stop State → Except Stop State
  | .ok t => .ok t
  | .error (.raise e) => .error (.raise (e.withWord w))
  | .error (.refuse r) => .error (.refuse r)

theorem recordWord_perform (w : Word) (s : State) (c : Cond) (b : Except Stop State) :
    recordWord w (s.perform c b) = s.perform c (recordStop w b) := by
  cases h : s.condHolds c
  · rw [State.perform_of_not h, State.perform_of_not h]
    rfl
  · rw [State.perform_of_holds h, State.perform_of_holds h]
    rcases b with (e | r) | t <;> rfl

theorem recordStop_additive (w w' : Word) (o f : Bool) (a b : Word) (cin : Bool) (d : Option Reg) (s : State) :
    recordStop w' (additive w o f a b cin d s) = additive w' o f a b cin d s := by
  simp only [additive]
  split <;> rfl

theorem recordStop_checkDivisor (w w' b : Word) (g : Unit → State) :
    recordStop w' ((checkDivisor w b).map g) = (checkDivisor w' b).map g := by
  unfold checkDivisor
  split <;> rfl

theorem recordStop_lmul (w : Word) (h d : Reg) (t : State) :
    recordStop w (if h = d then .error (.refuse .lmulSameDest) else .ok t) =
      if h = d then .error (.refuse .lmulSameDest) else .ok t := by
  split <;> rfl

/-- Nothing changes when the exceptions raised record an address. -/
theorem recordStop_of_withWord {w : Word} {b : Except Stop State} (h : ∀ e, b = .error (.raise e) → e.withWord w = e) :
    recordStop w b = b := by
  rcases b with (e | r) | t
  · rw [recordStop, h e rfl]
  · rfl
  · rfl

theorem withWord_of_checkTarget {w t : Word} {e : Exception} (h : checkTarget t = .error (.raise e)) : e.withWord w = e := by
  obtain ⟨-, he⟩ := (checkTarget_error t _).mp h
  cases he
  rfl

theorem withWord_of_checkAccess {w a : Word} {s : State} {k : AccessKind} {n : Size} {e : Exception}
    (h : s.checkAccess k a n = .error (.raise e)) : e.withWord w = e := by
  obtain ⟨-, he⟩ | ⟨-, -, he⟩ := (s.checkAccess_error k a n _).mp h
  · cases he
    rfl
  · cases he
    rfl

theorem recordStop_rbra (w t : Word) (s : State) :
    recordStop w ((checkTarget t).map fun _ => s.setPc t) = (checkTarget t).map fun _ => s.setPc t :=
  recordStop_of_withWord fun _ he => withWord_of_checkTarget ((except_map_error _ _ _).mp he)

theorem recordStop_rcall (w t : Word) (s : State) :
    recordStop w ((checkTarget t).bind fun _ => callTo t s) = (checkTarget t).bind fun _ => callTo t s := by
  refine recordStop_of_withWord fun _ he => ?_
  obtain ht | ⟨-, -, hc⟩ := (except_bind_error _ _ _).mp he
  · exact withWord_of_checkTarget ht
  · exact withWord_of_checkAccess ((s.push_error _ _).mp ((callTo_error t s _).mp hc))

/-! ### The three groups with don't-care bits -/

/-- In every state `j` does what `i` does, but that its exception records the word `w` (R67). -/
def AlikeButWord (w : Word) (i j : Instr) : Prop := ∀ s, exec j s = recordWord w (exec i s)

section
variable {w w' : Word}

theorem decodeLogical_alike (h : SameButX w w') : DecodeAlike (AlikeButWord w') (decodeLogical w) (decodeLogical w') := by
  simp only [decodeLogical, src1Field, src2Field, destField, regField, h.cond, h.opcode, h.nibble16, h.bit12, h.nibble8, h.nibble4,
    h.nibble0]
  generalize (opcodeField w).toNat = p
  match p with
  | 0 | 1 | 2 | 3 | 4 | 5 | 6 | 7 | 8 | 9 => exact .of_legal _ _ fun s => (recordWord_perform w' s _ (.ok _)).symm
  | p + 10 => exact .of_error _

theorem decodeControl_alike (h : SameButX w w') (hp : (opcodeField w).toNat ≤ 1) :
    DecodeAlike (AlikeButWord w') (decodeControl w) (decodeControl w') := by
  simp only [decodeControl, cfOffset, src1Field, src2Field, regField, h.cond, h.opcode, h.nibble16, h.bit12, h.nibble8, h.nibble4,
    h.nibble0]
  obtain hp0 | hp1 : (opcodeField w).toNat = 0 ∨ (opcodeField w).toNat = 1 := by omega
  · simp only [hp0, if_true]
    exact .of_legal _ _ fun s => by simp only [exec, execRbra, recordWord_perform, recordStop_rbra]
  · simp only [hp1, one_ne_zero, if_false, if_true]
    exact .of_legal _ _ fun s => by simp only [exec, execRcall, recordWord_perform, recordStop_rcall]

theorem decodeArithmetic_alike (h : SameButX w w') (h14 : bitAt w' 14 = bitAt w 14) (h13 : bitAt w' 13 = bitAt w 13) :
    DecodeAlike (fun i j => AlikeButWord (encode j) i j) (decodeArithmetic w) (decodeArithmetic w') := by
  simp only [decodeArithmetic, des2Field, src1Field, src2Field, destField, regField, h.cond, h.opcode, h.nibble16, h14, h13, h.bit12,
    h.nibble8, h.nibble4, h.nibble0]
  generalize (opcodeField w).toNat = p
  match p with
  | 0 | 1 | 2 | 3 | 4 | 5 =>
    exact .of_legal _ _ fun s => by
      simp only [exec, execAdd, execSub, execAddc, execSubc, execNeg, execComp, recordWord_perform, recordStop_additive]
  | 6 => exact .of_legal _ _ fun s => (recordWord_perform _ s _ (.ok _)).symm
  | 7 | 8 => exact .of_legal _ _ fun s => by simp only [exec, execDiv, execRem, recordWord_perform, recordStop_checkDivisor]
  | 9 => exact .of_legal _ _ fun s => by simp only [exec, execLmul, recordWord_perform, recordStop_lmul]
  | p + 10 => exact .of_error _

end

/-! ### The obligation -/

/-- Settles O5: the decoder reads the two words alike, and an arithmetic instruction records the word it was read from. -/
theorem dontCareBitsChangeNothing : Obligations.DontCareBitsChangeNothing := by
  rintro w w' (⟨hg | ⟨hg, hp⟩, hw⟩ | ⟨hg, hw⟩)
  · have h := SameButX.of_and hw
    rw [decodeWord_logical hg, decodeWord_logical (h.group ▸ hg)]
    exact decodeLogical_alike h
  · have h := SameButX.of_and hw
    rw [decodeWord_control hg, decodeWord_control (h.group ▸ hg)]
    exact decodeControl_alike h hp
  · have h := SameButX.of_and_arithmetic hw
    have hg' : (groupField w').toNat = 1 := h.group ▸ hg
    rw [decodeWord_arithmetic hg, decodeWord_arithmetic hg']
    obtain ⟨herror, hok⟩ := decodeArithmetic_alike h (bitAt_congr hw rfl) (bitAt_congr hw rfl)
    refine ⟨herror, fun i hi => ?_⟩
    obtain ⟨j, hj, halike⟩ := hok i hi
    rw [encode_of_decodeArithmetic (BitVec.eq_of_toNat_eq hg') hj] at halike
    exact ⟨j, hj, halike⟩

end Sys2Proof.Machine
end

section
/-!
SUPPORT. The logical group (40_logical.md R80 to R90): what an instruction that writes one 32-bit result leaves behind, and the counts of
`cntlz`, `cntlo` and `popcnt` read off the bits of their operand.
-/

namespace Sys2Proof.Machine

/-! ### One result, with Z and N (R80) -/

section
variable (f : Bool) (d : Reg) (r : Word) (s : State)

@[simp] theorem reg_logicalResult_self : (logicalResult f d r s).reg d = r := by
  simp [logicalResult]

@[simp] theorem logicalResult_pc : (logicalResult f d r s).pc = s.pc + 4#32 := by
  simp [logicalResult]

theorem logicalResult_flags :
    (logicalResult f d r s).flags = flagsZN f s.flags (decide (r = 0#32)) (r.getLsbD 31) := by
  cases f with
  | false => rfl
  | true => rw [← BitVec.msb_eq_getLsbD_last r]; rfl

theorem frame_logicalResult : Frame [d] s (logicalResult f d r s) := by
  refine ⟨fun r' hr' => ?_, ?_⟩
  · have hne : r' ≠ d := by simpa using hr'
    simp [logicalResult, State.reg_setReg_ne s r hne]
  · simp [logicalResult]

theorem memKept_logicalResult : MemKept s (logicalResult f d r s) := by
  simp [MemKept, logicalResult]

end

/-- What an instruction with one result leaves: the result in `d`, the flags `fl`, the next pc, and all else as before. -/
def ResultWritten (s t : State) (d : Reg) (r : Word) (fl : Flags) : Prop :=
  t.reg d = r ∧ Frame [d] s t ∧ MemKept s t ∧ t.pc = s.pc + 4#32 ∧ t.flags = fl

/-- Every instruction of the group, when its condition holds. -/
theorem exec_logicalResult {i : Instr} {c : Cond} {f : Bool} {d : Reg} {r : Word} {s : State} (hc : s.condHolds c = true)
    (hi : exec i s = s.perform c (.ok (logicalResult f d r s))) :
    ∃ t, exec i s = .next t ∧ ResultWritten s t d r (flagsZN f s.flags (decide (r = 0#32)) (r.getLsbD 31)) :=
  ⟨logicalResult f d r s, hi.trans (State.perform_of_holds hc _), reg_logicalResult_self f d r s, frame_logicalResult f d r s,
    memKept_logicalResult f d r s, logicalResult_pc f d r s, logicalResult_flags f d r s⟩

/-- Settles O25: each of the seven writes its result through the group's one effect. -/
theorem logicalResults : Obligations.LogicalResults := by
  intro s c x f a b d i r hmem hc
  simp only [List.mem_cons, Prod.mk.injEq, List.not_mem_nil, or_false] at hmem
  rcases hmem with ⟨rfl, rfl⟩ | ⟨rfl, rfl⟩ | ⟨rfl, rfl⟩ | ⟨rfl, rfl⟩ | ⟨rfl, rfl⟩ | ⟨rfl, rfl⟩ | ⟨rfl, rfl⟩
  all_goals exact exec_logicalResult hc rfl

/-! ### The counts (R88 to R90) -/

theorem leadingRun_succ_of_eq {b : Bool} {v : Word} {n : Nat} (h : v.getLsbD n = b) :
    leadingRun b v (n + 1) = leadingRun b v n + 1 := by
  simp [leadingRun, h]

theorem leadingRun_succ_of_ne {b : Bool} {v : Word} {n : Nat} (h : v.getLsbD n ≠ b) : leadingRun b v (n + 1) = 0 := by
  simp [leadingRun, h]

theorem leadingRun_le (b : Bool) (v : Word) (n : Nat) : leadingRun b v n ≤ n := by
  induction n with
  | zero => exact Nat.le_refl 0
  | succ n ih =>
    by_cases h : v.getLsbD n = b
    · rw [leadingRun_succ_of_eq h]
      exact Nat.succ_le_succ ih
    · rw [leadingRun_succ_of_ne h]
      exact Nat.zero_le _

/-- Every bit of the run has the value counted. -/
theorem getLsbD_of_lt_leadingRun {b : Bool} {v : Word} {n k : Nat} (hk : k < leadingRun b v n) : v.getLsbD (n - 1 - k) = b := by
  induction n generalizing k with
  | zero => cases hk
  | succ n ih =>
    by_cases h : v.getLsbD n = b
    · rw [leadingRun_succ_of_eq h] at hk
      cases k with
      | zero => exact h
      | succ k =>
        rw [show n + 1 - 1 - (k + 1) = n - 1 - k by omega]
        exact ih (Nat.lt_of_succ_lt_succ hk)
    · rw [leadingRun_succ_of_ne h] at hk
      cases hk

/-- A run that ends before the last bit ends at a bit of the other value. -/
theorem getLsbD_leadingRun {b : Bool} {v : Word} {n : Nat} (hn : leadingRun b v n < n) :
    v.getLsbD (n - 1 - leadingRun b v n) = !b := by
  induction n with
  | zero => cases hn
  | succ n ih =>
    by_cases h : v.getLsbD n = b
    · rw [leadingRun_succ_of_eq h] at hn ⊢
      rw [show n + 1 - 1 - (leadingRun b v n + 1) = n - 1 - leadingRun b v n by omega]
      exact ih (Nat.lt_of_succ_lt_succ hn)
    · rw [leadingRun_succ_of_ne h]
      exact Bool.eq_not.mpr h

theorem onesBelow_eq_length (v : Word) (n : Nat) : onesBelow v n = ((List.range n).filter fun k => v.getLsbD k).length := by
  induction n with
  | zero => rfl
  | succ n ih =>
    rw [onesBelow, ih, List.range_succ, List.filter_append, List.length_append]
    cases h : v.getLsbD n <;> simp [h]

theorem onesBelow_le (v : Word) (n : Nat) : onesBelow v n ≤ n := by
  rw [onesBelow_eq_length]
  exact (List.length_filter_le _ _).trans_eq List.length_range

theorem onesBelow_eq_zero_iff (v : Word) : onesBelow v 32 = 0 ↔ v = 0#32 := by
  rw [onesBelow_eq_length, List.length_eq_zero_iff, List.filter_eq_nil_iff]
  constructor
  · intro h
    refine BitVec.eq_of_getLsbD_eq fun k hk => ?_
    simpa using h k (List.mem_range.mpr hk)
  · rintro rfl k -
    simp

/-- A count from 0 to 32 is written as it is: as a word it is 0 only when it is 0, and its bit 31 is 0. -/
theorem exec_countResult {i : Instr} {c : Cond} {f : Bool} {d : Reg} {n : Nat} {s : State} (hn : n ≤ 32) (hc : s.condHolds c = true)
    (hi : exec i s = s.perform c (.ok (logicalResult f d (BitVec.ofNat 32 n) s))) :
    ∃ t, exec i s = .next t ∧ ResultWritten s t d (BitVec.ofNat 32 n) (flagsZN f s.flags (decide (n = 0)) false) := by
  have hz : BitVec.ofNat 32 n = 0#32 ↔ n = 0 := by
    rw [← BitVec.toNat_inj, BitVec.toNat_ofNat, BitVec.toNat_ofNat]
    omega
  have h31 : (BitVec.ofNat 32 n).getLsbD 31 = false := by
    rw [BitVec.getLsbD_ofNat, Nat.testBit_lt_two_pow (by omega), Bool.and_false]
  simpa only [hz, h31] using exec_logicalResult hc hi

/-- `cntlz` and `cntlo`: the run of leading bits of the value counted. -/
theorem exec_leadingRun {i : Instr} {c : Cond} {f bit : Bool} {a d : Reg} {s : State} (hc : s.condHolds c = true)
    (hi : exec i s = s.perform c (.ok (logicalResult f d (BitVec.ofNat 32 (leadingRun bit (s.reg a) 32)) s))) :
    ∃ t, ∃ n : Nat, exec i s = .next t ∧ n ≤ 32 ∧ (∀ k, k < n → (s.reg a).getLsbD (31 - k) = bit) ∧
      (n < 32 → (s.reg a).getLsbD (31 - n) = !bit) ∧
      ResultWritten s t d (BitVec.ofNat 32 n) (flagsZN f s.flags (decide (n = 0)) false) := by
  have hle := leadingRun_le bit (s.reg a) 32
  obtain ⟨t, ht, hresult⟩ := exec_countResult hle hc hi
  exact ⟨t, leadingRun bit (s.reg a) 32, ht, hle, fun _ => getLsbD_of_lt_leadingRun, getLsbD_leadingRun, hresult⟩

/-- Settles O26: the two leading counts are runs of bits, the third counts the bits that are 1. -/
theorem countResults : Obligations.CountResults := by
  intro s c x f a d hc
  constructor
  · intro i bit hmem
    simp only [List.mem_cons, Prod.mk.injEq, List.not_mem_nil, or_false] at hmem
    rcases hmem with ⟨rfl, rfl⟩ | ⟨rfl, rfl⟩
    · exact exec_leadingRun hc rfl
    · exact exec_leadingRun hc rfl
  · obtain ⟨t, ht, hresult⟩ := exec_countResult (i := .popcnt c x f a d) (onesBelow_le (s.reg a) 32) hc rfl
    simp only [onesBelow_eq_zero_iff] at hresult
    exact ⟨t, onesBelow (s.reg a) 32, ht, onesBelow_eq_length (s.reg a) 32, hresult⟩

end Sys2Proof.Machine
end

section
/-!
SUPPORT. The additive instructions and the compares (41_arithmetic.md R100 to R107, 46_immediate.md R188): `AddWithCarry` through the
exact signed result, what it leaves behind, the order that the flags of a compare show, and a sum of two words.
-/

namespace Sys2Proof.Machine

/-! ### The exact signed result (R100) -/

/-- The four flags of a sum whose exact signed result is `e` and whose carry is `cy`. -/
def exactFlags (e : Int) (cy : Bool) : Flags :=
  ⟨decide (BitVec.ofInt 32 e = 0#32), (BitVec.ofInt 32 e).msb, decide ((BitVec.ofInt 32 e).toInt ≠ e), cy⟩

/-- `AddWithCarry` answers the exact signed sum modulo 2^32, and its flags. -/
theorem addWithCarry_eq (a b : Word) (cin : Bool) : addWithCarry a b cin =
    (BitVec.ofInt 32 (a.toInt + b.toInt + cin.toNat),
      exactFlags (a.toInt + b.toInt + cin.toNat) (decide (2 ^ 32 ≤ a.toNat + b.toNat + cin.toNat))) := by
  have hr : BitVec.ofNat 32 (a.toNat + b.toNat + cin.toNat) = BitVec.ofInt 32 (a.toInt + b.toInt + cin.toNat) := by
    simp only [BitVec.ofInt_add, BitVec.ofInt_toInt, BitVec.ofInt_natCast, BitVec.ofNat_add, BitVec.ofNat_toNat, BitVec.setWidth_eq]
  simp only [addWithCarry, exactFlags, hr, beq_eq_decide, ne_comm]

theorem toInt_not_eq (b : Word) : (~~~b).toInt = -b.toInt - 1 := by
  rw [BitVec.toInt_eq_toNat_cond, BitVec.toInt_eq_toNat_cond, BitVec.toNat_not]
  omega

/-- With the second operand inverted, `AddWithCarry` subtracts; the carry out is the inverted borrow (R103, R105). -/
theorem addWithCarry_not (a b : Word) (cin : Bool) : addWithCarry a (~~~b) cin =
    (BitVec.ofInt 32 (a.toInt - b.toInt - (1 - cin.toNat)),
      exactFlags (a.toInt - b.toInt - (1 - cin.toNat)) (decide (b.toNat + (1 - cin.toNat) ≤ a.toNat))) := by
  have he : a.toInt + (~~~b).toInt + cin.toNat = a.toInt - b.toInt - (1 - cin.toNat) := by
    rw [toInt_not_eq]
    omega
  have hcy : 2 ^ 32 ≤ a.toNat + (~~~b).toNat + cin.toNat ↔ b.toNat + (1 - cin.toNat) ≤ a.toNat := by
    have hcin := cin.toNat_le
    rw [BitVec.toNat_not]
    omega
  simp only [addWithCarry_eq, he, hcy]

/-- A subtraction without borrow (R103). -/
theorem addWithCarry_not_true (a b : Word) : addWithCarry a (~~~b) true =
    (BitVec.ofInt 32 (a.toInt - b.toInt), exactFlags (a.toInt - b.toInt) (decide (b.toNat ≤ a.toNat))) := by
  simpa using addWithCarry_not a b true

theorem ofInt_toInt_sub (a b : Word) : BitVec.ofInt 32 (a.toInt - b.toInt) = a - b := by
  rw [Int.sub_eq_add_neg, BitVec.ofInt_add, BitVec.ofInt_neg, BitVec.ofInt_toInt, BitVec.ofInt_toInt, BitVec.sub_eq_add_neg]

/-- The flags of the difference, which `comp` and `compimm` write (R107, R188). -/
theorem exactFlags_sub (a b : Word) (cy : Bool) : exactFlags (a.toInt - b.toInt) cy =
    ⟨decide (a = b), (a - b).msb, decide ((a - b).toInt ≠ a.toInt - b.toInt), cy⟩ := by
  have hz : a - b = 0#32 ↔ a = b := by rw [BitVec.sub_eq_iff_eq_add, BitVec.zero_add]
  simp only [exactFlags, ofInt_toInt_sub, hz]

/-- A signed result is kept by the 32 bits exactly when it lies in their range. -/
theorem toInt_ofInt_ne_iff (e : Int) : (BitVec.ofInt 32 e).toInt ≠ e ↔ e < -2 ^ 31 ∨ 2 ^ 31 ≤ e := by
  have hle := BitVec.le_two_mul_toInt (x := BitVec.ofInt 32 e)
  have hlt := BitVec.two_mul_toInt_lt (x := BitVec.ofInt 32 e)
  constructor
  · intro hne
    by_contra hrange
    exact hne (BitVec.toInt_ofInt_eq_self (by decide) (by omega) (by omega))
  · intro hrange heq
    omega

/-- Settles O27: V is read off the exact signed sum or difference. -/
theorem addWithCarryIsExact : Obligations.AddWithCarryIsExact := by
  intro a b cin
  refine ⟨BitVec.toNat_ofNat _ _, decide_eq_true_iff, ?_, ?_, ?_, ?_, ?_⟩
  · simp only [addWithCarry_eq, exactFlags, decide_eq_true_iff, toInt_ofInt_ne_iff]
  · rw [addWithCarry_not_true, ofInt_toInt_sub]
  · simp only [addWithCarry_not_true, exactFlags, decide_eq_true_iff]
  · simp only [addWithCarry_not_true, exactFlags, decide_eq_true_iff, toInt_ofInt_ne_iff]
  · simp only [addWithCarry_not_true, exactFlags_sub, decide_eq_true_iff]


/-! ### Additive instructions and compares (R101 to R107, R188) -/

/-- What a completed additive instruction leaves: the result `r` in its destination, if it has one, the flags `fl`, the next pc, and all
else as before. -/
def SumWritten (s t : State) (d : Option Reg) (r : Word) (fl : Flags) : Prop :=
  (∀ q ∈ d, t.reg q = r) ∧ Frame d.toList s t ∧ MemKept s t ∧ t.pc = s.pc + 4#32 ∧ t.flags = fl

theorem frame_writeDest (d : Option Reg) (r : Word) (s : State) : Frame d.toList s (writeDest d r s) := by
  refine ⟨fun q hq => ?_, writeDest_mode d r s, writeDest_run d r s, writeDest_unmapped d r s, writeDest_irqPolls d r s⟩
  cases d with
  | none => rfl
  | some d => exact State.reg_setReg_ne s r (by simpa using hq)

theorem sumWritten_writeDest (d : Option Reg) (r : Word) (f : Bool) (fl : Flags) (s : State) :
    SumWritten s ((writeDest d r s).setFlagsIf f fl).advance d r (if f then fl else s.flags) := by
  obtain ⟨hreg, hmode, hrun, hun, hirq⟩ := frame_writeDest d r s
  refine ⟨?_, ⟨fun q hq => ?_, ?_, ?_, ?_, ?_⟩, fun k => ?_, ?_, ?_⟩
  · rintro q ⟨⟩
    simp
  · simpa using hreg q hq
  all_goals simp

/-- An additive instruction with the exact signed result `e` completes, unless O=1 and `e` does not fit (R101, R212). -/
theorem exec_additive {i : Instr} {c : Cond} {o f cin cy : Bool} {a b : Word} {d : Option Reg} {s : State} {e : Int}
    (hc : s.condHolds c = true) (hi : exec i s = s.perform c (additive (encode i) o f a b cin d s))
    (hsum : addWithCarry a b cin = (BitVec.ofInt 32 e, exactFlags e cy)) :
    (o = false ∨ (BitVec.ofInt 32 e).toInt = e →
      ∃ t, exec i s = .next t ∧ SumWritten s t d (BitVec.ofInt 32 e) (if f then exactFlags e cy else s.flags)) ∧
    (o = true → (BitVec.ofInt 32 e).toInt ≠ e → exec i s = .fault (.trapped (.overflow (encode i)) s)) := by
  have hv : (addWithCarry a b cin).2.v = decide ((BitVec.ofInt 32 e).toInt ≠ e) := by rw [hsum]; rfl
  rw [hi, State.perform_of_holds hc]
  constructor
  · intro hfits
    have hno : (o && (addWithCarry a b cin).2.v) = false := by
      rw [hv, Bool.and_eq_false_iff, decide_eq_false_iff_not, not_not]
      exact hfits
    refine ⟨_, congrArg s.finish ((additive_ok _ o f a b cin d s _).mpr ⟨hno, rfl⟩), ?_⟩
    rw [hsum]
    exact sumWritten_writeDest d _ f _ s
  · intro ho he
    have hyes : (o && (addWithCarry a b cin).2.v) = true := by
      rw [hv, ho, Bool.true_and]
      exact decide_eq_true he
    exact congrArg s.finish ((additive_error _ o f a b cin d s _).mpr ⟨hyes, rfl⟩)

/-- Settles O28: each of the five is one `AddWithCarry`, whose exact signed result is its `e`. -/
theorem additiveResults : Obligations.AdditiveResults := by
  intro s c x o f a b d i e cy hmem hc
  suffices h : ∃ p q cin, exec i s = s.perform c (additive (encode i) o f p q cin (some d) s) ∧
      addWithCarry p q cin = (BitVec.ofInt 32 e, exactFlags e cy) by
    obtain ⟨p, q, cin, hi, hsum⟩ := h
    obtain ⟨hok, htrap⟩ := exec_additive hc hi hsum
    refine ⟨fun hfits => ?_, htrap⟩
    obtain ⟨t, ht, hreg, hrest⟩ := hok hfits
    exact ⟨t, ht, hreg d rfl, hrest⟩
  simp only [List.mem_cons, Prod.mk.injEq, List.not_mem_nil, or_false] at hmem
  rcases hmem with ⟨rfl, rfl, rfl⟩ | ⟨rfl, rfl, rfl⟩ | ⟨rfl, rfl, rfl⟩ | ⟨rfl, rfl, rfl⟩ | ⟨rfl, rfl, rfl⟩
  · exact ⟨_, _, _, rfl, by simpa using addWithCarry_eq (s.reg a) (s.reg b) false⟩
  · exact ⟨_, _, _, rfl, addWithCarry_not_true _ _⟩
  · exact ⟨_, _, _, rfl, addWithCarry_eq _ _ _⟩
  · exact ⟨_, _, _, rfl, addWithCarry_not _ _ _⟩
  · have hz : (s.reg a).toNat ≤ 0 ↔ s.reg a = 0#32 := by rw [Nat.le_zero, ← BitVec.toNat_inj]; rfl
    exact ⟨_, _, _, rfl, by simpa [hz] using addWithCarry_not_true 0#32 (s.reg a)⟩

/-- The flags that a compare of `p` with `q` leaves (R107). -/
def compareFlags (p q : Word) : Flags :=
  ⟨decide (p = q), (p - q).msb, decide ((p - q).toInt ≠ p.toInt - q.toInt), decide (q.toNat ≤ p.toNat)⟩

/-- A compare writes the flags of the difference, always, and no register, unless O=1 and the difference does not fit. -/
theorem exec_compare {i : Instr} {c : Cond} {o : Bool} {p q : Word} {s : State} (hc : s.condHolds c = true)
    (hi : exec i s = s.perform c (additive (encode i) o true p (~~~q) true none s)) :
    (o = false ∨ (p - q).toInt = p.toInt - q.toInt →
      ∃ t, exec i s = .next t ∧ Frame [] s t ∧ MemKept s t ∧ t.pc = s.pc + 4#32 ∧ t.flags = compareFlags p q) ∧
    (o = true → (p - q).toInt ≠ p.toInt - q.toInt → exec i s = .fault (.trapped (.overflow (encode i)) s)) := by
  obtain ⟨hok, htrap⟩ := exec_additive hc hi (addWithCarry_not_true p q)
  simp only [ofInt_toInt_sub, exactFlags_sub] at hok htrap
  refine ⟨fun hfits => ?_, htrap⟩
  obtain ⟨t, ht, -, hwritten⟩ := hok hfits
  exact ⟨t, ht, hwritten⟩

/-- Settles O30: `comp` is a subtraction without a destination, and `compimm` one that never traps. -/
theorem compareResults : Obligations.CompareResults := by
  intro s c x o a b n i p q trap hmem hc
  simp only [List.mem_cons, Prod.mk.injEq, List.not_mem_nil, or_false] at hmem
  rcases hmem with ⟨rfl, rfl, rfl, rfl⟩ | ⟨rfl, rfl, rfl, rfl⟩
  · exact exec_compare hc rfl
  · exact exec_compare hc rfl

/-- N and V agree after a compare exactly when the first operand is not the smaller one, signed (R62). -/
theorem compareFlags_n_eq_v_iff (p q : Word) : (compareFlags p q).n = (compareFlags p q).v ↔ q.toInt ≤ p.toInt := by
  have hp := BitVec.le_toInt p
  have hp' := BitVec.toInt_lt (x := p)
  have hq := BitVec.le_toInt q
  have hq' := BitVec.toInt_lt (x := q)
  have hneg := Int.bmod_neg_iff (m := 2 ^ 32) (x := p.toInt - q.toInt) (by omega) (by omega)
  rw [← BitVec.toInt_sub] at hneg
  have hv := toInt_ofInt_ne_iff (p.toInt - q.toInt)
  rw [ofInt_toInt_sub] at hv
  rw [compareFlags, BitVec.msb_eq_toInt, decide_eq_decide, hneg, hv]
  omega

/-- Settles O31: C compares the operands unsigned, N and V together signed, and Z tells whether they are equal. -/
theorem compareConditionsMeanOrder : Obligations.CompareConditionsMeanOrder := by
  intro s c x a b n i p q hmem hc
  have hi : exec i s = s.perform c (additive (encode i) false true p (~~~q) true none s) := by
    simp only [List.mem_cons, Prod.mk.injEq, List.not_mem_nil, or_false] at hmem
    rcases hmem with ⟨rfl, rfl, rfl⟩ | ⟨rfl, rfl, rfl⟩
    · rfl
    · rfl
  obtain ⟨hok, -⟩ := exec_compare hc hi
  obtain ⟨t, ht, -, -, -, hflags⟩ := hok (.inl rfl)
  have hz : (compareFlags p q).z = true ↔ p = q := decide_eq_true_iff
  have hcarry : (compareFlags p q).c = true ↔ q.toNat ≤ p.toNat := decide_eq_true_iff
  have hsign := compareFlags_n_eq_v_iff p q
  have hnat : p = q ↔ p.toNat = q.toNat := BitVec.toNat_inj.symm
  have hint : p = q ↔ p.toInt = q.toInt := BitVec.toInt_inj.symm
  refine ⟨t, ht, ?_⟩
  simp only [State.condHolds, hflags, Flags.condHolds, Bool.not_eq_true', ← Bool.not_eq_true, Bool.and_eq_true, Bool.or_eq_true,
    beq_iff_eq, bne_iff_ne, ne_eq, hz, hcarry, hsign]
  refine ⟨trivial, trivial, trivial, Nat.not_le, ?hi, ?ls, trivial, Int.not_le, ?gt, ?le⟩
  case hi => rw [hnat]; omega
  case ls => rw [hnat]; omega
  case gt => rw [hint]; omega
  case le => rw [hint]; omega

/-! ### A sum of two words (R104) -/

theorem toNat_append_words (hi lo : Word) : (hi ++ lo : BitVec 64).toNat = hi.toNat * 2 ^ 32 + lo.toNat := by
  rw [BitVec.toNat_append, ← Nat.shiftLeft_add_eq_or_of_lt lo.isLt, Nat.shiftLeft_eq]

/-- Two words added with the carry of the lower sum into the upper one are the sum of the 64-bit numbers. -/
theorem append_addWithCarry (hi lo hi' lo' : Word) :
    (addWithCarry hi hi' (addWithCarry lo lo' false).2.c).1 ++ (addWithCarry lo lo' false).1 =
      (hi ++ lo : BitVec 64) + (hi' ++ lo') := by
  have hc : (addWithCarry lo lo' false).2.c.toNat = (lo.toNat + lo'.toNat) / 2 ^ 32 := by
    have hlo := lo.isLt
    have hlo' := lo'.isLt
    show (decide (2 ^ 32 ≤ lo.toNat + lo'.toNat + 0)).toNat = _
    by_cases h : 2 ^ 32 ≤ lo.toNat + lo'.toNat
    · simp only [Nat.add_zero, h, decide_true, Bool.toNat_true]
      omega
    · simp only [Nat.add_zero, h, decide_false, Bool.toNat_false]
      omega
  apply BitVec.eq_of_toNat_eq
  obtain ⟨hlow, -⟩ := addWithCarryIsExact lo lo' false
  obtain ⟨hhigh, -⟩ := addWithCarryIsExact hi hi' (addWithCarry lo lo' false).2.c
  rw [BitVec.toNat_add, toNat_append_words, toNat_append_words, toNat_append_words, hlow, hhigh, hc, Bool.toNat_false]
  omega

/-- With O=0 an additive instruction completes, with the result and the flags of its `AddWithCarry`. -/
theorem exec_additive_wraps {i : Instr} {c : Cond} {f cin : Bool} {a b : Word} {d : Option Reg} {s : State}
    (hc : s.condHolds c = true) (hi : exec i s = s.perform c (additive (encode i) false f a b cin d s)) :
    ∃ t, exec i s = .next t ∧
      SumWritten s t d (addWithCarry a b cin).1 (if f then (addWithCarry a b cin).2 else s.flags) := by
  obtain ⟨hok, -⟩ := exec_additive hc hi (addWithCarry_eq a b cin)
  simpa only [addWithCarry_eq] using hok (.inl rfl)

/-- Settles O32: the `add` changes neither upper word, and the `addc` does not change the lower sum. -/
theorem twoWordAddition : Obligations.TwoWordAddition := by
  intro s x y z lo1 hi1 lo2 hi2 hne1 hne2
  have hal (v : State) : v.condHolds .al = true := rfl
  obtain ⟨t, ht, htlo, ⟨htreg, -⟩, -, -, htflags⟩ := exec_additive_wraps (i := .add .al x false true lo1 lo2 lo1) (hal s) rfl
  obtain ⟨u, hu, huhi, ⟨hureg, -⟩, -⟩ := exec_additive_wraps (i := .addc .al y false z hi1 hi2 hi1) (hal t) rfl
  refine ⟨t, u, ht, hu, ?_⟩
  rw [huhi hi1 rfl, hureg lo1 (by simpa using hne1), htlo lo1 rfl, htreg hi1 (by simpa using hne1.symm),
    htreg hi2 (by simpa using hne2.symm), htflags, if_pos rfl, append_addWithCarry]

end Sys2Proof.Machine
end

section
/-!
SUPPORT. The products, quotients and remainders of the arithmetic group (41_arithmetic.md R108 to R111): their values through the natural
numbers and the integers, and what their instructions leave.
-/

namespace Sys2Proof.Machine

/-! ### Products, quotients and remainders (R108 to R110) -/

/-- `mult`, `div` and `rem` leave what a logical instruction with their result leaves (R80, R108). -/
theorem productResult_eq_logicalResult : productResult = logicalResult := rfl

/-- The effect of `div` and `rem` when the divisor is not 0. -/
theorem exec_checkDivisor {i : Instr} {c : Cond} {f : Bool} {w b r : Word} {d : Reg} {s : State} (hc : s.condHolds c = true)
    (hi : exec i s = s.perform c ((checkDivisor w b).map fun _ => productResult f d r s)) :
    (b ≠ 0#32 → ∃ t, exec i s = .next t ∧ ResultWritten s t d r (flagsZN f s.flags (decide (r = 0#32)) (r.getLsbD 31))) ∧
    (b = 0#32 → exec i s = .fault (.trapped (.divideByZero w) s)) := by
  constructor
  · intro hb
    rw [(checkDivisor_ok w b).mpr hb, productResult_eq_logicalResult] at hi
    exact exec_logicalResult hc hi
  · intro hb
    rw [hi, State.perform_of_holds hc, (checkDivisor_error w b _).mpr ⟨hb, rfl⟩]
    rfl

theorem toNat_multValue (a b : Word) : (multValue a b).toNat = a.toNat * b.toNat % 2 ^ 32 := BitVec.toNat_ofNat _ _

/-- The low 32 bits of a product do not depend on the sign (R108). -/
theorem multValue_eq_ofInt (a b : Word) : multValue a b = BitVec.ofInt 32 (a.toInt * b.toInt) := by
  rw [multValue, BitVec.ofInt_mul, BitVec.ofInt_toInt, BitVec.ofInt_toInt, BitVec.ofNat_mul]
  simp only [BitVec.ofNat_toNat, BitVec.setWidth_eq]

/-- Settles O33: the result is the low half of the product, read as it is or as signed. -/
theorem multResult : Obligations.MultResult := by
  intro s c x f a b d hc
  obtain ⟨t, ht, hreg, hrest⟩ := exec_logicalResult (i := .mult c x f a b d) (r := multValue (s.reg a) (s.reg b)) hc rfl
  refine ⟨t, ht, ?_⟩
  rw [hreg]
  exact ⟨toNat_multValue _ _, multValue_eq_ofInt _ _, hrest⟩

theorem toNat_divValue (a b : Word) : (divValue a b).toNat = a.toNat / b.toNat := by
  rw [divValue, BitVec.toNat_ofNat, Nat.mod_eq_of_lt ((Nat.div_le_self _ _).trans_lt a.isLt)]

theorem toNat_remValue (a b : Word) : (remValue a b).toNat = a.toNat % b.toNat := by
  rw [remValue, BitVec.toNat_ofNat, Nat.mod_eq_of_lt ((Nat.mod_le _ _).trans_lt a.isLt)]

/-- Settles O34: the two share the check of the divisor, and their results obey the Euclidean law. -/
theorem divRemResults : Obligations.DivRemResults := by
  intro s c x f a b d hc
  obtain ⟨hdiv, hdivTrap⟩ := exec_checkDivisor (i := .div c x f a b d) (s := s) hc rfl
  obtain ⟨hrem, hremTrap⟩ := exec_checkDivisor (i := .rem c x f a b d) (s := s) hc rfl
  refine ⟨fun hb => ?_, fun hb => ⟨hdivTrap hb, hremTrap hb⟩⟩
  obtain ⟨t, ht, htreg, htframe, htmem, htpc, htflags⟩ := hdiv hb
  obtain ⟨u, hu, hureg, hurest⟩ := hrem hb
  have hpos : 0 < (s.reg b).toNat := Nat.pos_of_ne_zero fun h => hb (BitVec.eq_of_toNat_eq h)
  refine ⟨t, u, ht, hu, ?_⟩
  rw [htreg, hureg, toNat_divValue, toNat_remValue]
  exact ⟨(Nat.div_add_mod' _ _).symm, Nat.mod_lt _ hpos, htframe, htmem, htpc, htflags, hurest⟩

/-! ### The 64-bit product (R111) -/

/-- A 64-bit number is its two halves. -/
theorem append_halves (p : BitVec 64) : p.extractLsb' 32 32 ++ p.extractLsb' 0 32 = p := by
  rw [BitVec.extractLsb'_append_extractLsb'_eq_extractLsb' (start₂ := 32) (start₁ := 0) (len₁ := 32) rfl]
  exact BitVec.extractLsb'_eq_self

theorem toNat_halves (p : BitVec 64) : (p.extractLsb' 32 32).toNat * 2 ^ 32 + (p.extractLsb' 0 32).toNat = p.toNat := by
  rw [← toNat_append_words, append_halves]

theorem toInt_halves (p : BitVec 64) : (p.extractLsb' 32 32).toInt * 2 ^ 32 + (p.extractLsb' 0 32).toNat = p.toInt := by
  have h := congrArg BitVec.toInt (append_halves p)
  rw [BitVec.toInt_append, if_neg (by decide)] at h
  rw [← h, mul_comm]

theorem eq_zero_iff_halves (p : BitVec 64) : p = 0#64 ↔ p.extractLsb' 32 32 = 0#32 ∧ p.extractLsb' 0 32 = 0#32 := by
  have h := toNat_halves p
  simp only [← BitVec.toNat_inj, BitVec.toNat_ofNat, Nat.zero_mod]
  omega

theorem msb_eq_getLsbD_high (p : BitVec 64) : p.msb = (p.extractLsb' 32 32).getLsbD 31 := by
  rw [BitVec.msb_eq_getLsbD_last, BitVec.getLsbD_extractLsb']
  rfl

/-- The exact unsigned product fits in 64 bits. -/
theorem toNat_longProduct_unsigned (a b : Word) : (longProduct false a b).toNat = a.toNat * b.toNat := by
  have hlt : a.toNat * b.toNat < 2 ^ 32 * 2 ^ 32 := Nat.mul_lt_mul'' a.isLt b.isLt
  exact (BitVec.toNat_ofNat _ _).trans (Nat.mod_eq_of_lt hlt)

/-- The exact signed product fits in 64 bits. -/
theorem toInt_longProduct_signed (a b : Word) : (longProduct true a b).toInt = a.toInt * b.toInt := by
  have hle := BitVec.toInt_mul_toInt_le (x := a) (y := b)
  have hge := BitVec.le_toInt_mul_toInt (x := a) (y := b)
  exact BitVec.toInt_ofInt_eq_self (by decide) (by omega) (by omega)

section
variable (f : Bool) {h d : Reg} (p : BitVec 64) (s : State)

theorem frame_longResult : Frame [h, d] s (longResult f h d p s) := by
  refine ⟨fun r hr => ?_, ?_⟩
  · obtain ⟨hh, hd⟩ : r ≠ h ∧ r ≠ d := by simpa using hr
    simp [longResult, State.reg_setReg_ne _ _ hh, State.reg_setReg_ne _ _ hd]
  · simp [longResult]

theorem memKept_longResult : MemKept s (longResult f h d p s) := by
  simp [MemKept, longResult]

theorem reg_longResult_high : (longResult f h d p s).reg h = p.extractLsb' 32 32 := by
  simp [longResult]

theorem reg_longResult_low (hne : h ≠ d) : (longResult f h d p s).reg d = p.extractLsb' 0 32 := by
  simp [longResult, State.reg_setReg_ne _ _ hne.symm]

theorem longResult_pc : (longResult f h d p s).pc = s.pc + 4#32 := by
  simp [longResult]

theorem longResult_flags : (longResult f h d p s).flags =
    flagsZN f s.flags (decide (p.extractLsb' 32 32 = 0#32 ∧ p.extractLsb' 0 32 = 0#32)) ((p.extractLsb' 32 32).getLsbD 31) := by
  simp only [← eq_zero_iff_halves, ← msb_eq_getLsbD_high]
  cases f with
  | false => rfl
  | true => rfl

end

/-- Settles O35: the two halves of the exact product, which the registers hold apart. -/
theorem lmulResult : Obligations.LmulResult := by
  intro s c x sg f h a b d hc
  have hexec : exec (.lmul c x sg f h a b d) s = s.finish (if h = d then .error (.refuse .lmulSameDest)
      else .ok (longResult f h d (longProduct sg (s.reg a) (s.reg b)) s)) := State.perform_of_holds hc _
  rw [hexec]
  refine ⟨fun hne => ?_, fun heq => by rw [if_pos heq]; rfl⟩
  rw [if_neg hne]
  refine ⟨_, rfl, ?_⟩
  rw [reg_longResult_high, reg_longResult_low f _ s hne, toNat_halves, toInt_halves]
  refine ⟨?_, ?_, frame_longResult f _ s, memKept_longResult f _ s, longResult_pc f _ s, longResult_flags f _ s⟩
  · rintro rfl
    exact toNat_longProduct_unsigned _ _
  · rintro rfl
    exact toInt_longProduct_signed _ _

end Sys2Proof.Machine
end

section
/-!
SUPPORT. What is refused (00_scope.md section 5.3): ill-formed operands (41_arithmetic.md R111, 43_load.md R132, R133, R138), and apart from
them only a read of a byte that nothing has written (70_reset_and_hazards.md R241).
-/

namespace Sys2Proof.Machine

/-! ### Effects that refuse an unwritten byte only (R241) -/

/-- The effect is refused for nothing but a byte without a value in `s`. -/
def OnlyUnwritten {α : Type} (s : State) (b : Except Stop α) : Prop :=
  ∀ r, b = .error (.refuse r) → ∃ a, r = .unwrittenRead a ∧ s.mem.read a.toNat = none

section
variable {α β : Type} {s : State}

theorem OnlyUnwritten.ok (x : α) : OnlyUnwritten s (.ok x) := fun _ h => by cases h

/-- An effect that stops only by exceptions is never refused. -/
theorem OnlyUnwritten.of_raises {b : Except Stop α} (h : ∀ e, b = .error e → ∃ x, e = .raise x) : OnlyUnwritten s b := by
  intro r hr
  obtain ⟨x, hx⟩ := h _ hr
  cases hx

theorem OnlyUnwritten.map {b : Except Stop α} (f : α → β) (h : OnlyUnwritten s b) : OnlyUnwritten s (b.map f) :=
  fun r hr => h r ((except_map_error _ _ _).mp hr)

theorem OnlyUnwritten.bind {b : Except Stop α} {f : α → Except Stop β} (h : OnlyUnwritten s b)
    (hf : ∀ x, OnlyUnwritten s (f x)) : OnlyUnwritten s (b.bind f) := by
  intro r hr
  obtain hb | ⟨x, -, hx⟩ := (except_bind_error _ _ _).mp hr
  · exact h r hb
  · exact hf x r hx

/-! ### Checks and accesses -/

theorem OnlyUnwritten.readMem (k : AccessKind) (a : Word) (n : Size) : OnlyUnwritten s (s.readMem k a n) := by
  intro r hr
  obtain ⟨-, he⟩ | ⟨-, -, he⟩ | ⟨-, -, b, -, hb, he⟩ := State.readMem_error hr
  · cases he
  · cases he
  · cases he
    exact ⟨b, rfl, hb⟩

theorem OnlyUnwritten.readWords (as : List Word) : OnlyUnwritten s (readWords s as) := by
  intro r hr
  obtain ⟨b, hb, he⟩ := readWords_error hr
  cases he
  exact ⟨b, rfl, hb⟩

theorem OnlyUnwritten.checkAccess (k : AccessKind) (a : Word) (n : Size) : OnlyUnwritten s (s.checkAccess k a n) :=
  .of_raises fun e he => by
    obtain ⟨-, rfl⟩ | ⟨-, -, rfl⟩ := (s.checkAccess_error k a n e).mp he
    · exact ⟨_, rfl⟩
    · exact ⟨_, rfl⟩

theorem OnlyUnwritten.checkBlock (k : AccessKind) (as : List Word) : OnlyUnwritten s (checkBlock s k as) :=
  .of_raises fun e he => by
    cases as with
    | nil => cases he
    | cons a as =>
      rw [Machine.checkBlock] at he
      split at he
      · obtain ⟨x, -, -, rfl⟩ := checkPlatform_error he
        exact ⟨_, rfl⟩
      · exact ⟨_, (Except.error.inj he).symm⟩

theorem OnlyUnwritten.checkTarget (t : Word) : OnlyUnwritten s (checkTarget t) :=
  .of_raises fun e he => by
    obtain ⟨-, rfl⟩ := (checkTarget_error t e).mp he
    exact ⟨_, rfl⟩

theorem OnlyUnwritten.checkMulti {m : Multi} (hm : m.wellFormed = true) : OnlyUnwritten s (checkMulti m) := by
  rw [(checkMulti_ok m).mpr hm]
  exact .ok ()

/-! ### The shared effects of the families -/

theorem OnlyUnwritten.additive (w : Word) (o f : Bool) (a b : Word) (cin : Bool) (d : Option Reg) :
    OnlyUnwritten s (additive w o f a b cin d s) :=
  .of_raises fun e he => by
    obtain ⟨-, rfl⟩ := (additive_error w o f a b cin d s e).mp he
    exact ⟨_, rfl⟩

theorem OnlyUnwritten.checkDivisor (w b : Word) : OnlyUnwritten s (checkDivisor w b) :=
  .of_raises fun e he => by
    obtain ⟨-, rfl⟩ := (checkDivisor_error w b e).mp he
    exact ⟨_, rfl⟩

theorem OnlyUnwritten.privileged (w : Word) (t : State) : OnlyUnwritten s (privileged w s t) :=
  .of_raises fun e he => by
    obtain ⟨-, rfl⟩ := (privileged_error w s t e).mp he
    exact ⟨_, rfl⟩

/-- An operand refusal that does not apply. -/
theorem OnlyUnwritten.ite {p : Prop} [Decidable p] {x b : Except Stop α} (hp : ¬p) (h : OnlyUnwritten s b) :
    OnlyUnwritten s (if p then x else b) := by
  rwa [if_neg hp]

theorem OnlyUnwritten.push (v : Word) : OnlyUnwritten s (s.push v) :=
  fun r hr => OnlyUnwritten.checkAccess _ _ _ r ((s.push_error v _).mp hr)

theorem OnlyUnwritten.pop : OnlyUnwritten s s.pop :=
  .map _ (.readMem _ _ _)

theorem OnlyUnwritten.loadSingle {n : Size} {ext : Word → Word} {a : Single} (ha : a.collides = false) :
    OnlyUnwritten s (loadSingle n ext a s) :=
  .ite (by simp [ha]) (.map _ (.readMem _ _ _))

theorem OnlyUnwritten.loadMulti {m : Multi} (hm : m.wellFormed = true) : OnlyUnwritten s (loadMulti m s) :=
  .bind (.checkMulti hm) fun _ => .bind (.checkBlock _ _) fun _ => .map _ (.readWords _)

theorem OnlyUnwritten.storeSingle (n : Size) (a : Single) : OnlyUnwritten s (storeSingle n a s) :=
  fun r hr => OnlyUnwritten.checkAccess _ _ _ r ((storeSingle_error n a s _).mp hr)

theorem OnlyUnwritten.storeMulti {m : Multi} (hm : m.wellFormed = true) : OnlyUnwritten s (storeMulti m s) :=
  .bind (.checkMulti hm) fun _ => .map _ (.checkBlock _ _)

theorem OnlyUnwritten.callTo (t : Word) : OnlyUnwritten s (callTo t s) :=
  .map _ (.push _)

theorem unwrittenRead_of_perform {c : Cond} {b : Except Stop State} {r : Refusal} (h : s.perform c b = .refused r)
    (hb : OnlyUnwritten s b) : ∃ a, r = .unwrittenRead a ∧ s.mem.read a.toNat = none := by
  obtain ⟨-, hr⟩ := (s.perform_refused r c b).mp h
  exact hb r hr

end

/-! ### The two directions -/

/-- An instruction with well-formed operands is refused only for a byte without a value, one case per family. -/
theorem unwrittenRead_of_exec_refused {i : Instr} {s : State} {r : Refusal} (hi : i.wellFormed = true)
    (h : exec i s = .refused r) : ∃ a, r = .unwrittenRead a ∧ s.mem.read a.toNat = none := by
  cases i with
  | and | or | xor | nand | not | nor | xnor | cntlz | cntlo | popcnt | mult => exact unwrittenRead_of_perform h (.ok _)
  | add | sub | addc | subc | neg | comp => exact unwrittenRead_of_perform h (.additive _ _ _ _ _ _ _)
  | div | rem => exact unwrittenRead_of_perform h (.map _ (.checkDivisor _ _))
  | lmul => exact unwrittenRead_of_perform h (.ite (bne_iff_ne.mp hi) (.ok _))
  | rbra => exact unwrittenRead_of_perform h (.map _ (.checkTarget _))
  | rcall => exact unwrittenRead_of_perform h (.bind (.checkTarget _) fun _ => .callTo _)
  | ret => exact unwrittenRead_of_perform h (.bind .pop fun _ => .map _ (.checkTarget _))
  | load | loadb | loadh | loadbe | loadhe => exact unwrittenRead_of_perform h (.loadSingle (Bool.not_eq_true' _ ▸ hi))
  | loadm => exact unwrittenRead_of_perform h (.loadMulti hi)
  | pop => exact unwrittenRead_of_perform h (.ite (bne_iff_ne.mp hi) (.map _ .pop))
  | popf => exact unwrittenRead_of_perform h (.map _ .pop)
  | stor | storb | storh => exact unwrittenRead_of_perform h (.storeSingle _ _)
  | storm => exact unwrittenRead_of_perform h (.storeMulti hi)
  | push | pushpc | pushf => exact unwrittenRead_of_perform h (.map _ (.push _))
  | stop | wait | switchm => exact unwrittenRead_of_perform h (.privileged _ _)
  | movimm | movuimm | andimm | orimm | xorimm | addimm | subimm | compimm => exact unwrittenRead_of_perform h (.ok _)
  | bra => exact unwrittenRead_of_perform h (.ok _)
  | call => exact unwrittenRead_of_perform h (.callTo _)

/-- An ill-formed multiple transfer is refused for its DES2 or for its base (R133). -/
theorem checkMulti_of_illFormed {m : Multi} (hm : m.wellFormed = false) :
    checkMulti m = .error (.refuse .multiDes2) ∨ checkMulti m = .error (.refuse .multiBaseInList) := by
  cases h : checkMulti m with
  | ok u => simp [(checkMulti_ok m).mp h] at hm
  | error e =>
    obtain ⟨-, rfl⟩ | ⟨-, -, -, rfl⟩ := (checkMulti_error m e).mp h
    · exact .inl rfl
    · exact .inr rfl

/-- An ill-formed instruction whose condition holds is refused by name (log entry 11). -/
theorem exec_refused_of_illFormed {i : Instr} {s : State} (hc : s.condHolds i.cond = true) (hi : i.wellFormed = false) :
    exec i s = .refused .lmulSameDest ∨ exec i s = .refused .loadBaseCollision ∨ exec i s = .refused .popSP ∨
      exec i s = .refused .multiDes2 ∨ exec i s = .refused .multiBaseInList := by
  have hrefused {b : Except Stop State} {r : Refusal} (hb : b = .error (.refuse r)) : s.perform i.cond b = .refused r :=
    (s.perform_refused r i.cond b).mpr ⟨hc, hb⟩
  cases i with
  | lmul => exact .inl (hrefused (if_pos (bne_eq_false_iff_eq.mp hi)))
  | load _ a | loadb _ a | loadh _ a | loadbe _ a | loadhe _ a =>
    have ha : a.collides = true := by simpa [Instr.wellFormed] using hi
    exact .inr (.inl (hrefused ((loadSingle_error _ _ a s _).mpr (.inl ⟨ha, rfl⟩))))
  | pop => exact .inr (.inr (.inl (hrefused (if_pos (bne_eq_false_iff_eq.mp hi)))))
  | loadm _ m =>
    refine .inr (.inr (.inr ((checkMulti_of_illFormed hi).imp (fun h => hrefused ?_) fun h => hrefused ?_)))
    · exact (loadMulti_error m s _).mpr (.inl h)
    · exact (loadMulti_error m s _).mpr (.inl h)
  | storm _ m =>
    refine .inr (.inr (.inr ((checkMulti_of_illFormed hi).imp (fun h => hrefused ?_) fun h => hrefused ?_)))
    · exact (storeMulti_error m s _).mpr (.inl h)
    · exact (storeMulti_error m s _).mpr (.inl h)
  | _ => cases hi

/-- Settles O24: five checks of operands, and the reads, are all that refuses. -/
theorem illFormedOperandsRefused : Obligations.IllFormedOperandsRefused :=
  fun _ _ hc => ⟨exec_refused_of_illFormed hc, fun hi _ => unwrittenRead_of_exec_refused hi⟩

end Sys2Proof.Machine
end

section
/-!
SUPPORT. Control flow (42_control_flow.md R120 to R123): the jump to a checked target, and the stack operations (43_load.md R131,
44_store.md R151) that `rcall`, `call` and `ret` are made of.
-/

namespace Sys2Proof.Machine

/-! ### The exceptions of an access -/

theorem Size.aligned_eq_false_iff (n : Size) (a : Word) : n.aligned a = false ↔ a.toNat % n.bytes ≠ 0 := by
  rw [← Bool.not_eq_true, n.aligned_iff]

/-- An instruction that stops as the checks of its access do has the exceptions of that access (R35, R38, R214). -/
theorem accessTraps_of_checkAccess {i : Instr} {s : State} {k : AccessKind} {a : Word} {n : Size}
    (h : ∀ e, s.checkAccess k a n = .error e → exec i s = s.finish (.error e)) : AccessTraps i s k a n := by
  refine ⟨fun ha => ?_, fun ha hm => ?_⟩
  · exact h _ ((s.checkAccess_error k a n _).mpr (.inl ⟨(n.aligned_eq_false_iff a).mpr ha, rfl⟩))
  · exact h _ ((s.checkAccess_error k a n _).mpr (.inr ⟨(n.aligned_iff a).mpr ha, hm, rfl⟩))

theorem State.readMem_of_checkAccess_error {s : State} {k : AccessKind} {a : Word} {n : Size} {e : Stop}
    (h : s.checkAccess k a n = .error e) : s.readMem k a n = .error e := by
  simp only [State.readMem, h]

/-! ### A jump to a checked target (R120) -/

section
variable {s u : State} {p : Word}

/-- The last part of `rbra` and `ret`: a target that is a multiple of 4 becomes the pc. -/
theorem finish_jump_of_aligned (hp : p.toNat % 4 = 0) :
    s.finish ((checkTarget p).map fun _ => u.setPc p) = .next (u.setPc p) := by
  rw [(checkTarget_ok p).mpr hp]
  rfl

/-- The last part of `rbra` and `ret`: any other target traps, with the state before the instruction (R213). -/
theorem finish_jump_of_misaligned (hp : p.toNat % 4 ≠ 0) :
    s.finish ((checkTarget p).map fun _ => u.setPc p) = .fault (.trapped (.instructionAddressMisaligned p) s) := by
  rw [(checkTarget_error p _).mpr ⟨hp, rfl⟩]
  rfl

/-- The two forms of a register target: with O=0 and with O=1 (R120). -/
theorem registerTarget_eq_of_mem {a b : Reg} {o : Option Reg}
    (h : (o, p) ∈ [(none, s.reg a), (some b, s.reg a + s.reg b)]) : registerTarget a o s = p := by
  simp only [List.mem_cons, List.not_mem_nil, or_false, Prod.mk.injEq] at h
  obtain ⟨rfl, rfl⟩ | ⟨rfl, rfl⟩ := h
  · rfl
  · rfl

end

/-! ### The push (R151) -/

/-- The state after a completed push of `v`: the word below the stack pointer, and the pointer there. -/
def State.pushed (s : State) (v : Word) : State :=
  (s.storeBytes (s.reg spReg - 4#32) .word v).setReg spReg (s.reg spReg - 4#32)

theorem State.push_eq_ok_iff (s : State) (v : Word) (t : State) :
    s.push v = .ok t ↔
      (s.reg 15 - 4#32).toNat % 4 = 0 ∧ s.mapped .write (s.reg 15 - 4#32) .word = true ∧ t = s.pushed v := by
  rw [s.push_ok, Size.aligned_iff]
  rfl

/-- What a push leaves, whatever the pc is set to afterwards. -/
theorem pushCompletes_of_exec {i : Instr} {s : State} {v p : Word} (ha : (s.reg 15 - 4#32).toNat % 4 = 0)
    (h : exec i s = .next ((s.pushed v).setPc p)) : PushCompletes i s v p := by
  refine ⟨_, h, s.holds_storeBytes v ha, fun k hk => ?_, State.reg_setReg_self _ _ _, ⟨fun r hr => ?_, rfl, rfl, rfl, rfl⟩,
    rfl, rfl⟩
  · exact (State.read_storeBytes (n := .word) v ha k).trans (if_neg (by rw [Size.bytes]; omega))
  · exact State.reg_setReg_ne _ _ (mt List.mem_singleton.mpr hr)

/-! ### The calls (R122, R202) -/

section
variable {i : Instr} {s t : State} {c : Cond} {p : Word}

theorem callTo_eq_ok_iff :
    callTo p s = .ok t ↔ (s.reg 15 - 4#32).toNat % 4 = 0 ∧ s.mapped .write (s.reg 15 - 4#32) .word = true ∧
      t = (s.pushed (s.pc + 4#32)).setPc p := by
  simp only [callTo_ok, State.push_eq_ok_iff, and_assoc, exists_and_left, exists_eq_left]

/-- An instruction that is a call of `p`, where the push is accepted. -/
theorem pushCompletes_of_callTo (hc : s.condHolds c = true) (hi : exec i s = s.perform c (callTo p s))
    (ha : (s.reg 15 - 4#32).toNat % 4 = 0) (hm : s.mapped .write (s.reg 15 - 4#32) .word = true) :
    PushCompletes i s (s.pc + 4#32) p := by
  refine pushCompletes_of_exec ha ?_
  rw [hi, State.perform_of_holds hc, callTo_eq_ok_iff.mpr ⟨ha, hm, rfl⟩, State.finish_ok]

/-- The exceptions of a call are those of its push. -/
theorem accessTraps_of_callTo (hc : s.condHolds c = true) (hi : exec i s = s.perform c (callTo p s)) :
    AccessTraps i s .write (s.reg 15 - 4#32) .word := by
  refine accessTraps_of_checkAccess fun e he => ?_
  rw [hi, State.perform_of_holds hc, (callTo_error p s e).mpr ((s.push_error _ e).mpr he)]

theorem exec_rcall_of_aligned {x : BitVec 3} {a : Reg} {o : Option Reg} (ht : registerTarget a o s = p) (hp : p.toNat % 4 = 0) :
    exec (.rcall c x a o) s = s.perform c (callTo p s) := by
  simp only [exec, execRcall, ht, (checkTarget_ok p).mpr hp]
  rfl

/-- A call that completed is a push of the return address. -/
theorem pushCompletes_of_call {x : BitVec 3} {a : Reg} {o : Option Reg} {off : BitVec 24} (hi : i = .call c off ∨ i = .rcall c x a o)
    (hc : s.condHolds c = true) (h : exec i s = .next t) :
    (s.reg 15 - 4#32).toNat % 4 = 0 ∧ ∃ p, PushCompletes i s (s.pc + 4#32) p := by
  have hcall : ∃ p, callTo p s = .ok t := by
    obtain rfl | rfl := hi
    · exact ⟨_, (s.finish_next t _).mp ((State.perform_of_holds hc _).symm.trans h)⟩
    · obtain ⟨_, -, hcall⟩ := (except_bind_ok _ _ _).mp ((s.finish_next t _).mp ((State.perform_of_holds hc _).symm.trans h))
      exact ⟨_, hcall⟩
  obtain ⟨p, hp⟩ := hcall
  obtain ⟨ha, -, rfl⟩ := callTo_eq_ok_iff.mp hp
  exact ⟨ha, p, pushCompletes_of_exec ha h⟩

end

/-! ### The pop of `ret` (R123, R131) -/

section
variable {s : State} {c : Cond} {v : Word}

/-- Where the word at the stack pointer is `v`, what is left of `ret` is the jump to `v`, the pointer moved past the word. -/
theorem exec_ret_of_holds (hc : s.condHolds c = true) (ha : (s.reg 15).toNat % 4 = 0) (hm : s.mapped .read (s.reg 15) .word = true)
    (hv : Holds s.mem (s.reg 15) 4 v) :
    exec (.ret c) s = s.finish ((checkTarget v).map fun _ => (s.setReg 15 (s.reg 15 + 4#32)).setPc v) := by
  have hread : s.readMem .read (s.reg 15) .word = .ok v :=
    (State.readMem_of_holds ha hm hv).trans (congrArg _ (bytesValue_valueBytes_four v))
  have hpop : s.pop = .ok (v, s.setReg 15 (s.reg 15 + 4#32)) := (s.pop_ok _).mpr ⟨hread, rfl⟩
  simp only [exec, execRet, State.perform_of_holds hc, hpop]
  rfl

/-- The exceptions of the read of `ret`. -/
theorem accessTraps_ret (hc : s.condHolds c = true) : AccessTraps (.ret c) s .read (s.reg 15) .word := by
  refine accessTraps_of_checkAccess fun e he => ?_
  have hpop : s.pop = .error e := (s.pop_error e).mpr (State.readMem_of_checkAccess_error he)
  simp only [exec, execRet, State.perform_of_holds hc, hpop]
  rfl

end

/-! ### The obligations -/

/-- Settles O39: the effect of `rbra` is a jump to its checked target. -/
theorem rbraResult : Obligations.RbraResult := by
  intro s c x a b o p hmem hc
  have hexec : exec (.rbra c x a o) s = s.finish ((checkTarget p).map fun _ => s.setPc p) := by
    rw [← registerTarget_eq_of_mem hmem]
    exact State.perform_of_holds hc _
  refine ⟨fun hp => ?_, fun hp => ?_⟩
  · exact ⟨_, hexec.trans (finish_jump_of_aligned hp), rfl, ⟨fun _ _ => rfl, rfl, rfl, rfl, rfl⟩, fun _ => rfl, rfl⟩
  · exact hexec.trans (finish_jump_of_misaligned hp)

/-- Settles O40: past the check of its target, `rcall` is a call like `call`. -/
theorem rcallResult : Obligations.RcallResult := by
  intro s c x a b o p hmem hc
  have ht := registerTarget_eq_of_mem hmem
  refine ⟨fun hp ha hm => ?_, fun hp => ?_, fun hp => ?_⟩
  · exact pushCompletes_of_callTo hc (exec_rcall_of_aligned ht hp) ha hm
  · exact accessTraps_of_callTo hc (exec_rcall_of_aligned ht hp)
  · simp only [exec, execRcall, ht, State.perform_of_holds hc, (checkTarget_error p _).mpr ⟨hp, rfl⟩]
    rfl

/-- Settles O42: after the read, `ret` is a jump to the word popped. -/
theorem retResult : Obligations.RetResult := by
  intro s c hc
  refine ⟨fun v ha hm hv => ?_, accessTraps_ret hc⟩
  have hexec := exec_ret_of_holds hc ha hm hv
  refine ⟨fun hp => ?_, fun hp => hexec.trans (finish_jump_of_misaligned hp)⟩
  refine ⟨_, hexec.trans (finish_jump_of_aligned hp), rfl, State.reg_setReg_self _ _ _, ⟨fun r hr => ?_, rfl, rfl, rfl, rfl⟩,
    fun _ => rfl, rfl⟩
  exact State.reg_setReg_ne _ _ (mt List.mem_singleton.mpr hr)

/-- Settles O43: the call leaves the return address at the stack pointer, where `ret` finds it. -/
theorem retReturnsAfterCall : Obligations.RetReturnsAfterCall := by
  intro s t i c d x a o off hi hc hd hpc ht hread
  obtain ⟨ha, p, t', ht', hholds, -, hsp, ⟨hregs, hmode, -, hun, -⟩, hflags, -⟩ := pushCompletes_of_call hi hc ht
  obtain rfl : t = t' := Host.Outcome.next.inj (ht.symm.trans ht')
  have hd' : t.condHolds d = true := by rwa [State.condHolds, hflags]
  have hread' : t.mapped .read (t.reg 15) .word = true := by rwa [hsp, State.mapped_congr hun hmode]
  obtain ⟨hret, -⟩ := retResult t d hd'
  obtain ⟨hjump, -⟩ := hret (s.pc + 4#32) (hsp ▸ ha) hread' (hsp ▸ hholds)
  obtain ⟨u, hu, hupc, husp, ⟨huregs, -⟩, humem, huflags⟩ := hjump (toNat_add_mod_four hpc rfl)
  refine ⟨u, hu, hupc, fun r => ?_, huflags.trans hflags, humem⟩
  by_cases hr : r = 15
  · rw [hr, husp, hsp, BitVec.sub_add_cancel]
  · have hmem : r ∉ [15] := mt List.mem_singleton.mp hr
    rw [huregs r hmem, hregs r hmem]

end Sys2Proof.Machine
end

section
/-!
SUPPORT. The single loads and the pops (43_load.md R130 to R132, R134 to R141): the address of the access, what a load of a known value
leaves, and the word at the stack pointer.
-/

namespace Sys2Proof.Machine

/-! ### The address and the new base (R130) -/

/-- The offset is the value of the register, or the immediate as an unsigned number of bytes (R59, R130). -/
theorem offsetValue_eq {s : State} {f : Offset} {o : Word} (hreg : ∀ r, f = .reg r → o = s.reg r)
    (himm : ∀ v, f = .imm v → o = BitVec.ofNat 32 v.toNat) : offsetValue s f = o := by
  cases f with
  | reg r => exact (hreg r rfl).symm
  | imm v => exact ((himm v rfl).trans (BitVec.ofNat_toNat 32 v)).symm

/-- Settles O44: the definitions of R130 with the offset's value put in. -/
theorem singleAddressing : Obligations.SingleAddressing := by
  intro a s o hreg himm
  simp only [accessAddr, newBase, offsetValue_eq hreg himm, and_self]

/-! ### A read of a word or of a halfword (R33) -/

section
variable {s : State} {x : AccessKind} {a v : Word}

theorem State.readMem_word_of_holds (ha : a.toNat % 4 = 0) (hm : s.mapped x a .word = true) (hv : Holds s.mem a 4 v) :
    s.readMem x a .word = .ok v :=
  (State.readMem_of_holds ha hm hv).trans (congrArg _ (bytesValue_valueBytes_four v))

theorem State.readMem_byte_of_read {b0 : Byte} (hm : s.mapped x a .byte = true) (h0 : s.mem.read a.toNat = some b0) :
    s.readMem x a .byte = .ok (b0.zeroExtend 32) := by
  rw [State.readMem_of_bytes (bs := [b0]) (Nat.mod_one _) hm rfl, bytesValue_one]
  rintro (_ | j) hj
  · exact h0
  · simp at hj

theorem State.readMem_half_of_read {b0 b1 : Byte} (ha : a.toNat % 2 = 0) (hm : s.mapped x a .half = true)
    (h0 : s.mem.read a.toNat = some b0) (h1 : s.mem.read (a.toNat + 1) = some b1) :
    s.readMem x a .half = .ok ((b1 ++ b0).zeroExtend 32) := by
  rw [State.readMem_of_bytes (bs := [b0, b1]) ha hm rfl, bytesValue_two]
  rintro (_ | _ | j) hj
  · exact h0
  · exact h1
  · simp at hj

end

/-- The extension of `loadbe` sees the byte that was read (R139). -/
theorem sextByte_zeroExtend (b : Byte) : sextByte (b.zeroExtend 32) = b.signExtend 32 := by
  simp [sextByte]

/-- The extension of `loadhe` sees the halfword that was read (R141). -/
theorem sextHalf_zeroExtend (h : BitVec 16) : sextHalf (h.zeroExtend 32) = h.signExtend 32 := by
  simp [sextHalf]

/-! ### The single loads (R132) -/

/-- With W=1 the base holds the new base. -/
theorem reg_writeBack_base {wb : Bool} (hwb : wb = true) (b : Reg) (v : Word) (t : State) : (writeBack wb b v t).reg b = v := by
  rw [reg_writeBack, if_pos ⟨hwb, rfl⟩]

/-- Any other register, and with W=0 the base too, is as before the write-back. -/
theorem reg_writeBack_of_not {wb : Bool} {b r : Reg} (h : ¬(wb = true ∧ r = b)) (v : Word) (t : State) :
    (writeBack wb b v t).reg r = t.reg r := by
  rw [reg_writeBack, if_neg h]

/-- The data register of a load that is not refused is not also its written-back base (R132). -/
theorem data_ne_base_of_not_collides {a : Single} (ha : a.collides = false) (hwb : a.wb = true) : a.data ≠ a.base := by
  simpa [Single.collides, hwb] using ha

section
variable {i : Instr} {s : State} {c : Cond} {a : Single} {n : Size} {ext : Word → Word}

theorem loadCompletes_of_readMem {v : Word} (hc : s.condHolds c = true) (hi : exec i s = s.perform c (loadSingle n ext a s))
    (ha : a.collides = false) (hv : s.readMem .read (accessAddr a s) n = .ok v) : LoadCompletes i a s (ext v) := by
  have hexec : exec i s = .next (writeBack a.wb a.base (newBase a s) (s.setReg a.data (ext v))).advance := by
    rw [hi, State.perform_of_holds hc, (loadSingle_ok n ext a s _).mpr ⟨ha, v, hv, rfl⟩, State.finish_ok]
  have hdata : ¬(a.wb = true ∧ a.data = a.base) := fun ⟨hwb, h⟩ => data_ne_base_of_not_collides ha hwb h
  refine ⟨_, hexec, ?_, fun hwb => reg_writeBack_base hwb _ _ _, ⟨fun r hr => ?_, ?_⟩, ?_⟩
  · exact (reg_writeBack_of_not hdata _ _).trans (State.reg_setReg_self s _ _)
  · have hne : r ≠ a.data := fun h => hr (by split <;> simp [h])
    have hbase : ¬(a.wb = true ∧ r = a.base) := fun h => hr (by simp [h])
    exact (reg_writeBack_of_not hbase _ _).trans (State.reg_setReg_ne s _ hne)
  all_goals simp [MemKept]

theorem accessTraps_of_loadSingle (hc : s.condHolds c = true) (hi : exec i s = s.perform c (loadSingle n ext a s))
    (ha : a.collides = false) : AccessTraps i s .read (accessAddr a s) n := by
  refine accessTraps_of_checkAccess fun e he => ?_
  rw [hi, State.perform_of_holds hc, (loadSingle_error n ext a s e).mpr (.inr ⟨ha, State.readMem_of_checkAccess_error he⟩)]

theorem exec_of_collides (hc : s.condHolds c = true) (hi : exec i s = s.perform c (loadSingle n ext a s))
    (ha : a.collides = true) : exec i s = .refused .loadBaseCollision := by
  rw [hi, State.perform_of_holds hc, (loadSingle_error n ext a s _).mpr (.inl ⟨ha, rfl⟩), State.finish_refuse]

end

/-- Settles O45: the five loads differ in the size of their access and in the extension of its value. -/
theorem singleLoadResults : Obligations.SingleLoadResults := by
  intro s c a hc
  refine ⟨fun ha => ⟨fun b0 h0 hm => ⟨?_, ?_⟩, fun b0 b1 haligned h0 h1 hm => ⟨?_, ?_⟩, fun v haligned hv hm => ?_, ?_⟩,
    fun ha i hi => ?_⟩
  · exact loadCompletes_of_readMem (ext := id) hc rfl ha (State.readMem_byte_of_read hm h0)
  · exact sextByte_zeroExtend b0 ▸ loadCompletes_of_readMem hc rfl ha (State.readMem_byte_of_read hm h0)
  · exact loadCompletes_of_readMem (ext := id) hc rfl ha (State.readMem_half_of_read haligned hm h0 h1)
  · exact sextHalf_zeroExtend (b1 ++ b0) ▸ loadCompletes_of_readMem hc rfl ha (State.readMem_half_of_read haligned hm h0 h1)
  · exact loadCompletes_of_readMem (ext := id) hc rfl ha (State.readMem_word_of_holds haligned hm hv)
  · exact ⟨accessTraps_of_loadSingle hc rfl ha, accessTraps_of_loadSingle hc rfl ha, accessTraps_of_loadSingle hc rfl ha,
      accessTraps_of_loadSingle hc rfl ha, accessTraps_of_loadSingle hc rfl ha⟩
  · simp only [List.mem_cons, List.not_mem_nil, or_false] at hi
    rcases hi with rfl | rfl | rfl | rfl | rfl
    all_goals exact exec_of_collides hc rfl ha

/-! ### The pops (R131, R138, R140) -/

section
variable {s : State} {c : Cond} {d : Reg}

theorem State.pop_of_holds {v : Word} (ha : (s.reg 15).toNat % 4 = 0) (hm : s.mapped .read (s.reg 15) .word = true)
    (hv : Holds s.mem (s.reg 15) 4 v) : s.pop = .ok (v, s.setReg 15 (s.reg 15 + 4#32)) :=
  (s.pop_ok _).mpr ⟨State.readMem_word_of_holds ha hm hv, rfl⟩

theorem exec_pop_of_ne (hc : s.condHolds c = true) (hd : d ≠ 15) :
    exec (.pop c d) s = s.finish (s.pop.map fun p => (p.2.setReg d p.1).advance) :=
  (State.perform_of_holds hc _).trans (congrArg s.finish (if_neg hd))

theorem exec_popf_of_condHolds (hc : s.condHolds c = true) :
    exec (.popf c) s = s.finish (s.pop.map fun p => (p.2.setFlags (Flags.ofWord p.1)).advance) :=
  State.perform_of_holds hc _

/-- An instruction that begins with a pop has the exceptions of its read. -/
theorem accessTraps_of_pop {i : Instr} {f : Word × State → State} (hi : exec i s = s.finish (s.pop.map f)) :
    AccessTraps i s .read (s.reg 15) .word := by
  refine accessTraps_of_checkAccess fun e he => ?_
  have hpop : s.pop = .error e := (s.pop_error e).mpr (State.readMem_of_checkAccess_error he)
  rw [hi, hpop, (except_map_error _ _ e).mpr rfl]

end

/-- Settles O50: both are the pop of R131, after it a write of the register or of the flags. -/
theorem popResults : Obligations.PopResults := by
  intro s c d hc
  refine ⟨fun v ha hm hv => ⟨fun hd => ?pop, ?popf⟩, fun hd => accessTraps_of_pop (exec_pop_of_ne hc hd),
    accessTraps_of_pop (exec_popf_of_condHolds hc), State.perform_of_holds hc _⟩
  case pop =>
    have hexec := exec_pop_of_ne hc hd
    rw [State.pop_of_holds ha hm hv] at hexec
    refine ⟨_, hexec, State.reg_setReg_self _ d v, ?sp, ⟨fun r hr => ?others, rfl, rfl, rfl, rfl⟩, fun _ => rfl, rfl, rfl⟩
    case sp => simp [State.reg_setReg_ne _ v hd.symm]
    case others =>
      obtain ⟨hrd, hr15⟩ : r ≠ d ∧ r ≠ 15 := by simpa using hr
      simp [State.reg_setReg_ne _ _ hrd, State.reg_setReg_ne _ _ hr15]
  case popf =>
    have hexec := exec_popf_of_condHolds hc
    rw [State.pop_of_holds ha hm hv] at hexec
    refine ⟨_, hexec, rfl, State.reg_setReg_self _ _ _, ⟨fun r hr => ?others, rfl, rfl, rfl, rfl⟩, fun _ => rfl, rfl⟩
    case others => exact State.reg_setReg_ne _ _ (mt List.mem_singleton.mpr hr)

end Sys2Proof.Machine
end

section
/-!
SUPPORT. The blocks of the multiple transfers (43_load.md R133, R135): the addresses of their words, the checks made before the first
access, and what `loadm` leaves.
-/

namespace Sys2Proof.Machine

/-! ### Where the block lies (R133) -/

/-- Settles O48: one case of `blockStart` for each choice of U and P. -/
theorem multiBlockPlacement : Obligations.MultiBlockPlacement := by
  rintro m s n rfl
  refine ⟨fun hup hpre => ?_, fun hup hpre => ?_, fun hup hpre => ?_, fun hup hpre => ?_, rfl⟩
  all_goals simp only [blockStart, hup, hpre, blockBytes]

theorem blockAddrs_eq_map (m : Multi) (s : State) : blockAddrs m s = (List.range m.regs.length).map (blockWord m s) :=
  wordAddrs_eq_map _ _

/-- The words of an aligned block are aligned (R35). -/
theorem blockWord_mod_four {m : Multi} {s : State} (h : (blockStart m s).toNat % 4 = 0) (j : Nat) :
    (blockWord m s j).toNat % 4 = 0 := by
  rw [blockWord, BitVec.toNat_add, BitVec.toNat_ofNat]
  omega

/-! ### The checks of a block (R135, R153) -/

section
variable {s : State} {k : AccessKind} {m : Multi}

theorem blockAccepted_iff_checkBlock : BlockAccepted m s k ↔ checkBlock s k (blockAddrs m s) = .ok () := by
  rw [checkBlock_ok, blockAddrs_eq_map, BlockAccepted]
  refine and_congr ?_ (by simp)
  cases h : m.regs with
  | nil => simp
  | cons r rs => simp [List.range_succ_eq_map, blockWord, Size.aligned_iff, Size.bytes]

theorem checkBlock_of_misaligned (hregs : m.regs ≠ []) (ha : (blockStart m s).toNat % 4 ≠ 0) :
    checkBlock s k (blockAddrs m s) = .error (.raise (.addressMisaligned (blockStart m s))) := by
  obtain ⟨n, hn⟩ := Nat.exists_eq_succ_of_ne_zero (mt List.length_eq_zero_iff.mp hregs)
  rw [blockAddrs, hn, wordAddrs, checkBlock, (Size.aligned_eq_false_iff .word _).mpr ha, if_neg Bool.false_ne_true]

theorem checkBlock_of_not_mapped {j : Nat} (ha : (blockStart m s).toNat % 4 = 0) (hj : j < m.regs.length)
    (hbefore : ∀ l, l < j → s.mapped k (blockWord m s l) .word = true) (hm : s.mapped k (blockWord m s j) .word = false) :
    checkBlock s k (blockAddrs m s) = .error (.raise (.accessFault (blockWord m s j) k)) := by
  have hplatform : checkPlatform s k (blockAddrs m s) = .error (.raise (.accessFault (blockWord m s j) k)) := by
    rw [blockAddrs_eq_map]
    exact checkPlatform_first s k _ _ j hj hbefore hm
  obtain ⟨n, hn⟩ := Nat.exists_eq_add_of_lt (Nat.zero_lt_of_lt hj)
  rw [blockAddrs, hn, wordAddrs] at hplatform ⊢
  rw [checkBlock, (Size.aligned_iff .word _).mpr ha, if_pos rfl, hplatform]

/-- An instruction that stops as the checks of its block do has the exceptions of that block (R135, R153). -/
theorem blockTraps_of_checkBlock {i : Instr}
    (h : ∀ e, checkBlock s k (blockAddrs m s) = .error e → exec i s = s.finish (.error e)) : BlockTraps i m s k :=
  ⟨fun hregs ha => h _ (checkBlock_of_misaligned hregs ha),
    fun _ ha hj hbefore hm => h _ (checkBlock_of_not_mapped ha hj hbefore hm)⟩

/-- With W=1 the base of a transfer that is not refused is none of its registers (R133). -/
theorem base_notMem_regs_of_wellFormed (hm : m.wellFormed = true) (hwb : m.wb = true) : m.base ∉ m.regs := by
  intro hmem
  simp [Multi.wellFormed, Multi.baseInList, hwb, hmem] at hm

theorem checkMulti_of_ne (h : m.des2 ≠ m.base) : checkMulti m = .error (.refuse .multiDes2) :=
  (checkMulti_error m _).mpr (.inl ⟨h, rfl⟩)

theorem checkMulti_of_mem (h : m.des2 = m.base) (hwb : m.wb = true) (hmem : m.base ∈ m.regs) :
    checkMulti m = .error (.refuse .multiBaseInList) :=
  (checkMulti_error m _).mpr (.inr ⟨h, hwb, List.contains_iff_mem.mpr hmem, rfl⟩)

end

/-! ### The load of a block (R135) -/

section
variable {s : State} {c : Cond} {m : Multi} {vs : List Word}

/-- The words of an accepted block whose bytes are known. -/
theorem readWords_of_holds (hlen : vs.length = m.regs.length) (hacc : BlockAccepted m s .read)
    (hvs : ∀ k (h : k < vs.length), Holds s.mem (blockWord m s k) 4 vs[k]) : readWords s (blockAddrs m s) = .ok vs := by
  obtain ⟨haligned, hmapped⟩ := hacc
  rw [readWords_ok, blockAddrs_eq_map, List.forall₂_iff_get]
  refine ⟨by simp [hlen], fun k _ hk => ?_⟩
  have hk' : k < m.regs.length := hlen ▸ hk
  have ha := blockWord_mod_four (haligned (List.ne_nil_of_length_pos (Nat.zero_lt_of_lt hk'))) k
  obtain ⟨-, -, hbytes⟩ := (s.readMem_ok _ _ _ _).mp (State.readMem_word_of_holds ha (hmapped k hk') (hvs k hk))
  simpa [Size.bytes] using hbytes

/-- The listed registers hold the words loaded: they are distinct, and the base is none of them when W=1. -/
theorem reg_loaded_getElem (hm : m.wellFormed = true) (new : Word) {k : Nat} (hlen : vs.length = m.regs.length)
    (hk : k < vs.length) (hk' : k < m.regs.length) :
    (writeBack m.wb m.base new (s.setRegs (m.regs.zip vs))).reg m.regs[k] = vs[k] := by
  have hbase : ¬(m.wb = true ∧ m.regs[k] = m.base) := fun ⟨hwb, h⟩ =>
    base_notMem_regs_of_wellFormed hm hwb (h ▸ List.getElem_mem hk')
  have hnodup : ((m.regs.zip vs).map Prod.fst).Nodup := by
    rw [List.map_fst_zip hlen.ge]
    exact m.regs_pairwise_lt.imp ne_of_lt
  have hmem : (m.regs[k], vs[k]) ∈ m.regs.zip vs := List.mem_iff_getElem.mpr ⟨k, by simp [hk, hk'], by simp⟩
  exact (reg_writeBack_of_not hbase _ _).trans (s.reg_setRegs_of_mem _ hnodup _ hmem)

theorem reg_loaded_of_notMem (new : Word) (hlen : vs.length = m.regs.length) {r : Reg}
    (hr : r ∉ if m.wb then m.base :: m.regs else m.regs) :
    (writeBack m.wb m.base new (s.setRegs (m.regs.zip vs))).reg r = s.reg r := by
  have hbase : ¬(m.wb = true ∧ r = m.base) := fun h => hr (by simp [h])
  have hregs : r ∉ (m.regs.zip vs).map Prod.fst := by
    rw [List.map_fst_zip hlen.ge]
    exact fun h => hr (by split <;> simp [h])
  exact (reg_writeBack_of_not hbase _ _).trans (s.reg_setRegs_of_not_mem _ _ hregs)

theorem exec_loadm_of_error {e : Stop} (hc : s.condHolds c = true) (h : loadMulti m s = .error e) :
    exec (.loadm c m) s = s.finish (.error e) :=
  (State.perform_of_holds hc _).trans (congrArg s.finish h)

end

/-- Settles O49: the checks of the block, the words read, and the writes to distinct registers. -/
theorem loadmResult : Obligations.LoadmResult := by
  intro s c m hc
  refine ⟨fun hm vs hlen hacc hvs => ?_, fun hm => blockTraps_of_checkBlock fun e he => ?_, fun hdes => ?_,
    fun hdes hwb hmem => ?_⟩
  · have hload := (loadMulti_ok m s _).mpr
      ⟨hm, blockAccepted_iff_checkBlock.mp hacc, vs, readWords_of_holds hlen hacc hvs, rfl⟩
    refine ⟨_, (State.perform_of_holds hc _).trans (congrArg s.finish hload), fun k => reg_loaded_getElem hm _ hlen,
      fun hwb => reg_writeBack_base hwb _ _ _, ⟨fun r => reg_loaded_of_notMem _ hlen, ?_⟩, ?_⟩
    all_goals simp [MemKept]
  · exact exec_loadm_of_error hc ((loadMulti_error m s e).mpr (.inr ⟨hm, .inl he⟩))
  · exact exec_loadm_of_error hc ((loadMulti_error m s _).mpr (.inl (checkMulti_of_ne hdes)))
  · exact exec_loadm_of_error hc ((loadMulti_error m s _).mpr (.inl (checkMulti_of_mem hdes hwb hmem)))

end Sys2Proof.Machine
end

section
/-!
SUPPORT. `storm` and a run of pushes store the same words (43_load.md R133, 44_store.md R151, R153): what stores at words apart from each
other leave does not depend on their order.
-/

namespace Sys2Proof.Machine

/-! ### Words stored apart from each other (R33) -/

/-- The addresses of the words are multiples of 4, no two alike, so no two words share a byte. -/
def WordsApart (l : List (Word × Word)) : Prop :=
  (∀ p ∈ l, p.1.toNat % 4 = 0) ∧ (l.map Prod.fst).Nodup

/-- In `t` each of the words is at its address, and any other byte is as in `s`. -/
def WordsStored (s t : State) (l : List (Word × Word)) : Prop :=
  (∀ p ∈ l, Holds t.mem p.1 4 p.2) ∧
    ∀ k, (∀ p ∈ l, k < p.1.toNat ∨ p.1.toNat + 4 ≤ k) → t.mem.read k = s.mem.read k

section
variable {s t u : State} {a v : Word} {l l' : List (Word × Word)}

theorem WordsApart.head_mod_four {p : Word × Word} (h : WordsApart (p :: l)) : p.1.toNat % 4 = 0 := by
  obtain ⟨ha, -⟩ := h
  exact ha p List.mem_cons_self

theorem WordsApart.tail {p : Word × Word} (h : WordsApart (p :: l)) : WordsApart l := by
  obtain ⟨ha, hd⟩ := h
  exact ⟨fun q hq => ha q (List.mem_cons_of_mem p hq), (List.nodup_cons.mp hd).2⟩

theorem WordsApart.reverse (h : WordsApart l) : WordsApart l.reverse := by
  obtain ⟨ha, hd⟩ := h
  exact ⟨fun p hp => ha p (List.mem_reverse.mp hp), by rwa [List.map_reverse, List.nodup_reverse]⟩

/-- A byte of the first word lies in none of the others. -/
theorem WordsApart.outside {p : Word × Word} (h : WordsApart (p :: l)) {j : Nat} (hj : j < 4) :
    ∀ q ∈ l, p.1.toNat + j < q.1.toNat ∨ q.1.toNat + 4 ≤ p.1.toNat + j := by
  intro q hq
  obtain ⟨ha, hd⟩ := h
  have hp4 := ha p List.mem_cons_self
  have hq4 := ha q (List.mem_cons_of_mem p hq)
  have hne : p.1.toNat ≠ q.1.toNat := fun e =>
    (List.nodup_cons.mp hd).1 (BitVec.eq_of_toNat_eq e ▸ List.mem_map_of_mem hq)
  omega

/-- Storing one word, and then others apart from it. -/
theorem WordsStored.cons (hl : WordsApart ((a, v) :: l)) (hv : Holds t.mem a 4 v) (hkept : MemKeptOutside a 4 s t)
    (h : WordsStored t u l) : WordsStored s u ((a, v) :: l) := by
  obtain ⟨hwords, hothers⟩ := h
  refine ⟨List.forall_mem_cons.mpr ⟨fun j hj => ?_, hwords⟩, fun k hk => ?_⟩
  · exact (hothers _ (hl.outside hj)).trans (hv j hj)
  · obtain ⟨hka, hkl⟩ := List.forall_mem_cons.mp hk
    exact (hothers k hkl).trans (hkept k hka)

/-- The order of the words does not matter. -/
theorem WordsStored.of_reverse (h : WordsStored s t l.reverse) : WordsStored s t l := by
  simpa only [WordsStored, List.mem_reverse] using h

/-- The bytes after storing the words are determined. -/
theorem WordsStored.read_eq (ht : WordsStored s t l) (hu : WordsStored s u l) (k : Nat) : u.mem.read k = t.mem.read k := by
  obtain ⟨htwords, htothers⟩ := ht
  obtain ⟨huwords, huothers⟩ := hu
  by_cases hk : ∀ p ∈ l, k < p.1.toNat ∨ p.1.toNat + 4 ≤ k
  · rw [htothers k hk, huothers k hk]
  · push Not at hk
    obtain ⟨p, hp, hle, hlt⟩ := hk
    rw [← Nat.add_sub_cancel' hle, huwords p hp _ (by omega), htwords p hp _ (by omega)]

theorem memKeptOutside_storeBytes {n : Size} (ha : a.toNat % n.bytes = 0) (v : Word) :
    MemKeptOutside a n.bytes s (s.storeBytes a n v) := fun k hk => by
  rw [State.read_storeBytes v ha, if_neg (by omega)]

theorem wordsStored_storeWords (s : State) (hl : WordsApart l) : WordsStored s (storeWords s l) l := by
  induction l generalizing s with
  | nil => exact ⟨fun p hp => (List.not_mem_nil hp).elim, fun _ _ => rfl⟩
  | cons p l ih =>
    have ha := hl.head_mod_four
    exact .cons hl (s.holds_storeBytes (n := .word) p.2 ha) (memKeptOutside_storeBytes (n := .word) ha p.2) (ih _ hl.tail)

end

/-- The addresses of the words of a block, in an address space they do not fill, are all different. -/
theorem nodup_wordAddrs (a : Word) {n : Nat} (hn : 4 * n ≤ 2 ^ 32) : (wordAddrs a n).Nodup := by
  rw [wordAddrs_eq_map]
  refine List.nodup_range.map_on fun i hi j hj h => ?_
  have hi' := List.mem_range.mp hi
  have hj' := List.mem_range.mp hj
  have hij := congrArg BitVec.toNat ((BitVec.add_right_inj a).mp h)
  simp only [BitVec.toNat_ofNat] at hij
  omega

/-! ### A run of pushes (R151) -/

/-- The words that pushing the values in order stores, from the stack pointer `a` down. -/
def pushedWords (a : Word) : List Word → List (Word × Word)
  | [] => []
  | v :: vs => (a - 4#32, v) :: pushedWords (a - 4#32) vs

/-- From the lowest address up, they are the words of a block that ends at `a`, the last value first. -/
theorem reverse_pushedWords (a : Word) (vs : List Word) :
    (pushedWords a vs).reverse = (wordAddrs (a - BitVec.ofNat 32 (4 * vs.length)) vs.length).zip vs.reverse := by
  induction vs generalizing a with
  | nil => rfl
  | cons v vs ih =>
    have hbelow : a - 4#32 - BitVec.ofNat 32 (4 * vs.length) = a - BitVec.ofNat 32 (4 * (vs.length + 1)) := by
      rw [Nat.mul_succ, BitVec.ofNat_add]
      ring
    have hlast : a - BitVec.ofNat 32 (4 * (vs.length + 1)) + BitVec.ofNat 32 (4 * vs.length) = a - 4#32 := by
      rw [← hbelow, BitVec.sub_add_cancel]
    have haddrs (b : Word) (n : Nat) : wordAddrs b (n + 1) = wordAddrs b n ++ [b + BitVec.ofNat 32 (4 * n)] := by
      simp only [wordAddrs_eq_map, List.range_succ, List.map_append, List.map_cons, List.map_nil]
    rw [pushedWords, List.reverse_cons, ih, hbelow, List.reverse_cons, List.length_cons, haddrs, hlast,
      List.zip_append (by simp)]
    rfl

/-- A push whose store is accepted. -/
theorem pushCompletes_push {s : State} {c : Cond} {d : Reg} (hc : s.condHolds c = true) (ha : (s.reg 15 - 4#32).toNat % 4 = 0)
    (hm : s.mapped .write (s.reg 15 - 4#32) .word = true) : PushCompletes (.push c d) s (s.reg d) (s.pc + 4#32) := by
  refine pushCompletes_of_exec ha ((State.perform_of_holds hc _).trans ?_)
  rw [(State.push_eq_ok_iff s _ _).mpr ⟨ha, hm, rfl⟩]
  rfl

/-- Pushes of registers other than the stack pointer, all accepted, store the values the registers had before the first of them. -/
theorem pushEach_of_accepted {s : State} {c : Cond} {rs : List Reg} (hc : s.condHolds c = true) (hrs : 15 ∉ rs)
    (hl : WordsApart (pushedWords (s.reg 15) (rs.map s.reg)))
    (hm : ∀ p ∈ pushedWords (s.reg 15) (rs.map s.reg), s.mapped .write p.1 .word = true) :
    ∃ u, pushEach c rs s = .next u ∧ WordsStored s u (pushedWords (s.reg 15) (rs.map s.reg)) ∧
      u.reg 15 = s.reg 15 - BitVec.ofNat 32 (4 * rs.length) ∧ Frame [15] s u ∧ u.flags = s.flags := by
  induction rs generalizing s with
  | nil =>
    exact ⟨s, rfl, ⟨fun p hp => (List.not_mem_nil hp).elim, fun _ _ => rfl⟩, (BitVec.sub_zero _).symm,
      ⟨fun _ _ => rfl, rfl, rfl, rfl, rfl⟩, rfl⟩
  | cons r rs ih =>
    obtain ⟨hr, hrs⟩ : 15 ≠ r ∧ 15 ∉ rs := by simpa using hrs
    simp only [List.map_cons, pushedWords] at hl hm ⊢
    obtain ⟨hmhead, hmtail⟩ := List.forall_mem_cons.mp hm
    obtain ⟨t, ht, htv, htkept, htsp, ⟨htregs, htmode, htrun, htun, htirq⟩, htflags, -⟩ :=
      pushCompletes_push (d := r) hc hl.head_mod_four hmhead
    have hvals : rs.map t.reg = rs.map s.reg := List.map_congr_left fun q hq =>
      htregs q fun h => hrs (List.mem_singleton.mp h ▸ hq)
    have hct : t.condHolds c = true := by rwa [State.condHolds, htflags]
    have hpushes := ih hct hrs
    rw [htsp, hvals] at hpushes
    obtain ⟨u, hu, hustored, husp, ⟨huregs, humode, hurun, huun, huirq⟩, huflags⟩ :=
      hpushes hl.tail fun p hp => (State.mapped_congr htun htmode _ _ _).trans (hmtail p hp)
    refine ⟨u, ?_, .cons hl htv htkept hustored, ?_, ⟨fun q hq => (huregs q hq).trans (htregs q hq), humode.trans htmode,
      hurun.trans htrun, huun.trans htun, huirq.trans htirq⟩, huflags.trans htflags⟩
    · simp only [pushEach, ht, hu]
    · rw [husp, List.length_cons, Nat.mul_succ, BitVec.ofNat_add]
      ring

/-! ### The words of `storm` (R153) -/

section
variable {s : State} {m : Multi}

/-- The words that `storm` stores, in the order of the registers. -/
def blockStores (m : Multi) (s : State) : List (Word × Word) := (blockAddrs m s).zip (m.regs.map s.reg)

theorem exists_blockWord_of_mem_blockStores {p : Word × Word} (hp : p ∈ blockStores m s) :
    ∃ j, j < m.regs.length ∧ blockWord m s j = p.1 := by
  obtain ⟨haddr, -⟩ := List.of_mem_zip hp
  simpa [blockAddrs_eq_map] using haddr

theorem mapped_of_mem_blockStores (hacc : BlockAccepted m s .write) {p : Word × Word} (hp : p ∈ blockStores m s) :
    s.mapped .write p.1 .word = true := by
  obtain ⟨-, hmapped⟩ := hacc
  obtain ⟨j, hj, hpj⟩ := exists_blockWord_of_mem_blockStores hp
  exact hpj ▸ hmapped j hj

theorem wordsApart_blockStores (hacc : BlockAccepted m s .write) : WordsApart (blockStores m s) := by
  obtain ⟨haligned, -⟩ := hacc
  refine ⟨fun p hp => ?_, ?_⟩
  · obtain ⟨j, hj, hpj⟩ := exists_blockWord_of_mem_blockStores hp
    exact hpj ▸ blockWord_mod_four (haligned (List.ne_nil_of_length_pos (Nat.zero_lt_of_lt hj))) j
  · have hlen := m.length_regs_le
    rw [blockStores, List.map_fst_zip (by simp [blockAddrs])]
    exact nodup_wordAddrs _ (by omega)

/-- A `storm` completes exactly when it is not refused and its block is accepted (R133, R153). -/
theorem exec_storm_next_iff {c : Cond} {t : State} (hc : s.condHolds c = true) :
    exec (.storm c m) s = .next t ↔ m.wellFormed = true ∧ BlockAccepted m s .write ∧
      t = (writeBack m.wb m.base (blockNew m s) (storeWords s (blockStores m s))).advance := by
  rw [blockAccepted_iff_checkBlock, blockStores, ← storeMulti_ok, ← s.finish_next, ← State.perform_of_holds hc]
  rfl

/-- The pushes of the registers, the highest first, store the words of a block below the stack pointer (R133). -/
theorem pushedWords_eq_reverse_blockStores (hbase : m.base = 15) (hup : m.up = false) (hpre : m.pre = true) :
    pushedWords (s.reg 15) (m.regs.reverse.map s.reg) = (blockStores m s).reverse := by
  rw [← List.reverse_eq_iff, reverse_pushedWords, blockStores, blockAddrs, ← List.map_reverse, List.reverse_reverse]
  simp only [List.length_map, List.length_reverse, blockStart, hup, hpre, hbase, blockBytes]

end

/-! ### The obligation -/

/-- Settles O55: both store the words of the block, which the addresses keep apart; the base is none of the registers. -/
theorem stormEqualsPushes : Obligations.StormEqualsPushes := by
  intro s t c m hc hbase hup hpre hwb ht
  obtain ⟨hm, hacc, rfl⟩ := (exec_storm_next_iff hc).mp ht
  have hapart := wordsApart_blockStores hacc
  have hsp : 15 ∉ m.regs.reverse := by
    rw [List.mem_reverse, ← hbase]
    exact base_notMem_regs_of_wellFormed hm hwb
  have hpushed := pushedWords_eq_reverse_blockStores (s := s) hbase hup hpre
  have hpushes := pushEach_of_accepted hc hsp
  rw [hpushed] at hpushes
  obtain ⟨u, hu, hustored, husp, ⟨huregs, humode, hurun, -⟩, huflags⟩ :=
    hpushes hapart.reverse fun p hp => mapped_of_mem_blockStores hacc (List.mem_reverse.mp hp)
  obtain ⟨hregs, -, hflags, hmode, hrun, -⟩ := storeWords_frame s (blockStores m s)
  refine ⟨u, hu, fun k => ?_, fun r => ?_, ?_, ?_, ?_⟩
  · simpa using (wordsStored_storeWords s hapart).read_eq hustored.of_reverse k
  · rw [State.reg_advance, hbase]
    by_cases hr : r = 15
    · rw [hr, husp, reg_writeBack_base hwb, blockNew, hup, hbase, List.length_reverse]
      rfl
    · rw [huregs r (mt List.mem_singleton.mp hr), reg_writeBack_of_not (fun ⟨_, h⟩ => hr h), hregs]
  · simpa using huflags.trans hflags.symm
  · simpa using humode.trans hmode.symm
  · simpa using hurun.trans hrun.symm

end Sys2Proof.Machine
end

section
/-!
SUPPORT. The store group (44_store.md R150 to R158): what a single store, a block of stores and a push leave, and the flags word that
`pushf` saves and `popf` reads back.
-/

namespace Sys2Proof.Machine

/-! ### The write-back (R130, R133) -/

/-- After an effect on memory alone, the write-back and the step to the next pc change at most the base. -/
theorem frame_writeBack_advance {s t : State} (h : Frame [] s t) (wb : Bool) (b : Reg) (v : Word) :
    Frame (if wb then [b] else []) s (writeBack wb b v t).advance := by
  obtain ⟨hregs, hrest⟩ := h
  refine ⟨fun r hr => ?_, by simpa using hrest⟩
  have hbase : ¬(wb = true ∧ r = b) := fun hwb => hr (by simp [hwb])
  exact (reg_writeBack_of_not hbase v t).trans (hregs r List.not_mem_nil)

/-! ### The single stores (R150) -/

section
variable {i : Instr} {s : State} {c : Cond} {a : Single} {n : Size}

theorem exec_storeSingle_of_accepted (hc : s.condHolds c = true) (hi : exec i s = s.perform c (storeSingle n a s))
    (ha : (accessAddr a s).toNat % n.bytes = 0) (hm : s.mapped .write (accessAddr a s) n = true) :
    exec i s = .next (writeBack a.wb a.base (newBase a s) (s.storeBytes (accessAddr a s) n (s.reg a.data))).advance := by
  rw [hi, State.perform_of_holds hc, (storeSingle_ok n a s _).mpr ⟨(n.aligned_iff _).mpr ha, hm, rfl⟩, State.finish_ok]

theorem accessTraps_of_storeSingle (hc : s.condHolds c = true) (hi : exec i s = s.perform c (storeSingle n a s)) :
    AccessTraps i s .write (accessAddr a s) n := by
  refine accessTraps_of_checkAccess fun e he => ?_
  rw [hi, State.perform_of_holds hc, (storeSingle_error n a s e).mpr he]

end

/-- Settles O51: the three stores differ in the size of their access only. -/
theorem singleStoreResults : Obligations.SingleStoreResults := by
  intro s c a i n hmem hc
  have hi : exec i s = s.perform c (storeSingle n a s) := by
    simp only [List.mem_cons, List.not_mem_nil, or_false, Prod.mk.injEq] at hmem
    rcases hmem with ⟨rfl, rfl⟩ | ⟨rfl, rfl⟩ | ⟨rfl, rfl⟩
    all_goals rfl
  refine ⟨fun ha hm => ?_, accessTraps_of_storeSingle hc hi⟩
  refine ⟨_, exec_storeSingle_of_accepted hc hi ha hm, ?_, fun k hk => ?_, fun hwb => reg_writeBack_base hwb _ _ _,
    frame_writeBack_advance ⟨fun _ _ => rfl, rfl, rfl, rfl, rfl⟩ _ _ _, ?_⟩
  · simpa using s.holds_storeBytes (s.reg a.data) ha
  · simpa using memKeptOutside_storeBytes ha (s.reg a.data) k hk
  · simp

/-! ### The block of `storm` (R153) -/

section
variable {s : State} {c : Cond} {m : Multi}

theorem frame_storeWords (l : List (Word × Word)) : Frame [] s (storeWords s l) := by
  obtain ⟨hregs, -, -, hmode, hrun, hun, hirq⟩ := storeWords_frame s l
  exact ⟨fun r _ => hregs r, hmode, hrun, hun, hirq⟩

theorem mem_blockStores {k : Nat} (hk : k < m.regs.length) : (blockWord m s k, s.reg m.regs[k]) ∈ blockStores m s :=
  List.mem_iff_getElem.mpr ⟨k, by simp [blockStores, blockAddrs, hk], by simp [blockStores, blockAddrs_eq_map]⟩

theorem exec_storm_of_error {e : Stop} (hc : s.condHolds c = true) (h : storeMulti m s = .error e) :
    exec (.storm c m) s = s.finish (.error e) :=
  (State.perform_of_holds hc _).trans (congrArg s.finish h)

end

/-- Settles O52: the words of the block are stored apart from each other, after all the checks. -/
theorem stormResult : Obligations.StormResult := by
  intro s c m hc
  refine ⟨fun hm hacc => ?_, fun hm => blockTraps_of_checkBlock fun e he => ?_, fun hdes => ?_, fun hdes hwb hmem => ?_⟩
  · obtain ⟨hwords, hothers⟩ := wordsStored_storeWords s (wordsApart_blockStores hacc)
    obtain ⟨-, hpc, hflags, -⟩ := storeWords_frame s (blockStores m s)
    refine ⟨_, (exec_storm_next_iff hc).mpr ⟨hm, hacc, rfl⟩, fun k hk => ?_, fun j hj => ?_,
      fun hwb => reg_writeBack_base hwb _ _ _, frame_writeBack_advance (frame_storeWords _) _ _ _, ?_⟩
    · simpa using hwords _ (mem_blockStores hk)
    · have hout : ∀ p ∈ blockStores m s, j < p.1.toNat ∨ p.1.toNat + 4 ≤ j := fun p hp => by
        obtain ⟨k, hk, hkp⟩ := exists_blockWord_of_mem_blockStores hp
        exact hkp ▸ hj k hk
      simpa using hothers j hout
    · simp [hpc, hflags]
  · exact exec_storm_of_error hc ((storeMulti_error m s e).mpr (.inr ⟨hm, he⟩))
  · exact exec_storm_of_error hc ((storeMulti_error m s _).mpr (.inl (checkMulti_of_ne hdes)))
  · exact exec_storm_of_error hc ((storeMulti_error m s _).mpr (.inl (checkMulti_of_mem hdes hwb hmem)))

/-! ### The flags word (10_state.md R17) -/

/-- The four flags are the four low bits of the flags word. -/
theorem Flags.toWord_eq_ofNat (fl : Flags) :
    fl.toWord = BitVec.ofNat 32 (8 * fl.z.toNat + 4 * fl.n.toNat + 2 * fl.v.toNat + fl.c.toNat) := by
  obtain ⟨z, n, v, c⟩ := fl
  revert z n v c
  decide

/-- Reading the flags back from their word. -/
theorem Flags.ofWord_toWord (fl : Flags) : Flags.ofWord fl.toWord = fl := by
  obtain ⟨z, n, v, c⟩ := fl
  revert z n v c
  decide

/-! ### The pushes (R151, R156 to R158) -/

section
variable {i : Instr} {s t : State} {c : Cond} {v : Word}

/-- An instruction that is a push of `v` completes exactly when its store is accepted. -/
theorem exec_push_next_iff (hc : s.condHolds c = true) (hi : exec i s = s.perform c ((s.push v).map State.advance)) :
    exec i s = .next t ↔ (s.reg 15 - 4#32).toNat % 4 = 0 ∧ s.mapped .write (s.reg 15 - 4#32) .word = true ∧
      t = (s.pushed v).advance := by
  simp only [hi, State.perform_of_holds hc, State.finish_next, except_map_ok, State.push_eq_ok_iff, and_assoc,
    exists_and_left, exists_eq_left, eq_comm (b := t)]

theorem pushCompletes_of_push (hc : s.condHolds c = true) (hi : exec i s = s.perform c ((s.push v).map State.advance))
    (ha : (s.reg 15 - 4#32).toNat % 4 = 0) (hm : s.mapped .write (s.reg 15 - 4#32) .word = true) :
    PushCompletes i s v (s.pc + 4#32) :=
  pushCompletes_of_exec ha ((exec_push_next_iff hc hi).mpr ⟨ha, hm, rfl⟩)

theorem accessTraps_of_push (hc : s.condHolds c = true) (hi : exec i s = s.perform c ((s.push v).map State.advance)) :
    AccessTraps i s .write (s.reg 15 - 4#32) .word := by
  refine accessTraps_of_checkAccess fun e he => ?_
  rw [hi, State.perform_of_holds hc, (except_map_error _ _ e).mpr ((s.push_error v e).mpr he)]

end

/-- Settles O53: the three differ in the word they push only. -/
theorem pushResults : Obligations.PushResults := by
  intro s c d i v hmem hc
  have hi : exec i s = s.perform c ((s.push v).map State.advance) := by
    simp only [List.mem_cons, List.not_mem_nil, or_false, Prod.mk.injEq, ← Flags.toWord_eq_ofNat] at hmem
    rcases hmem with ⟨rfl, rfl⟩ | ⟨rfl, rfl⟩ | ⟨rfl, rfl⟩
    all_goals rfl
  exact ⟨pushCompletes_of_push hc hi, accessTraps_of_push hc hi⟩

/-- Settles O54: `popf` finds the flags word that `pushf` stored at the stack pointer, whatever the flags are by then. -/
theorem popfRestoresPushedFlags : Obligations.PopfRestoresPushedFlags := by
  intro s t c d fl hc hd ht hread
  obtain ⟨ha, hm, -⟩ := (exec_push_next_iff hc rfl).mp ht
  obtain ⟨t', ht', hholds, -, hsp, ⟨hregs, hmode, -, hun, -⟩, -⟩ := pushCompletes_of_push (i := .pushf c) hc rfl ha hm
  obtain rfl : t = t' := Host.Outcome.next.inj (ht.symm.trans ht')
  have hread' : t.mapped .read (t.reg 15) .word = true := by rwa [hsp, State.mapped_congr hun hmode]
  obtain ⟨hpop, -⟩ := popResults (t.setFlags fl) d 0 hd
  obtain ⟨-, u, hu, huflags, husp, ⟨huregs, -⟩, humem, -⟩ := hpop s.flags.toWord (hsp ▸ ha) hread' (hsp ▸ hholds)
  refine ⟨u, hu, huflags.trans s.flags.ofWord_toWord, fun r => ?_, humem⟩
  by_cases hr : r = 15
  · rw [hr, husp, State.reg_setFlags, hsp, BitVec.sub_add_cancel]
  · have hmem : r ∉ [15] := mt List.mem_singleton.mp hr
    rw [huregs r hmem, State.reg_setFlags, hregs r hmem]

end Sys2Proof.Machine
end

section
/-!
SUPPORT. The CPU control group (45_cpu_control.md R170 to R173) and the stopped CPU (60_exceptions.md R227). What a privileged instruction
does depends on its effect `t` only, so it is said once for the three.
-/

namespace Sys2Proof.Machine

/-! ### Privileged instructions (R170) -/

section
variable {i : Instr} {c : Cond} {w : Word} {s t : State}

/-- In Supervisor mode a privileged instruction has its effect. -/
theorem exec_privileged_of_supervisor (hc : s.condHolds c = true) (hi : exec i s = s.perform c (privileged w s t))
    (hm : s.mode = .supervisor) : exec i s = .next t :=
  hi.trans ((s.perform_next t c _).mpr (.inl ⟨hc, (privileged_ok w s t t).mpr ⟨hm, rfl⟩⟩))

/-- In User mode a privileged instruction traps, whatever its effect would be. -/
theorem exec_privileged_of_user (hc : s.condHolds c = true) (hi : exec i s = s.perform c (privileged w s t))
    (hm : s.mode = .user) : exec i s = .fault (.trapped (.privilegeViolation w) s) :=
  hi.trans ((s.perform_fault _ c _).mpr ⟨hc, _, (privileged_error w s t _).mpr ⟨hm, rfl⟩, rfl⟩)

end

/-! ### The obligations -/

/-- Settles O11: the step looks at the run state before it fetches. -/
theorem stoppedExecutesNothing : Obligations.StoppedExecutesNothing :=
  fun _ => step_of_stopped

/-- Settles O58: each of the three is a privileged instruction, and they differ in their effect only. -/
theorem cpuControlResults : Obligations.CpuControlResults := by
  intro s c i run mode hmem hc
  have hi : exec i s =
      s.perform c (privileged (encode i) s { s with run := run, mode := mode, pc := s.pc + 4#32 }) := by
    simp only [List.mem_cons, List.not_mem_nil, or_false, Prod.mk.injEq] at hmem
    rcases hmem with ⟨rfl, rfl, rfl⟩ | ⟨rfl, rfl, rfl⟩ | ⟨rfl, rfl, rfl⟩
    all_goals rfl
  exact ⟨exec_privileged_of_supervisor hc hi, exec_privileged_of_user hc hi⟩

end Sys2Proof.Machine
end

section
/-!
SUPPORT. The immediate group (46_immediate.md R180 to R187): what an instruction that writes a register leaves behind, and its immediate as
a number.
-/

namespace Sys2Proof.Machine

/-! ### One result, no flag (R180) -/

/-- An immediate instruction leaves what a logical instruction with its result and F=0 leaves (R80, R180). -/
theorem immResult_eq_logicalResult : immResult = logicalResult false := rfl

/-- Every instruction of the group that writes a register, when its condition holds. -/
theorem exec_immResult {i : Instr} {c : Cond} {d : Reg} {r : Word} {s : State} (hc : s.condHolds c = true)
    (hi : exec i s = s.perform c (.ok (immResult d r s))) : ∃ t, exec i s = .next t ∧ ResultWritten s t d r s.flags := by
  rw [immResult_eq_logicalResult] at hi
  exact exec_logicalResult hc hi

/-! ### The immediate (R58) -/

theorem immValue_eq_ofNat (n : BitVec 16) : immValue n = BitVec.ofNat 32 n.toNat := (BitVec.ofNat_toNat 32 n).symm

theorem immUpper_eq_ofNat (n : BitVec 16) : immUpper n = BitVec.ofNat 32 (n.toNat * 2 ^ 16) := by
  apply BitVec.eq_of_toNat_eq
  have hn := n.isLt
  rw [immUpper, BitVec.toNat_append, BitVec.toNat_ofNat, BitVec.toNat_ofNat, Nat.zero_mod, Nat.or_zero, Nat.shiftLeft_eq,
    Nat.mod_eq_of_lt (by omega)]

theorem immValue_eq_append (n : BitVec 16) : immValue n = 0#16 ++ n := BitVec.setWidth_eq_append (by decide)

/-- An upper and a lower immediate meet in no bit. -/
theorem immUpper_or_immValue (h l : BitVec 16) : immUpper h ||| immValue l = h ++ l := by
  rw [immUpper, immValue_eq_append, BitVec.or_append, BitVec.or_zero, BitVec.zero_or]

/-- A word is its two halfwords. -/
theorem append_halfwords (k : Word) : k.extractLsb' 16 16 ++ k.extractLsb' 0 16 = k := by
  rw [BitVec.extractLsb'_append_extractLsb'_eq_extractLsb' (start₂ := 16) (start₁ := 0) (len₁ := 16) rfl]
  exact BitVec.extractLsb'_eq_self

/-! ### Two instructions in a row -/

/-- What one instruction keeps and the next one keeps too, the two in a row keep. -/
theorem Frame.trans {rs : List Reg} {s t u : State} (h : Frame rs s t) (h' : Frame rs t u) : Frame rs s u := by
  obtain ⟨hreg, hmode, hrun, hun, hirq⟩ := h
  obtain ⟨hreg', hmode', hrun', hun', hirq'⟩ := h'
  exact ⟨fun r hr => (hreg' r hr).trans (hreg r hr), hmode'.trans hmode, hrun'.trans hrun, hun'.trans hun, hirq'.trans hirq⟩

/-! ### The obligations -/

/-- Settles O36: each of the seven writes its result through the group's one effect. -/
theorem immediateResults : Obligations.ImmediateResults := by
  intro s c d n i r hmem hc
  simp only [← immValue_eq_ofNat, ← immUpper_eq_ofNat, List.mem_cons, Prod.mk.injEq, List.not_mem_nil, or_false] at hmem
  rcases hmem with ⟨rfl, rfl⟩ | ⟨rfl, rfl⟩ | ⟨rfl, rfl⟩ | ⟨rfl, rfl⟩ | ⟨rfl, rfl⟩ | ⟨rfl, rfl⟩ | ⟨rfl, rfl⟩
  all_goals exact exec_immResult hc rfl

/-- Settles O37: `movuimm` keeps the flags, so the condition holds for `orimm` too, and the two halves meet in no bit. -/
theorem movuimmOrimmBuildConstant : Obligations.MovuimmOrimmBuildConstant := by
  intro s c d k hc
  obtain ⟨t, ht, htd, htframe, -, -, htflags⟩ := exec_immResult (i := .movuimm c d (k.extractLsb' 16 16)) hc rfl
  have hct : t.condHolds c = true := by rwa [State.condHolds, htflags]
  obtain ⟨u, hu, hud, huframe, -⟩ := exec_immResult (i := .orimm c d (k.extractLsb' 0 16)) hct rfl
  refine ⟨t, u, ht, hu, ?_, htframe.trans huframe⟩
  rw [hud, htd, immUpper_or_immValue, append_halfwords]

end Sys2Proof.Machine
end

section
/-!
SUPPORT. The branch and call group (47_branch_call.md R200 to R202): `call` is a call of the branch target, which is a multiple of 4 like
the pc, so the checks of the push are all that can stop it.
-/

namespace Sys2Proof.Machine

/-- Settles O41: `call` is a call of the branch target of R200, with no check of that target. -/
theorem callResult : Obligations.CallResult := by
  intro s c off hc
  rw [← branchTarget_eq_ofInt]
  have hi : exec (.call c off) s = s.perform c (callTo (branchTarget off s) s) := rfl
  refine ⟨fun ha hm => ?_, ?_, fun hpc => ?_⟩
  · exact pushCompletes_of_callTo hc hi ha hm
  · exact accessTraps_of_callTo hc hi
  · exact branchTarget_mod_four hpc off

end Sys2Proof.Machine
end

section
/-!
SUPPORT. The decoder and the encoder undo each other (30_encoding.md R51 to R68): the fields of a word are those it was assembled from, and
a word is assembled again from its fields once its reserved bits are known to be zero.
-/

namespace Sys2Proof

/-! ### Zero fields wider than a cell (R66) -/

theorem append_eq_zero_iff {m n : Nat} (x : BitVec m) (y : BitVec n) : x ++ y = 0#(m + n) ↔ x = 0#m ∧ y = 0#n := by
  constructor
  · intro h
    have hhigh := extract_append_high (k := m) x y le_rfl
    have hlow := extract_append_low (l := 0) (k := n) x y (by omega)
    rw [h, Nat.sub_self, extract_whole, BitVec.extractLsb'_zero] at hhigh
    rw [h, extract_whole, BitVec.extractLsb'_zero] at hlow
    exact ⟨hhigh.symm, hlow.symm⟩
  · rintro ⟨rfl, rfl⟩
    exact BitVec.zero_append_zero

/-- A field is zero exactly when its lowest cell and the field above that cell are. -/
theorem extract_eq_zero_iff (w : Word) (lo n : Nat) :
    w.extractLsb' lo (n + 4) = 0#(n + 4) ↔ w.extractLsb' (lo + 4) n = 0#n ∧ nibble w lo = 0#4 := by
  rw [← extract_append_nibble, append_eq_zero_iff, nibble]

theorem extract_4_8_eq_zero_iff (w : Word) : w.extractLsb' 4 8 = 0#8 ↔ nibble w 8 = 0#4 ∧ nibble w 4 = 0#4 :=
  extract_eq_zero_iff w 4 4

theorem extract_0_12_eq_zero_iff (w : Word) :
    w.extractLsb' 0 12 = 0#12 ↔ (nibble w 8 = 0#4 ∧ nibble w 4 = 0#4) ∧ nibble w 0 = 0#4 := by
  rw [extract_eq_zero_iff w 0 8, extract_4_8_eq_zero_iff]

theorem extract_0_20_eq_zero_iff (w : Word) : w.extractLsb' 0 20 = 0#20 ↔
    (((nibble w 16 = 0#4 ∧ nibble w 12 = 0#4) ∧ nibble w 8 = 0#4) ∧ nibble w 4 = 0#4) ∧ nibble w 0 = 0#4 := by
  rw [extract_eq_zero_iff w 0 16, extract_eq_zero_iff w 4 12, extract_eq_zero_iff w 8 8, extract_eq_zero_iff w 12 4]
  rfl

/-! ### A word is assembled from its fields (R52) -/

section
variable {w : Word}

/-- The Config cell as three don't-care bits and one bit (R56). -/
theorem nibble12_eq_configX (w : Word) : nibble w 12 = configX (x3Field w) (bitAt w 12) := by
  rw [x3_of_nibble, bitAt_config w 0 (by decide)]
  generalize nibble w 12 = k
  revert k
  decide

theorem asmImm_fields (hg : groupField w = 7) {p : BitVec 4} (hp : (opcodeField w).toNat = p.toNat) :
    asmImm (condOf w) p (des2Field w) (imm16Field w) = w := by
  rw [← BitVec.eq_of_toNat_eq hp, asmImm, condOf, Cond.bits_ofBits, show 7#4 = groupField w from hg.symm]
  change nibble w 28 ++ nibble w 24 ++ nibble w 20 ++ nibble w 16 ++ w.extractLsb' 0 16 = w
  simp only [nibble]
  rw [extract_append_nibble w 24, extract_append_nibble w 20, extract_append_nibble w 16,
    BitVec.extractLsb'_append_extractLsb'_eq_extractLsb' (start₂ := 16) (start₁ := 0) (len₁ := 16) rfl]
  exact extract_whole w

theorem asmBranch_fields {g : BitVec 4} (hg : groupField w = g) : asmBranch (condOf w) g (off24Field w) = w := by
  rw [← hg, asmBranch, condOf, Cond.bits_ofBits, condField, groupField, off24Field, nibble, nibble, extract_append_nibble w 24,
    BitVec.extractLsb'_append_extractLsb'_eq_extractLsb' (start₂ := 24) (start₁ := 0) (len₁ := 24) rfl]
  exact extract_whole w

/-- The two cells of `imm8` are SRC2 and DEST (R59). -/
theorem imm8_high (w : Word) : (imm8Field w).extractLsb' 4 4 = nibble w 4 := by
  rw [imm8_of_nibbles, extract_append_high _ _ le_rfl]
  exact extract_whole _

theorem imm8_low (w : Word) : (imm8Field w).extractLsb' 0 4 = nibble w 0 := by
  rw [imm8_of_nibbles, extract_append_low _ _ (by omega)]
  exact extract_whole _

theorem asmSingle_singleField {g p : BitVec 4} (hg : groupField w = g) (hp : (opcodeField w).toNat = p.toNat)
    (hs : singleSbz w = true) : asmSingle (condOf w) g p (singleField w) = w := by
  have hk := nibble12_eq_config w
  cases hi : bitAt w 15 with
  | false =>
    have hdes2 : nibble w 16 = 0 := by simpa [singleSbz, hi] using hs
    rw [hi] at hk
    simp only [asmSingle, singleField, hi]
    exact asmDefault_eq hg hp hdes2 hk rfl rfl rfl
  | true =>
    rw [hi] at hk
    simp only [asmSingle, singleField, hi]
    exact asmDefault_eq hg hp rfl hk rfl (imm8_high w).symm (imm8_low w).symm

theorem asmMulti_multiField {g : BitVec 4} (hg : groupField w = g) (hp : (opcodeField w).toNat = 1) :
    asmMulti (condOf w) g (multiField w) = w :=
  asmDefault_eq hg hp rfl (nibble12_eq_config w) rfl (imm8_high w).symm (imm8_low w).symm

theorem asmRegBranch_fields {p : BitVec 4} (hg : groupField w = 2) (hp : (opcodeField w).toNat = p.toNat)
    (hs : (nibble w 16 == 0 && nibble w 0 == 0 && (bitAt w 12 || nibble w 4 == 0)) = true) :
    asmRegBranch (condOf w) p (x3Field w) (src1Field w) (cfOffset w) = w := by
  simp only [Bool.and_eq_true, beq_iff_eq] at hs
  obtain ⟨⟨hdes2, hdest⟩, hsrc2⟩ := hs
  have hk := nibble12_eq_configX w
  cases ho : bitAt w 12 with
  | false =>
    have hzero : nibble w 4 = 0 := by simpa [ho] using hsrc2
    simp only [ho, asmRegBranch, cfOffset] at hk ⊢
    exact asmDefault_eq hg hp hdes2 hk rfl hzero hdest
  | true =>
    simp only [ho, asmRegBranch, cfOffset] at hk ⊢
    exact asmDefault_eq hg hp hdes2 hk rfl rfl hdest

/-! ### The encoder after the decoder, group by group -/

theorem encode_of_decodeLogical {i : Instr} (hg : groupField w = 0) (h : decodeLogical w = .ok i) : encode i = w := by
  have hk := nibble12_eq_configX w
  unfold decodeLogical at h
  split at h
  case h_11 => cases h
  all_goals
    rename_i hp
    obtain ⟨hs, -, rfl⟩ := legal_eq_ok.mp h
    simp only [Bool.and_eq_true, beq_iff_eq] at hs
  case h_5 | h_8 | h_9 | h_10 =>
    obtain ⟨hdes2, hsrc2⟩ := hs
    exact asmDefault_eq hg hp hdes2 hk rfl hsrc2 rfl
  all_goals exact asmDefault_eq hg hp hs hk rfl rfl rfl

theorem encode_of_decodeControl {i : Instr} (hg : groupField w = 2) (h : decodeControl w = .ok i) : encode i = w := by
  simp only [decodeControl] at h
  split at h
  case isTrue hp =>
    obtain ⟨hs, -, rfl⟩ := legal_eq_ok.mp h
    exact asmRegBranch_fields hg hp hs
  split at h
  case isTrue hp =>
    obtain ⟨hs, -, rfl⟩ := legal_eq_ok.mp h
    exact asmRegBranch_fields hg hp hs
  split at h
  case isTrue hp =>
    obtain ⟨hs, ho, rfl⟩ := legal_eq_ok.mp h
    simp only [Bool.and_eq_true, beq_iff_eq, Bool.not_eq_true', BitVec.ofNat_eq_ofNat, extract_0_12_eq_zero_iff] at hs ho
    obtain ⟨⟨hdes2, hx⟩, ⟨hsrc1, hsrc2⟩, hdest⟩ := hs
    have hk := nibble12_eq_configX w
    rw [hx, ho] at hk
    exact asmDefault_eq hg hp hdes2 hk hsrc1 hsrc2 hdest
  case isFalse => cases h

/-- Of a stack form the cell DEST alone may differ from zero (R66, R68). -/
theorem asmDefault_stack {g p : BitVec 4} (hg : groupField w = g) (hp : (opcodeField w).toNat = p.toNat) (hs : stackSbz w = true)
    (hk : stackConfig w = true) : asmDefault (condOf w) g p 0 0 0 0 (nibble w 0) = w := by
  simp only [stackSbz, stackConfig, Bool.and_eq_true, beq_iff_eq, BitVec.ofNat_eq_ofNat, extract_4_8_eq_zero_iff] at hs hk
  obtain ⟨hdes2, hsrc1, hsrc2⟩ := hs
  exact asmDefault_eq hg hp hdes2 hk hsrc1 hsrc2 rfl

/-- The stack forms that name no register (R66). -/
theorem asmDefault_stack_zero {g p : BitVec 4} (hg : groupField w = g) (hp : (opcodeField w).toNat = p.toNat)
    (hs : (stackSbz w && nibble w 0 == 0) = true) (hk : stackConfig w = true) : asmDefault (condOf w) g p 0 0 0 0 0 = w := by
  rw [Bool.and_eq_true, beq_iff_eq] at hs
  obtain ⟨hs, hdest⟩ := hs
  simpa only [hdest] using asmDefault_stack hg hp hs hk

theorem encode_of_decodeLoad {i : Instr} (hg : groupField w = 3) (h : decodeLoad w = .ok i) : encode i = w := by
  unfold decodeLoad at h
  split at h
  case h_9 => cases h
  all_goals
    rename_i hp
    obtain ⟨hs, hc, rfl⟩ := legal_eq_ok.mp h
  case h_2 => exact asmMulti_multiField hg hp
  case h_5 => exact asmDefault_stack hg hp hs hc
  case h_7 => exact asmDefault_stack_zero hg hp hs hc
  all_goals exact asmSingle_singleField hg hp hs

theorem encode_of_decodeStore {i : Instr} (hg : groupField w = 4) (h : decodeStore w = .ok i) : encode i = w := by
  unfold decodeStore at h
  split at h
  case h_8 => cases h
  all_goals
    rename_i hp
    obtain ⟨hs, hc, rfl⟩ := legal_eq_ok.mp h
  case h_2 => exact asmMulti_multiField hg hp
  case h_5 => exact asmDefault_stack hg hp hs hc
  case h_6 | h_7 => exact asmDefault_stack_zero hg hp hs hc
  all_goals exact asmSingle_singleField hg hp hs

theorem encode_of_decodeCpuControl {i : Instr} (hg : groupField w = 6) (h : decodeCpuControl w = .ok i) : encode i = w := by
  unfold decodeCpuControl at h
  split at h
  case h_4 => cases h
  all_goals
    rename_i hp
    obtain ⟨hs, -, rfl⟩ := legal_eq_ok.mp h
    simp only [beq_iff_eq, BitVec.ofNat_eq_ofNat, extract_0_20_eq_zero_iff] at hs
    obtain ⟨⟨⟨⟨hdes2, hk⟩, hsrc1⟩, hsrc2⟩, hdest⟩ := hs
    exact asmDefault_eq hg hp hdes2 hk hsrc1 hsrc2 hdest

theorem encode_of_decodeImmediate {i : Instr} (hg : groupField w = 7) (h : decodeImmediate w = .ok i) : encode i = w := by
  unfold decodeImmediate at h
  split at h
  case h_9 => cases h
  all_goals
    rename_i hp
    cases h
    exact asmImm_fields hg hp

end

/-- Settles O2: the group selects the decoder, and each decoder keeps every bit of the words it accepts. -/
theorem encodeRecoversDecodedWord : Obligations.EncodeRecoversDecodedWord := by
  intro w i h
  unfold decodeWord at h
  split at h
  case h_10 => cases h
  case h_1 hg => exact encode_of_decodeLogical (BitVec.eq_of_toNat_eq hg) h
  case h_2 hg => exact encode_of_decodeArithmetic (BitVec.eq_of_toNat_eq hg) h
  case h_3 hg => exact encode_of_decodeControl (BitVec.eq_of_toNat_eq hg) h
  case h_4 hg => exact encode_of_decodeLoad (BitVec.eq_of_toNat_eq hg) h
  case h_5 hg => exact encode_of_decodeStore (BitVec.eq_of_toNat_eq hg) h
  case h_6 hg => exact encode_of_decodeCpuControl (BitVec.eq_of_toNat_eq hg) h
  case h_7 hg => exact encode_of_decodeImmediate (BitVec.eq_of_toNat_eq hg) h
  case h_8 hg | h_9 hg =>
    cases h
    exact asmBranch_fields (BitVec.eq_of_toNat_eq hg)

/-! ### The fields of an assembled word (R51) -/

section
variable (c : Cond) (g p h k a b d : BitVec 4)

@[simp] theorem src1Field_asmDefault : src1Field (asmDefault c g p h k a b d) = a.toFin := by simp [src1Field, regField]
@[simp] theorem src2Field_asmDefault : src2Field (asmDefault c g p h k a b d) = b.toFin := by simp [src2Field, regField]
@[simp] theorem destField_asmDefault : destField (asmDefault c g p h k a b d) = d.toFin := by simp [destField, regField]
@[simp] theorem des2Field_asmDefault : des2Field (asmDefault c g p h k a b d) = h.toFin := by simp [des2Field, regField]
@[simp] theorem imm8Field_asmDefault : imm8Field (asmDefault c g p h k a b d) = b ++ d := by simp [imm8_of_nibbles]
@[simp] theorem x3Field_asmDefault : x3Field (asmDefault c g p h k a b d) = k.extractLsb' 1 3 := by simp [x3_of_nibble]

theorem bitAt_asmDefault {i : Nat} (hi : i < 4) : bitAt (asmDefault c g p h k a b d) (12 + i) = k.getLsbD i := by
  rw [bitAt_config _ i hi, nibble12_asmDefault]

variable (x y z t : Bool) (v : BitVec 3)

@[simp] theorem bit15_asmDefault : bitAt (asmDefault c g p h (config x y z t) a b d) 15 = x :=
  (bitAt_asmDefault c g p h _ a b d (i := 3) (by decide)).trans (config_bit3 x y z t)
@[simp] theorem bit14_asmDefault : bitAt (asmDefault c g p h (config x y z t) a b d) 14 = y :=
  (bitAt_asmDefault c g p h _ a b d (i := 2) (by decide)).trans (config_bit2 x y z t)
@[simp] theorem bit13_asmDefault : bitAt (asmDefault c g p h (config x y z t) a b d) 13 = z :=
  (bitAt_asmDefault c g p h _ a b d (i := 1) (by decide)).trans (config_bit1 x y z t)
@[simp] theorem bit12_asmDefault : bitAt (asmDefault c g p h (config x y z t) a b d) 12 = t :=
  (bitAt_asmDefault c g p h _ a b d (i := 0) (by decide)).trans (config_bit0 x y z t)
@[simp] theorem bit12_asmDefault_configX : bitAt (asmDefault c g p h (configX v t) a b d) 12 = t :=
  (bitAt_asmDefault c g p h _ a b d (i := 0) (by decide)).trans (configX_bit0 v t)
@[simp] theorem bit12_asmDefault_zero : bitAt (asmDefault c g p h 0#4 a b d) 12 = false :=
  bitAt_asmDefault c g p h 0#4 a b d (i := 0) (by decide)

end

/-- An immediate is its two cells (R59). -/
theorem append_extract_cells (v : BitVec 8) : v.extractLsb' 4 4 ++ v.extractLsb' 0 4 = v := by
  rw [BitVec.extractLsb'_append_extractLsb'_eq_extractLsb' (start₂ := 4) (start₁ := 0) (len₁ := 4) rfl]
  exact extract_whole v

section
variable (c : Cond) (g p : BitVec 4)

@[simp] theorem singleField_asmSingle (a : Single) : singleField (asmSingle c g p a) = a := by
  obtain ⟨base, data, offset, up, pre, wb⟩ := a
  cases offset with
  | reg r => simp [asmSingle, singleField]
  | imm v => simp [asmSingle, singleField, append_extract_cells]

@[simp] theorem singleSbz_asmSingle (a : Single) : singleSbz (asmSingle c g p a) = true := by
  unfold asmSingle
  split
  · simp [singleSbz]
  · simp [singleSbz]

@[simp] theorem group_asmMulti (m : Multi) : groupField (asmMulti c g m) = g := by simp [asmMulti]
@[simp] theorem opcode_asmMulti (m : Multi) : opcodeField (asmMulti c g m) = 1 := by simp [asmMulti]
@[simp] theorem multiField_asmMulti (m : Multi) : multiField (asmMulti c g m) = m := by
  simp [asmMulti, multiField, append_extract_cells]

@[simp] theorem stackSbz_asmDefault (d : BitVec 4) : stackSbz (asmDefault c g p 0#4 0#4 0#4 0#4 d) = true := by
  simp [stackSbz, extract_4_8_eq_zero_iff]
@[simp] theorem stackConfig_asmDefault (d : BitVec 4) : stackConfig (asmDefault c g p 0#4 0#4 0#4 0#4 d) = true := by
  simp [stackConfig]
@[simp] theorem low12_asmDefault (h k : BitVec 4) : (asmDefault c g p h k 0#4 0#4 0#4).extractLsb' 0 12 = 0#12 := by
  simp [extract_0_12_eq_zero_iff]
@[simp] theorem low20_asmDefault : (asmDefault c g p 0#4 0#4 0#4 0#4 0#4).extractLsb' 0 20 = 0#20 := by
  simp [extract_0_20_eq_zero_iff]

end

/-! ### The decoder after the encoder -/

/-- Each format's decoder reads back the fields that its assembler wrote, and finds the reserved bits zero. -/
theorem decodeWord_encode (i : Instr) : decodeWord (encode i) = .ok i := by
  cases i with
  | and | or | xor | nand | not | nor | xnor | cntlz | cntlo | popcnt =>
    simp [encode, condOf, decodeWord, decodeLogical, legal_of_clear]
  | add | sub | addc | subc | neg | comp | mult | div | rem | lmul =>
    simp [encode, condOf, decodeWord, decodeArithmetic, legal_of_clear]
  | rbra _ _ _ off | rcall _ _ _ off =>
    cases off with
    | none => simp [encode, asmRegBranch, condOf, decodeWord, decodeControl, cfOffset, legal_of_clear]
    | some r => simp [encode, asmRegBranch, condOf, decodeWord, decodeControl, cfOffset, legal_of_clear]
  | ret => simp [encode, condOf, decodeWord, decodeControl, retOpcode, legal_of_clear]
  | load | loadm | loadb | loadh | pop | loadbe | popf | loadhe =>
    simp [encode, condOf, decodeWord, decodeLoad, legal_of_clear]
  | stor | storm | storb | storh | push | pushpc | pushf =>
    simp [encode, condOf, decodeWord, decodeStore, legal_of_clear]
  | stop | wait | switchm =>
    simp [encode, condOf, decodeWord, decodeCpuControl, legal_of_clear]
  | movimm | movuimm | andimm | orimm | xorimm | addimm | subimm | compimm =>
    simp [encode, condOf, decodeWord, decodeImmediate, des2Field, regField]
  | bra | call => simp [encode, condOf, decodeWord]

/-- Settles O1: one case per format. -/
theorem decodeOfEncodeIsIdentity : Obligations.DecodeOfEncodeIsIdentity := decodeWord_encode

end Sys2Proof
end

section
/-!
SUPPORT. Exceptions, the waiting state and the mode (60_exceptions.md R213, R221, R225): the state an exception hands over, the sample of
the interrupt input, and what changes the mode.
-/

namespace Sys2Proof.Machine

/-! ### The exceptions of a running CPU (R213) -/

theorem exec_trapped {i : Instr} {s u : State} {e : Exception} (h : exec i s = .fault (.trapped e u)) : u = s := by
  obtain ⟨b, hb⟩ := exec_perform i s
  obtain ⟨-, x, -, hx⟩ := (s.perform_fault _ _ b).mp (hb.symm.trans h)
  cases hx
  rfl

theorem rejectWord_trapped {s u : State} {w : Word} {r : Reject} {e : Exception} (h : s.rejectWord w r = .fault (.trapped e u)) :
    u = s := by
  cases r with
  | illegal | truncated =>
    cases h
    rfl
  | sbz | configNotAvailable => cases h

/-- A running CPU traps in its fetch, in its decoder or in its instruction, each with the state before it. -/
theorem runInstr_trapped {s u : State} {e : Exception} (h : s.runInstr = .fault (.trapped e u)) : u = s := by
  unfold State.runInstr at h
  split at h
  · obtain ⟨x, -, hx⟩ := (s.finish_fault _ _).mp h
    cases hx
    rfl
  · split at h
    · exact rejectWord_trapped h
    · exact exec_trapped h

/-! ### The waiting state (R221, R227) -/

theorem pollInterrupt_of_pending {s : State} (h : Config.irqPending s.irqPolls = true) :
    s.pollInterrupt = .fault (.interrupted { s with run := .running, irqPolls := s.irqPolls + 1 }) := by
  simp only [State.pollInterrupt, h, if_true]

theorem pollInterrupt_of_not_pending {s : State} (h : Config.irqPending s.irqPolls = false) :
    s.pollInterrupt = .next { s with irqPolls := s.irqPolls + 1 } := by
  simp only [State.pollInterrupt, h, Bool.false_eq_true, if_false]

/-- Settles O12: the sample of the interrupt input decides. -/
theorem waitingSamplesInterrupt : Obligations.WaitingSamplesInterrupt := by
  intro s hr
  rw [step_of_waiting hr]
  refine ⟨pollInterrupt_of_pending, fun h => ⟨_, pollInterrupt_of_not_pending h, ?_, rfl, rfl, rfl, rfl⟩⟩
  exact ⟨fun _ _ => rfl, rfl, rfl, rfl, rfl⟩

/-! ### The exceptions of a step (R213) -/

/-- Settles O16: only a running CPU traps. -/
theorem exceptionsArePrecise : Obligations.ExceptionsArePrecise := by
  intro s u e h
  cases hr : s.run with
  | stopped =>
    rw [step_of_stopped hr] at h
    cases h
  | waiting =>
    rw [step_of_waiting hr] at h
    cases hirq : Config.irqPending s.irqPolls with
    | true =>
      rw [pollInterrupt_of_pending hirq] at h
      cases h
    | false =>
      rw [pollInterrupt_of_not_pending hirq] at h
      cases h
  | running =>
    rw [step_of_running hr] at h
    exact runInstr_trapped h

/-! ### The mode (R225) -/

theorem Updates.mode_eq {i : Instr} {s u : State} (h : Updates i s u) : u.mode = s.mode := by
  obtain ⟨-, hmode, -⟩ := h.frame
  exact hmode

theorem Completes.mode {i : Instr} {s t : State} (h : Completes i s t) :
    t.mode = s.mode ∨ (s.mode = .supervisor ∧ t.mode = .user ∧ ∃ c, i = .switchm c) := by
  cases h with
  | advance hu => exact .inl hu.mode_eq
  | jump _ _ hu => exact .inl hu.mode_eq
  | branch _ hu => exact .inl hu.mode_eq
  | stop | wait => exact .inl rfl
  | switchm c hi hm => exact .inr ⟨hm, rfl, c, hi⟩

/-- Settles O17: of the completed instructions `switchm` alone changes the mode. -/
theorem modeChangesOnlyBySwitchm : Obligations.ModeChangesOnlyBySwitchm := by
  intro s t h
  obtain ⟨-, rfl⟩ | ⟨-, rfl⟩ | ⟨-, w, i, hf, hd, hx⟩ := step_next h
  · exact .inl rfl
  · exact .inl rfl
  · obtain hmode | ⟨hm, ht, c, rfl⟩ := (exec_completes hx).mode
    · exact .inl hmode
    · exact .inr ⟨hm, ht, w, c, hf, hd⟩

end Sys2Proof.Machine
end

section
/-!
SUPPORT. Overflow (41_arithmetic.md R101, 60_exceptions.md R212): the additive effect alone raises it, with O=1; with O=0 the same overflow
shows in V.
-/

namespace Sys2Proof.Machine

/-! ### Effects that never overflow -/

/-- The effect does not raise Overflow. -/
def NeverOverflows {α : Type} (b : Except Stop α) : Prop := ∀ w, b ≠ .error (.raise (.overflow w))

section
variable {α β : Type} {s : State}

theorem NeverOverflows.ok (x : α) : NeverOverflows (.ok x : Except Stop α) := nofun

theorem NeverOverflows.refuse (r : Refusal) : NeverOverflows (.error (.refuse r) : Except Stop α) := nofun

theorem NeverOverflows.map {b : Except Stop α} (f : α → β) (h : NeverOverflows b) : NeverOverflows (b.map f) :=
  fun w hw => h w ((except_map_error _ _ _).mp hw)

theorem NeverOverflows.bind {b : Except Stop α} {f : α → Except Stop β} (h : NeverOverflows b) (hf : ∀ x, NeverOverflows (f x)) :
    NeverOverflows (b.bind f) := by
  intro w hw
  obtain hb | ⟨x, -, hx⟩ := (except_bind_error _ _ _).mp hw
  · exact h w hb
  · exact hf x w hx

theorem NeverOverflows.ite {p : Prop} [Decidable p] {b b' : Except Stop α} (h : NeverOverflows b) (h' : NeverOverflows b') :
    NeverOverflows (if p then b else b') := by
  split
  · exact h
  · exact h'

/-- The exceptions of an access record an address (R210). -/
theorem NeverOverflows.checkAccess (k : AccessKind) (a : Word) (n : Size) : NeverOverflows (s.checkAccess k a n) := by
  intro w hw
  obtain ⟨-, he⟩ | ⟨-, -, he⟩ := (s.checkAccess_error k a n _).mp hw
  · cases he
  · cases he

theorem NeverOverflows.readMem (k : AccessKind) (a : Word) (n : Size) : NeverOverflows (s.readMem k a n) := by
  intro w hw
  obtain ⟨-, he⟩ | ⟨-, -, he⟩ | ⟨-, -, b, -, -, he⟩ := State.readMem_error hw
  · cases he
  · cases he
  · cases he

theorem NeverOverflows.readWords (as : List Word) : NeverOverflows (readWords s as) := by
  intro w hw
  obtain ⟨b, -, he⟩ := readWords_error hw
  cases he

theorem NeverOverflows.checkBlock (k : AccessKind) (as : List Word) : NeverOverflows (checkBlock s k as) := by
  cases as with
  | nil => exact .ok ()
  | cons a as =>
    refine .ite (fun w hw => ?_) nofun
    obtain ⟨x, -, -, he⟩ := checkPlatform_error hw
    cases he

theorem NeverOverflows.checkTarget (t : Word) : NeverOverflows (checkTarget t) := .ite (.ok ()) nofun

theorem NeverOverflows.checkDivisor (w b : Word) : NeverOverflows (checkDivisor w b) := .ite nofun (.ok ())

theorem NeverOverflows.checkMulti (m : Multi) : NeverOverflows (checkMulti m) := .ite (.refuse _) (.ite (.refuse _) (.ok ()))

theorem NeverOverflows.privileged (w : Word) (t : State) : NeverOverflows (privileged w s t) := by
  intro v hv
  obtain ⟨-, he⟩ := (privileged_error w s t _).mp hv
  cases he

theorem NeverOverflows.push (v : Word) : NeverOverflows (s.push v) :=
  fun w hw => NeverOverflows.checkAccess _ _ _ w ((s.push_error v _).mp hw)

theorem NeverOverflows.pop : NeverOverflows s.pop := .map _ (.readMem _ _ _)

theorem NeverOverflows.callTo (t : Word) : NeverOverflows (callTo t s) := .map _ (.push _)

theorem NeverOverflows.loadSingle (n : Size) (ext : Word → Word) (a : Single) : NeverOverflows (loadSingle n ext a s) :=
  .ite (.refuse _) (.map _ (.readMem _ _ _))

theorem NeverOverflows.loadMulti (m : Multi) : NeverOverflows (loadMulti m s) :=
  .bind (.checkMulti m) fun _ => .bind (.checkBlock _ _) fun _ => .map _ (.readWords _)

theorem NeverOverflows.storeSingle (n : Size) (a : Single) : NeverOverflows (storeSingle n a s) :=
  fun w hw => NeverOverflows.checkAccess _ _ _ w ((storeSingle_error n a s _).mp hw)

theorem NeverOverflows.storeMulti (m : Multi) : NeverOverflows (storeMulti m s) :=
  .bind (.checkMulti m) fun _ => .map _ (.checkBlock _ _)

/-! ### The instructions that raise Overflow (R212) -/

/-- An instruction whose effect never overflows does not raise Overflow. -/
theorem NeverOverflows.elim {p : Prop} {u : State} {c : Cond} {b : Except Stop State} {w : Word} (hb : NeverOverflows b)
    (h : s.perform c b = .fault (.trapped (.overflow w) u)) : p := by
  obtain ⟨-, e, he, hf⟩ := (s.perform_fault _ c b).mp h
  cases hf
  exact absurd he (hb w)

/-- An additive instruction that raised Overflow has O=1, and recorded its own word (R101, R210). -/
theorem overflow_of_additive {u : State} {c : Cond} {v w : Word} {o f : Bool} {a b : Word} {cin : Bool} {d : Option Reg}
    (h : s.perform c (additive v o f a b cin d s) = .fault (.trapped (.overflow w) u)) : w = v ∧ o = true := by
  obtain ⟨-, e, he, hf⟩ := (s.perform_fault _ c _).mp h
  cases hf
  obtain ⟨ho, hw⟩ := (additive_error v o f a b cin d s _).mp he
  cases hw
  exact ⟨rfl, (Bool.and_eq_true_iff.mp ho).1⟩

end

/-- The six instructions that can raise Overflow, with O=1. -/
def TrapsOverflow (i : Instr) : Prop :=
  ∃ c x f a b d, i ∈ [Instr.add c x true f a b d, .sub c x true f a b d, .addc c x true f a b d, .subc c x true f a b d,
    .neg c x true f a d, .comp c x true a b]

theorem exec_overflow {i : Instr} {s u : State} {w : Word} (h : exec i s = .fault (.trapped (.overflow w) u)) :
    w = encode i ∧ TrapsOverflow i := by
  cases i with
  | add c x _ f a b d | sub c x _ f a b d | addc c x _ f a b d | subc c x _ f a b d =>
    obtain ⟨rfl, rfl⟩ := overflow_of_additive h
    exact ⟨rfl, c, x, f, a, b, d, by simp⟩
  | neg c x _ f a d =>
    obtain ⟨rfl, rfl⟩ := overflow_of_additive h
    exact ⟨rfl, c, x, f, a, a, d, by simp⟩
  | comp c x _ a b =>
    obtain ⟨rfl, rfl⟩ := overflow_of_additive h
    exact ⟨rfl, c, x, true, a, b, a, by simp⟩
  | and | or | xor | nand | not | nor | xnor | cntlz | cntlo | popcnt | mult => exact NeverOverflows.elim (.ok _) h
  | div | rem => exact NeverOverflows.elim (.map _ (.checkDivisor _ _)) h
  | lmul => exact NeverOverflows.elim (.ite (.refuse _) (.ok _)) h
  | rbra => exact NeverOverflows.elim (.map _ (.checkTarget _)) h
  | rcall => exact NeverOverflows.elim (.bind (.checkTarget _) fun _ => .callTo _) h
  | ret => exact NeverOverflows.elim (.bind .pop fun _ => .map _ (.checkTarget _)) h
  | load | loadb | loadh | loadbe | loadhe => exact NeverOverflows.elim (.loadSingle _ _ _) h
  | loadm => exact NeverOverflows.elim (.loadMulti _) h
  | pop => exact NeverOverflows.elim (.ite (.refuse _) (.map _ .pop)) h
  | popf => exact NeverOverflows.elim (.map _ .pop) h
  | stor | storb | storh => exact NeverOverflows.elim (.storeSingle _ _) h
  | storm => exact NeverOverflows.elim (.storeMulti _) h
  | push | pushpc | pushf => exact NeverOverflows.elim (.map _ (.push _)) h
  | stop | wait | switchm => exact NeverOverflows.elim (.privileged _ _) h
  | movimm | movuimm | andimm | orimm | xorimm | addimm | subimm | compimm => exact NeverOverflows.elim (.ok _) h
  | bra => exact NeverOverflows.elim (.ok _) h
  | call => exact NeverOverflows.elim (.callTo _) h

/-- With O=0 an overflow shows in V alone, when the flags are written (R101, R212). -/
theorem flag_v_of_additive {i : Instr} {c : Cond} {f cin cy : Bool} {a b : Word} {d : Option Reg} {s : State} {e : Int}
    (hc : s.condHolds c = true) (hi : exec i s = s.perform c (additive (encode i) false f a b cin d s))
    (hsum : addWithCarry a b cin = (BitVec.ofInt 32 e, exactFlags e cy)) :
    ∃ t, exec i s = .next t ∧ t.flags.v = if f then decide ((BitVec.ofInt 32 e).toInt ≠ e) else s.flags.v := by
  obtain ⟨hok, -⟩ := exec_additive hc hi hsum
  obtain ⟨t, ht, -, -, -, -, hflags⟩ := hok (.inl rfl)
  refine ⟨t, ht, ?_⟩
  rw [hflags, apply_ite Flags.v]
  rfl

/-- Settles O29: an additive effect is the only one that raises Overflow, and it looks at O first. -/
theorem overflowOnlyWithO : Obligations.OverflowOnlyWithO := by
  refine ⟨fun i s u w h => exec_overflow h, fun s c x f g a b d i e hmem hc => ?_⟩
  simp only [List.mem_cons, Prod.mk.injEq, List.not_mem_nil, or_false] at hmem
  rcases hmem with ⟨rfl, rfl, rfl⟩ | ⟨rfl, rfl, rfl⟩ | ⟨rfl, rfl, rfl⟩ | ⟨rfl, rfl, rfl⟩ | ⟨rfl, rfl, rfl⟩ | ⟨rfl, rfl, rfl⟩
  · exact flag_v_of_additive hc rfl (by simpa using addWithCarry_eq (s.reg a) (s.reg b) false)
  · exact flag_v_of_additive hc rfl (addWithCarry_not_true _ _)
  · exact flag_v_of_additive hc rfl (addWithCarry_eq _ _ _)
  · exact flag_v_of_additive hc rfl (addWithCarry_not _ _ _)
  · exact flag_v_of_additive hc rfl (by simpa using addWithCarry_not_true 0#32 (s.reg a))
  · exact flag_v_of_additive hc rfl (addWithCarry_not_true _ _)

end Sys2Proof.Machine
end

section
/-!
SUPPORT. The two modes (60_exceptions.md R225). On a platform whose map does not depend on the mode, an effect in another mode is the same
effect with the mode of its result replaced; this is said once for each operation, then for each family.
-/

namespace Sys2Proof.Machine

/-- The state in another mode. -/
def State.inMode (md : Mode) (s : State) : State := { s with mode := md }

/-- The platform's map names no mode (20_memory.md R40). -/
def State.MapIgnoresMode (s : State) : Prop := ∀ r ∈ s.unmapped, r.mode = none

section
variable (md : Mode) (s : State)

/-! ### The updates of the state -/

@[simp] theorem State.inMode_flags : (s.inMode md).flags = s.flags := rfl
@[simp] theorem State.inMode_mem : (s.inMode md).mem = s.mem := rfl
@[simp] theorem State.reg_inMode (r : Reg) : (s.inMode md).reg r = s.reg r := rfl
@[simp] theorem State.setReg_inMode (r : Reg) (v : Word) : (s.inMode md).setReg r v = (s.setReg r v).inMode md := rfl
@[simp] theorem State.setPc_inMode (t : Word) : (s.inMode md).setPc t = (s.setPc t).inMode md := rfl
@[simp] theorem State.advance_inMode : (s.inMode md).advance = s.advance.inMode md := rfl
@[simp] theorem State.setFlags_inMode (fl : Flags) : (s.inMode md).setFlags fl = (s.setFlags fl).inMode md := rfl
@[simp] theorem State.storeBytes_inMode (a : Word) (n : Size) (v : Word) :
    (s.inMode md).storeBytes a n v = (s.storeBytes a n v).inMode md := rfl

@[simp] theorem State.setFlagsIf_inMode (f : Bool) (fl : Flags) :
    (s.inMode md).setFlagsIf f fl = (s.setFlagsIf f fl).inMode md := by cases f <;> rfl
@[simp] theorem writeBack_inMode (wb : Bool) (b : Reg) (v : Word) :
    writeBack wb b v (s.inMode md) = (writeBack wb b v s).inMode md := by cases wb <;> rfl
@[simp] theorem writeDest_inMode (d : Option Reg) (v : Word) :
    writeDest d v (s.inMode md) = (writeDest d v s).inMode md := by cases d <;> rfl

@[simp] theorem State.setRegs_inMode (l : List (Reg × Word)) : (s.inMode md).setRegs l = (s.setRegs l).inMode md := by
  induction l generalizing s with
  | nil => rfl
  | cons p l ih => exact ih (s.setReg p.1 p.2)

@[simp] theorem storeWords_inMode (l : List (Word × Word)) : storeWords (s.inMode md) l = (storeWords s l).inMode md := by
  induction l generalizing s with
  | nil => rfl
  | cons p l ih => exact ih (s.storeBytes p.1 .word p.2)

@[simp] theorem logicalResult_inMode (f : Bool) (d : Reg) (r : Word) :
    logicalResult f d r (s.inMode md) = (logicalResult f d r s).inMode md := by simp [logicalResult]
@[simp] theorem productResult_inMode (f : Bool) (d : Reg) (r : Word) :
    productResult f d r (s.inMode md) = (productResult f d r s).inMode md := by simp [productResult]
@[simp] theorem longResult_inMode (f : Bool) (h d : Reg) (p : BitVec 64) :
    longResult f h d p (s.inMode md) = (longResult f h d p s).inMode md := by simp [longResult]
@[simp] theorem immResult_inMode (d : Reg) (r : Word) : immResult d r (s.inMode md) = (immResult d r s).inMode md := rfl

/-- A block is read from memory alone. -/
@[simp] theorem readWords_inMode (as : List Word) : readWords (s.inMode md) as = readWords s as := by
  induction as with
  | nil => rfl
  | cons a as ih => simp only [readWords, State.inMode_mem, ih]

/-! ### Addresses and targets -/

@[simp] theorem newBase_inMode (a : Single) : newBase a (s.inMode md) = newBase a s := by
  obtain ⟨_, _, offset, _, _, _⟩ := a
  cases offset <;> rfl
@[simp] theorem accessAddr_inMode (a : Single) : accessAddr a (s.inMode md) = accessAddr a s := by
  simp [accessAddr]
@[simp] theorem blockNew_inMode (m : Multi) : blockNew m (s.inMode md) = blockNew m s := rfl
@[simp] theorem blockAddrs_inMode (m : Multi) : blockAddrs m (s.inMode md) = blockAddrs m s := rfl
@[simp] theorem registerTarget_inMode (a : Reg) (o : Option Reg) : registerTarget a o (s.inMode md) = registerTarget a o s := by
  cases o <;> rfl

end

/-! ### Accesses -/

section
variable {md : Mode} {s : State}

theorem Region.denies_of_mode_none {r : Region} (h : r.mode = none) (a : Word) (n : Size) (k : AccessKind) (md md' : Mode) :
    r.denies a n k md = r.denies a n k md' := by
  simp [Region.denies, h]

variable (h : s.MapIgnoresMode)
include h

theorem State.mapped_inMode (k : AccessKind) (a : Word) (n : Size) : (s.inMode md).mapped k a n = s.mapped k a n := by
  have hany : s.unmapped.any (fun r => r.denies a n k md) = s.unmapped.any (fun r => r.denies a n k s.mode) := by
    rw [Bool.eq_iff_iff, List.any_eq_true, List.any_eq_true]
    exact exists_congr fun r => and_congr_right fun hr => by rw [Region.denies_of_mode_none (h r hr)]
  exact congrArg (!·) hany

theorem State.checkAccess_inMode (k : AccessKind) (a : Word) (n : Size) :
    (s.inMode md).checkAccess k a n = s.checkAccess k a n := by
  simp only [State.checkAccess, State.mapped_inMode h]

theorem State.readMem_inMode (k : AccessKind) (a : Word) (n : Size) : (s.inMode md).readMem k a n = s.readMem k a n := by
  simp only [State.readMem, State.checkAccess_inMode h, State.inMode_mem]

theorem State.writeMem_inMode (a : Word) (n : Size) (v : Word) :
    (s.inMode md).writeMem a n v = (s.writeMem a n v).map (State.inMode md) := by
  simp only [State.writeMem, State.checkAccess_inMode h]
  cases s.checkAccess .write a n <;> rfl

theorem checkPlatform_inMode (k : AccessKind) (as : List Word) : checkPlatform (s.inMode md) k as = checkPlatform s k as := by
  induction as with
  | nil => rfl
  | cons a as ih => simp only [checkPlatform, State.mapped_inMode h, ih]

theorem checkBlock_inMode (k : AccessKind) (as : List Word) : checkBlock (s.inMode md) k as = checkBlock s k as := by
  cases as with
  | nil => rfl
  | cons a as => simp only [checkBlock, checkPlatform_inMode h]

theorem State.push_inMode (v : Word) : (s.inMode md).push v = (s.push v).map (State.inMode md) := by
  simp only [State.push, State.reg_inMode, State.writeMem_inMode h]
  cases s.writeMem (s.reg spReg - 4#32) .word v <;> rfl

theorem State.pop_inMode : (s.inMode md).pop = s.pop.map fun p => (p.1, p.2.inMode md) := by
  simp only [State.pop, State.reg_inMode, State.readMem_inMode h]
  cases s.readMem .read (s.reg spReg) .word <;> rfl

end

/-! ### The effects of the families -/

/-- The effect `b'` is the effect `b` with the mode of its result replaced. -/
def EffectInMode (md : Mode) (b b' : Except Stop State) : Prop := b' = b.map (State.inMode md)

section
variable {α : Type} {md : Mode} {s t : State}

theorem EffectInMode.ok {t' : State} (ht : t' = t.inMode md) : EffectInMode md (.ok t) (.ok t') := congrArg Except.ok ht

theorem EffectInMode.error (e : Stop) : EffectInMode md (.error e) (.error e) := rfl

theorem EffectInMode.ite {p : Prop} [Decidable p] {a a' b b' : Except Stop State} (ha : EffectInMode md a a')
    (hb : EffectInMode md b b') : EffectInMode md (if p then a else b) (if p then a' else b') := by
  split
  · exact ha
  · exact hb

theorem EffectInMode.map {r : Except Stop α} {f f' : α → State} (hf : ∀ x, f' x = (f x).inMode md) :
    EffectInMode md (r.map f) (r.map f') := by
  cases r with
  | error e => exact .error e
  | ok x => exact .ok (hf x)

theorem EffectInMode.bind {r : Except Stop α} {f f' : α → Except Stop State} (hf : ∀ x, EffectInMode md (f x) (f' x)) :
    EffectInMode md (r.bind f) (r.bind f') := by
  cases r with
  | error e => exact .error e
  | ok x => exact hf x

/-- What follows an effect follows it in the other mode. -/
theorem EffectInMode.andThen {b b' : Except Stop State} (hb : EffectInMode md b b') {f : State → State}
    (hf : ∀ u, f (u.inMode md) = (f u).inMode md) : EffectInMode md (b.map f) (b'.map f) := by
  rw [hb]
  cases b with
  | error e => exact .error e
  | ok u => exact .ok (hf u)

theorem perform_inMode {c : Cond} {b b' : Except Stop State} (hb : EffectInMode md b b') :
    (s.inMode md).perform c b' = withMode md (s.perform c b) := by
  have hcond : (s.inMode md).condHolds c = s.condHolds c := rfl
  cases hc : s.condHolds c with
  | false =>
    rw [State.perform_of_not hc, State.perform_of_not (hcond.trans hc)]
    rfl
  | true =>
    rw [State.perform_of_holds hc, State.perform_of_holds (hcond.trans hc), hb]
    rcases b with (e | r) | u
    · rfl
    · rfl
    · rfl

theorem EffectInMode.additive (w : Word) (o f : Bool) (a b : Word) (cin : Bool) (d : Option Reg) :
    EffectInMode md (additive w o f a b cin d s) (additive w o f a b cin d (s.inMode md)) :=
  .ite (.error _) (.ok (by simp))

variable (h : s.MapIgnoresMode)
include h

theorem EffectInMode.callTo (t : Word) : EffectInMode md (callTo t s) (callTo t (s.inMode md)) :=
  .andThen (State.push_inMode h _) fun _ => rfl

theorem EffectInMode.ret : EffectInMode md (s.pop.bind fun p => (checkTarget p.1).map fun _ => p.2.setPc p.1)
    ((s.inMode md).pop.bind fun p => (checkTarget p.1).map fun _ => p.2.setPc p.1) := by
  rw [State.pop_inMode h]
  cases s.pop with
  | error e => exact .error e
  | ok p => exact .map fun _ => rfl

theorem EffectInMode.popThen {f : Word → State → State} (hf : ∀ v u, f v (u.inMode md) = (f v u).inMode md) :
    EffectInMode md (s.pop.map fun p => f p.1 p.2) ((s.inMode md).pop.map fun p => f p.1 p.2) := by
  rw [State.pop_inMode h]
  cases s.pop with
  | error e => exact .error e
  | ok p => exact .ok (hf p.1 p.2)

theorem EffectInMode.loadSingle (n : Size) (ext : Word → Word) (a : Single) :
    EffectInMode md (loadSingle n ext a s) (loadSingle n ext a (s.inMode md)) := by
  refine .ite (.error _) ?_
  rw [State.readMem_inMode h, accessAddr_inMode]
  exact .map fun v => by simp

theorem EffectInMode.storeSingle (n : Size) (a : Single) :
    EffectInMode md (storeSingle n a s) (storeSingle n a (s.inMode md)) := by
  unfold Machine.storeSingle
  rw [accessAddr_inMode, newBase_inMode]
  exact .andThen (State.writeMem_inMode h _ _ _) fun u => by simp

theorem EffectInMode.loadMulti (m : Multi) : EffectInMode md (loadMulti m s) (loadMulti m (s.inMode md)) := by
  refine .bind fun _ => ?_
  rw [checkBlock_inMode h]
  refine .bind fun _ => ?_
  rw [readWords_inMode]
  exact .map fun vs => by simp

theorem EffectInMode.storeMulti (m : Multi) : EffectInMode md (storeMulti m s) (storeMulti m (s.inMode md)) := by
  have hreg : (s.inMode md).reg = s.reg := rfl
  refine .bind fun _ => ?_
  rw [checkBlock_inMode h]
  exact .map fun _ => by simp [hreg]

/-- Every instruction but the three of CPU control, one case per family. -/
theorem exec_inMode {i : Instr} (hi : ¬ cpuControl i) : exec i (s.inMode md) = withMode md (exec i s) := by
  cases i with
  | and | or | xor | nand | not | nor | xnor | cntlz | cntlo | popcnt =>
    exact perform_inMode (.ok (logicalResult_inMode _ _ _ _ _))
  | add | sub | addc | subc | neg | comp => exact perform_inMode (.additive _ _ _ _ _ _ _)
  | mult => exact perform_inMode (.ok (productResult_inMode _ _ _ _ _))
  | div | rem => exact perform_inMode (.map fun _ => productResult_inMode _ _ _ _ _)
  | lmul => exact perform_inMode (.ite (.error _) (.ok (longResult_inMode _ _ _ _ _ _)))
  | rbra _ _ a off => exact perform_inMode (by rw [registerTarget_inMode]; exact .map fun _ => rfl)
  | rcall _ _ a off => exact perform_inMode (by rw [registerTarget_inMode]; exact .bind fun _ => .callTo h _)
  | ret => exact perform_inMode (.ret h)
  | load | loadb | loadh | loadbe | loadhe => exact perform_inMode (.loadSingle h _ _ _)
  | loadm => exact perform_inMode (.loadMulti h _)
  | pop _ d => exact perform_inMode (.ite (.error _) (.popThen h (f := fun v u => (u.setReg d v).advance) fun _ _ => rfl))
  | popf => exact perform_inMode (.popThen h (f := fun v u => (u.setFlags (Flags.ofWord v)).advance) fun _ _ => rfl)
  | stor | storb | storh => exact perform_inMode (.storeSingle h _ _)
  | storm => exact perform_inMode (.storeMulti h _)
  | push | pushpc | pushf => exact perform_inMode (.andThen (State.push_inMode h _) fun _ => rfl)
  | stop => exact absurd (.inl rfl) hi
  | wait => exact absurd (.inr (.inl rfl)) hi
  | switchm => exact absurd (.inr (.inr rfl)) hi
  | movimm | movuimm | andimm | orimm | xorimm | addimm | subimm => exact perform_inMode (.ok (immResult_inMode _ _ _ _))
  | compimm => exact perform_inMode (.ok rfl)
  | bra => exact perform_inMode (.ok rfl)
  | call => exact perform_inMode (.callTo h _)

end

/-- Settles O23: what an instruction does in User mode is what it does in Supervisor mode. -/
theorem modesBehaveIdentically : Obligations.ModesBehaveIdentically :=
  fun _ s hi h => exec_inMode (md := .user) (s := s.inMode .supervisor) h hi

end Sys2Proof.Machine
end

section
/-!
SUPPORT. Data reads of a byte that nothing has written (70_reset_and_hazards.md R241): a read is refused at its first such byte, a block at
its first word with one (log entries 4 and 13).
-/

namespace Sys2Proof.Machine

section
variable {i : Instr} {s : State} {c : Cond}

/-! ### One access -/

/-- An instruction refused whenever its read is has the refusals of that read. -/
theorem unwrittenRefused_of_readMem {p : Word} {n : Size} (ha : p.toNat % n.bytes = 0) (hm : s.mapped .read p n = true)
    (h : ∀ r, s.readMem .read p n = .error (.refuse r) → exec i s = .refused r) : UnwrittenRefused i s p n :=
  fun _ hj hbefore hnone => h _ (State.readMem_of_unwritten ha hm hj hbefore hnone)

theorem unwrittenRefused_of_loadSingle {n : Size} {ext : Word → Word} {a : Single} (hc : s.condHolds c = true)
    (hi : exec i s = s.perform c (loadSingle n ext a s)) (hcol : a.collides = false)
    (ha : (accessAddr a s).toNat % n.bytes = 0) (hm : s.mapped .read (accessAddr a s) n = true) :
    UnwrittenRefused i s (accessAddr a s) n := by
  refine unwrittenRefused_of_readMem ha hm fun r hr => ?_
  exact hi.trans ((s.perform_refused r c _).mpr ⟨hc, (loadSingle_error n ext a s _).mpr (.inr ⟨hcol, hr⟩)⟩)

/-- The pops and `ret` are refused as the read at the stack pointer is. -/
theorem unwrittenRefused_of_pop {b : Except Stop State} (hc : s.condHolds c = true) (hi : exec i s = s.perform c b)
    (hb : ∀ e, s.pop = .error e → b = .error e) (ha : (s.reg 15).toNat % Size.word.bytes = 0)
    (hm : s.mapped .read (s.reg 15) .word = true) : UnwrittenRefused i s (s.reg 15) .word := by
  refine unwrittenRefused_of_readMem ha hm fun r hr => ?_
  exact hi.trans ((s.perform_refused r c b).mpr ⟨hc, hb _ ((s.pop_error _).mpr hr)⟩)

/-! ### A block (R135) -/

/-- Bytes that all have a value are read. -/
theorem Memory.readAll_of_written {m : Memory} {a : Word} {n : Nat} (hroom : a.toNat + n ≤ 2 ^ 32)
    (h : ∀ j, j < n → m.read (a.toNat + j) ≠ none) : ∃ bs, m.readAll (byteAddrs a n) = .ok bs := by
  cases hr : m.readAll (byteAddrs a n) with
  | ok bs => exact ⟨bs, rfl⟩
  | error e =>
    obtain ⟨x, hx, hnone, -⟩ := Memory.readAll_error hr
    rw [byteAddrs_eq_map hroom, List.mem_map] at hx
    obtain ⟨j, hj, rfl⟩ := hx
    rw [List.mem_range] at hj
    rw [toNat_add_ofNat (by omega)] at hnone
    exact absurd hnone (h j hj)

/-- Past its checks a read stops exactly as the reading of its bytes does. -/
theorem State.readMem_error_iff {k : AccessKind} {a : Word} {n : Size} {e : Stop} (hc : s.checkAccess k a n = .ok ()) :
    s.readMem k a n = .error e ↔ s.mem.readAll (byteAddrs a n.bytes) = .error e := by
  simp only [State.readMem, hc, except_map_error]

/-- The first word that cannot be read decides. -/
theorem readWords_first (f : Nat → Word) {n k : Nat} {e : Stop} (hk : k < n)
    (hbefore : ∀ l, l < k → ∃ bs, s.mem.readAll (byteAddrs (f l) 4) = .ok bs) (h : s.mem.readAll (byteAddrs (f k) 4) = .error e) :
    readWords s ((List.range n).map f) = .error e := by
  induction n generalizing f k with
  | zero => omega
  | succ n ih =>
    rw [List.range_succ_eq_map, List.map_cons, List.map_map, readWords, Size.bytes]
    cases k with
    | zero => rw [h]
    | succ k =>
      obtain ⟨bs, hbs⟩ := hbefore 0 (Nat.succ_pos k)
      rw [hbs]
      exact (except_map_error _ _ e).mpr (ih (f ∘ Nat.succ) (Nat.lt_of_succ_lt_succ hk)
        (fun l hl => hbefore (l + 1) (Nat.succ_lt_succ hl)) h)

theorem unwrittenRefused_loadm {m : Multi} {k : Nat} (hc : s.condHolds c = true) (hwf : m.wellFormed = true)
    (hacc : BlockAccepted m s .read) (hk : k < m.regs.length)
    (hbefore : ∀ l, l < k → ∀ j, j < 4 → s.mem.read ((blockWord m s l).toNat + j) ≠ none) :
    UnwrittenRefused (.loadm c m) s (blockWord m s k) .word := by
  obtain ⟨hstart, hmapped⟩ := id hacc
  have hregs : m.regs ≠ [] := List.ne_nil_of_length_pos (Nat.zero_lt_of_lt hk)
  have haligned : ∀ l, (blockWord m s l).toNat % Size.word.bytes = 0 := blockWord_mod_four (hstart hregs)
  refine unwrittenRefused_of_readMem (haligned k) (hmapped k hk) fun r hr => ?_
  have haccess := (s.checkAccess_ok .read _ .word).mpr ⟨(Size.aligned_iff _ _).mpr (haligned k), hmapped k hk⟩
  have hwords : readWords s (blockAddrs m s) = .error (.refuse r) := by
    rw [blockAddrs_eq_map]
    exact readWords_first _ hk (fun l hl => Memory.readAll_of_written (Size.room (haligned l)) (hbefore l hl))
      ((State.readMem_error_iff haccess).mp hr)
  exact exec_loadm_of_error hc
    ((loadMulti_error m s _).mpr (.inr ⟨hwf, .inr ⟨blockAccepted_iff_checkBlock.mp hacc, hwords⟩⟩))

end

/-- Settles O46: the single loads, the pops and `ret` make one read, and `loadm` reads its words in order. -/
theorem unwrittenReadsRefused : Obligations.UnwrittenReadsRefused := by
  intro s c hc
  refine ⟨fun a d i n p hmem hcol hd ha hm => ?_, fun m k hwf hacc hk hbefore => unwrittenRefused_loadm hc hwf hacc hk hbefore⟩
  simp only [List.mem_cons, Prod.mk.injEq, List.not_mem_nil, or_false] at hmem
  rcases hmem with ⟨rfl, rfl, rfl⟩ | ⟨rfl, rfl, rfl⟩ | ⟨rfl, rfl, rfl⟩ | ⟨rfl, rfl, rfl⟩ | ⟨rfl, rfl, rfl⟩ | ⟨rfl, rfl, rfl⟩ |
    ⟨rfl, rfl, rfl⟩ | ⟨rfl, rfl, rfl⟩
  · exact unwrittenRefused_of_loadSingle hc rfl hcol ha hm
  · exact unwrittenRefused_of_loadSingle hc rfl hcol ha hm
  · exact unwrittenRefused_of_loadSingle hc rfl hcol ha hm
  · exact unwrittenRefused_of_loadSingle hc rfl hcol ha hm
  · exact unwrittenRefused_of_loadSingle hc rfl hcol ha hm
  · exact unwrittenRefused_of_pop hc rfl (fun e he => (if_neg hd).trans ((except_map_error _ _ e).mpr he)) ha hm
  · exact unwrittenRefused_of_pop hc rfl (fun e he => (except_map_error _ _ e).mpr he) ha hm
  · exact unwrittenRefused_of_pop hc rfl (fun e he => (except_bind_error _ _ e).mpr (.inl he)) ha hm

end Sys2Proof.Machine
end
